-- ==== Sys2Proof/Word.lean ====
section
/-! DEFINITION. The plain value types of the spec's notation (00_scope.md, R8, R14, R16, R101, R103). -/

namespace Sys2Proof

/-- A flag byte, command byte or data byte (R14). -/
abbrev Byte := BitVec 8

/-- A host GPIO pin id: a number, never a word the block computes with (R10, R76). -/
abbrev Pin := Nat

/-- A bus width, W or the w of a transfer: 4 or 8 data lines (R8, R31). -/
inductive Width where
  | four
  | eight
  deriving DecidableEq, Repr, Inhabited

/-- The number of data lines. -/
def Width.bits : Width → Nat
  | .four => 4
  | .eight => 8

/-- The direction of a pin (R16). -/
inductive Dir where
  | inp
  | out
  deriving DecidableEq, Repr, Inhabited

/-- The level of a pin: 0, 1, or Z, not driven (R48). -/
inductive Level where
  | lo
  | hi
  | z
  deriving DecidableEq, Repr, Inhabited

/-- The level a `Put` of `b` drives. -/
def Level.ofBool : Bool → Level
  | false => .lo
  | true => .hi

/-- FONT (R8). -/
inductive Font where
  | f5x8
  | f5x10
  deriving DecidableEq, Repr, Inhabited

/-- A code on the wire: the 10-bit code of a byte frame (R101) or the 6-bit code of a raw nibble (R103). -/
inductive WireCode where
  | frame (c : BitVec 10)
  | nibble (c : BitVec 6)
  deriving DecidableEq, Repr, Inhabited

/-- Why a code is no instruction. -/
inductive DecodeError where
  /-- Frame code 0x000, which is no HD44780 instruction (R115, R123). -/
  | reservedFrame
  /-- A nibble code other than 0b000011 and 0b000010 (R103). -/
  | noSuchNibble
  /-- A table word that is neither a 10-bit frame code nor a 6-bit nibble code. -/
  | noSuchFormat
  /-- In a 4-bit trace, a nibble without its other half (R85, R126, R301). -/
  | unpairedNibble
  deriving DecidableEq, Repr

/-- `m` where `b` holds, else 0: one flag bit of a command byte. -/
def flag (b : Bool) (m : Byte) : Byte := if b then m else 0

/-- The byte of a high and a low nibble. -/
def byteOfNibbles (hi lo : BitVec 4) : Byte := (hi.setWidth 8 <<< 4) ||| lo.setWidth 8

end Sys2Proof
end

