-- ==== Sys2Proof/Machine/Types.lean ====
section
/-! DEFINITION. The data the machine's state is made of: events, parameters, handle, pin port, requests, sequence items,
and the attached controller. -/

namespace Sys2Proof.Machine

/-- The named intervals of R9; each is the argument of a `Wait` event. -/
inductive Delay where
  /-- T_POWER -/
  | power
  /-- T_INIT_GAP -/
  | initGap
  /-- T_AS -/
  | setup
  /-- T_PW -/
  | pulse
  /-- T_H -/
  | hold
  /-- T_SETTLE -/
  | settle
  /-- T_BACKOFF -/
  | backoff
  /-- T_LONG -/
  | long
  deriving DecidableEq, Repr

/-- The event primitives of R16. A group mask is a set of pins written as a number whose bit p stands for pin p (R76). -/
inductive Event where
  | initLine (p : Pin)
  | initMask (m : Nat)
  | setDir (p : Pin) (d : Dir)
  | setDirMask (m : Nat) (d : Dir)
  | put (p : Pin) (b : Bool)
  | putMask (m v : Nat)
  /-- A sample, with the oracle's answer. -/
  | get (p : Pin) (b : Bool)
  | wait (t : Delay)
  | release (p : Pin)
  deriving DecidableEq, Repr

/-- Which memory the controller's address counter points into (R110, R111). -/
inductive RamSpace where
  | ddram
  | cgram
  deriving DecidableEq, Repr, Inhabited

/-- An end of one of the controller's memories: where the address counter, moving in one direction, finds no next address
that the spec gives (R63 "the controller's own address-increment/wrap behavior"; log 22). -/
structure AcEdge where
  space : RamSpace
  /-- the line mode (N, R109) in which it is an end -/
  twoLine : Bool
  /-- the direction: increment or decrement -/
  inc : Bool
  addr : Nat
  deriving DecidableEq, Repr

/-- The OPEN parameters of 92_eei_decisions.md, which the spec's model takes as arguments (R9, R10); no step writes them.
Times are in nanoseconds. -/
structure Params where
  /-- NPINS, the number of host pins. -/
  npins : Nat
  /-- MASKW, the width of a group mask. -/
  maskw : Nat
  /-- T_INIT_GAP -/
  tInitGap : Nat
  /-- T_AS -/
  tAS : Nat
  /-- T_PW -/
  tPW : Nat
  /-- T_H -/
  tH : Nat
  /-- T_SETTLE -/
  tSettle : Nat
  /-- T_BACKOFF -/
  tBackoff : Nat
  /-- T_LONG -/
  tLong : Nat
  /-- The attached controller's execution time for a command or data transfer (R62, R310). -/
  tExec : Nat
  /-- The attached controller's execution time for Clear Display and Return Home (R245, R310). -/
  tExecLong : Nat
  /-- the ends from which the attached controller's address counter goes where the controller pleases (R63) -/
  acEdges : List AcEdge
  deriving DecidableEq, Repr

/-- The handle, "the sole stateful entity" (R20, R31 to R44). -/
structure Handle where
  /-- W -/
  w : Width
  /-- PIN_RS -/
  rs : Pin
  /-- PIN_E -/
  e : Pin
  /-- PIN_RW, none when tied to ground (R11, R12, R32) -/
  rw : Option Pin
  /-- PIN_D[0..W-1] -/
  d : List Pin
  /-- MASK -/
  mask : Nat
  numlines : Byte
  cols : Byte
  rowOffset : Vector Byte 4
  displayFunction : Byte
  displayControl : Byte
  displayMode : Byte
  deriving DecidableEq, Repr

/-- One pin: its direction, and the level last put to it (z when nothing was). -/
structure PinState where
  dir : Dir
  latch : Level
  deriving DecidableEq, Repr, Inhabited

/-- A pin nobody drives: level Z (R48, R290). That its direction reads IN is the model's choice where the spec leaves it
unspecified (D25; log 33). -/
def PinState.undriven : PinState := ⟨.inp, .z⟩

/-- The pin port (R48 to R53). -/
structure Port where
  /-- The pins that are not undriven, by pin id, in the canonical form of `PinMap.wf`. -/
  pins : List (Nat × PinState)
  /-- port.busDir -/
  busDir : Dir
  /-- port.owned, ascending -/
  owned : List Pin
  deriving DecidableEq, Repr

/-- What an address of a memory holds that nothing has written on its own. -/
inductive Fill where
  /-- the byte the last Clear Display wrote everywhere (R104) -/
  | byte (b : Byte)
  /-- draw `n`: at each address a free value (R290 "unknown: a draw"; log 20) -/
  | drawn (n : Nat)
  deriving DecidableEq, Repr, Inhabited

/-- One of the attached controller's memories: what its unlisted addresses hold, and the bytes written since. -/
structure Ram where
  fill : Fill
  cells : List Host.Cell
  deriving DecidableEq, Repr, Inhabited

/-- A memory of which nothing is known: draw `n` (R59, R290). -/
def Ram.unknown (n : Nat) : Ram := ⟨.drawn n, []⟩

/-- The attached controller, an assumed observer of the pins (R59 to R63; 93_implementation_defined.md G7 to G20). -/
structure Controller where
  /-- interface mode (R59) -/
  mode : Width
  /-- nibble phase: the high half latched in 4-bit mode, while the low half is awaited (R59, R301) -/
  half : Option (BitVec 4)
  ddram : Ram
  cgram : Ram
  /-- address counter (R61) -/
  ac : BitVec 7
  space : RamSpace
  /-- I/D (R106) -/
  entryInc : Bool
  /-- S (R106) -/
  entryShift : Bool
  /-- D (R107) -/
  display : Bool
  /-- C (R107) -/
  cursor : Bool
  /-- B (R107) -/
  blink : Bool
  /-- N (R109) -/
  twoLine : Bool
  /-- 5x10 characters: F, where N = 0 (R109, D12) -/
  font10 : Bool
  /-- net display shift, positions to the left (R105, R108) -/
  shift : Int
  /-- the clock value at which its last command is surely done, if the next transfer begins no earlier (R62, R245) -/
  readyAt : Nat
  /-- free values taken: the model's own counter -/
  draws : Nat
  deriving DecidableEq, Repr, Inhabited

/-- The host requests of R120. -/
inductive Request where
  | writeBits (x : Byte) (w : Width)
  | readBits (w : Width)
  | sendCommand (x : Byte)
  | sendData (x : Byte)
  | busyWait
  | readCommand
  | readData
  | init8 (rs e : Pin) (rw : Option Pin) (d : Vector Pin 8) (cols rows : Byte) (font : Font)
  | init4 (rs e : Pin) (rw : Option Pin) (d : Vector Pin 4) (cols rows : Byte) (font : Font)
  | deinit
  | setCursor (col row : Byte)
  | writeChar (c : Byte)
  | writeString (str : List Byte)
  | writeCharAt (c col row : Byte)
  | writeStringAt (str : List Byte) (col row : Byte)
  | createChar (index : Byte) (pattern : Vector Byte 8)
  | clear
  | home
  | displayOn
  | displayOff
  | cursorOn
  | cursorOff
  | blinkOn
  | blinkOff
  | leftToRight
  | rightToLeft
  | autoscrollOn
  | autoscrollOff
  | scrollDisplayLeft
  | scrollDisplayRight
  deriving DecidableEq, Repr

/-- One item of a request's fixed sequence (R55). -/
inductive Item where
  /-- a code placed from outside, numbered as spec/opcode_table.json numbers it (`withFetchWord`) -/
  | word (nbits w : Nat)
  /-- a frame or raw nibble, through the channel -/
  | code (c : WireCode)
  /-- busyWait (R164) -/
  | poll
  /-- a raw write transfer (R140) -/
  | rawWrite (x : Byte) (w : Width)
  /-- a raw read transfer (R145) -/
  | rawRead (w : Width)
  | wait (t : Delay)
  /-- init step (b) (R184) -/
  | configureLines
  /-- displayControl <- v -/
  | setControl (v : Byte)
  /-- displayMode <- v -/
  | setMode (v : Byte)
  /-- addr <- the byte read & 0x7F, or 0 when RW is not wired (R215) -/
  | latchAddr
  /-- sendCommand(0x80 | addr) (R217) -/
  | restoreAddr
  /-- return the byte read -/
  | returnRead
  /-- return the new handle -/
  | returnHandle
  /-- deinit's releases, and h <- NONE (R195, R197, R198) -/
  | releaseLines
  deriving DecidableEq, Repr

/-- The sequencer phase (R55): Idle, or the running request and the number of its events already emitted. -/
inductive Phase where
  | idle
  | running (r : Request) (k : Nat)
  deriving DecidableEq, Repr

/-- What a request returned (R120). -/
inductive Result where
  | nothing
  | value (v : Byte)
  /-- init: the new handle (true) or NONE (false) -/
  | handle (ok : Bool)
  deriving DecidableEq, Repr

/-- The outcome codes of R261. A hang is an infinite run, so no state ever records it. -/
inductive OutcomeCode where
  | normal
  | allocFail
  | nullHandle
  | readUnsupported
  | hang
  deriving DecidableEq, Repr

/-- The numbers of R261. -/
def OutcomeCode.number : OutcomeCode → Nat
  | .normal => 0
  | .allocFail => 1
  | .nullHandle => 2
  | .readUnsupported => 3
  | .hang => 4

end Sys2Proof.Machine
end

