-- ==== Sys2Proof/Config.lean ====
section
/-! DEFINITION. What an implementation fixes: the one table of opcodes and bit positions (93_implementation_defined.md
section 3, G1 to G5), the fixed power delay, and the free values. -/

namespace Sys2Proof.Config

/-! ### Opcodes (G4; 0x80 is the source's, R111)  -- PRESUMED, log 4 -/

def opClear : Byte := 0x01
def opHome : Byte := 0x02
def opEntryMode : Byte := 0x04
def opDisplayControl : Byte := 0x08
def opShift : Byte := 0x10
def opFunctionSet : Byte := 0x20
def opSetCgram : Byte := 0x40
def opSetDdram : Byte := 0x80

/-! ### Bit positions (G1, G2, G3, G5)  -- PRESUMED, log 4 -/

/-- DL of displayFunction (R38). -/
def bitDL : Byte := 0x10
/-- N of displayFunction (R38). -/
def bitN : Byte := 0x08
/-- F of displayFunction (R38). -/
def bitF : Byte := 0x04
/-- D of displayControl (R41). -/
def bitD : Byte := 0x04
/-- C of displayControl (R41). -/
def bitC : Byte := 0x02
/-- B of displayControl (R41). -/
def bitB : Byte := 0x01
/-- I/D of displayMode (R43). -/
def bitID : Byte := 0x02
/-- S of displayMode (R43). -/
def bitS : Byte := 0x01
/-- S/C of Cursor or Display Shift (R108). -/
def bitSC : Byte := 0x08
/-- R/L of Cursor or Display Shift (R108). -/
def bitRL : Byte := 0x04

/-- The space character Clear Display fills DDRAM with (R104). -/
def space : Byte := 0x20

/-- T_POWER = 50 ms, in ns (R183, D38). -/
def tPower : Nat := 50000000

/-! ### Free values: nothing constrains them -/

/-- The oracle's answer to a `Get` or to the allocation, beyond the bits lined up in the state (R75, R181; log 5). -/
opaque freeBit : Nat → Bool
/-- What a read request on a null handle returns (R262, D18; log 6). -/
opaque freeByte : Nat → Byte
/-- Level and direction of a released pin (R197, U16; log 8). -/
opaque freePin : Nat → Machine.PinState
/-- Direction of the released bus (R197, U16; log 8). -/
opaque freeDir : Nat → Dir
/-- A controller of which nothing is known (R59; log 20). -/
opaque freeController : Nat → Machine.Controller
/-- The byte at an address of draw `n` of a memory of which nothing is known (R290; log 20). -/
opaque freeCell : Nat → Nat → Byte
/-- What the controller sees on unconnected DB3..DB0 (R83; log 24). -/
opaque freeNibble : Nat → BitVec 4
/-- What the controller samples at transfer draw `n` on pin `p` when the block does not drive it (R60; log 40). -/
opaque freeLine : Nat → Pin → Bool
/-- Where the controller's address counter goes past an end (R63; log 22). -/
opaque freeAc : Nat → BitVec 7
/-- Where the controller's display shift stands after an event whose shift the spec does not give (log 23). -/
opaque freeShift : Nat → Int

end Sys2Proof.Config
end

