-- ==== Sys2Proof/Syntax.lean ====
section
/-! DEFINITION. The instructions: one constructor for each row of spec/opcode_table.json. -/

namespace Sys2Proof

/-- The frames of the wire (30_encoding.md R101 to R115), each with every operand bit of its encoding. The don't-care
bits x are kept as operands, so that no bit of a byte the host sends is dropped (R160 "Any byte is sent as given"). -/
inductive Instr where
  /-- CLEAR_DISPLAY, byte 0x01 (R104). -/
  | clearDisplay
  /-- RETURN_HOME, byte 0b0000001x (R105). -/
  | returnHome (x : Bool)
  /-- ENTRY_MODE_SET, byte 0b000001 I/D S (R106). -/
  | entryModeSet (id sh : Bool)
  /-- DISPLAY_CONTROL, byte 0b00001 D C B (R107). -/
  | displayControl (d c b : Bool)
  /-- CURSOR_DISPLAY_SHIFT, byte 0b0001 S/C R/L x x (R108). -/
  | cursorDisplayShift (sc rl : Bool) (x : BitVec 2)
  /-- FUNCTION_SET, byte 0b001 DL N F x x (R109). -/
  | functionSet (dl n f : Bool) (x : BitVec 2)
  /-- SET_CGRAM_ADDRESS, byte 0b01 A5..A0 (R110). -/
  | setCgramAddress (a : BitVec 6)
  /-- SET_DDRAM_ADDRESS, byte 0b1 A6..A0 (R111). -/
  | setDdramAddress (a : BitVec 7)
  /-- READ_BUSY_FLAG_ADDRESS (R112): the byte slot holds what the controller answers, BF and AC. -/
  | readBusyFlagAddress (bf : Bool) (ac : BitVec 7)
  /-- WRITE_DATA (R113). -/
  | writeData (d : Byte)
  /-- READ_DATA (R114): the byte slot holds what the controller answers. -/
  | readData (d : Byte)
  /-- INIT_NIBBLE_3, the raw nibble 0x3 of the 4-bit handshake (R103, R186). -/
  | initNibble3
  /-- INIT_NIBBLE_2, the raw nibble 0x2 of the 4-bit handshake (R103, R186). -/
  | initNibble2
  deriving DecidableEq, Repr

end Sys2Proof
end

