-- ==== Sys2Proof/WellFormed.lean ====
section
/-! DEFINITION. Well-formed instructions: the form in which the block itself issues a frame. -/

namespace Sys2Proof

/-- Well-formedness of an instruction as the block issues it: don't-care bits are 0 (R122), and the byte slot of a read
frame, which the block does not drive, is 0 (the match codes 0x100 and 0x300 of R112 and R114). Operand ranges (6-bit and
7-bit addresses, R78, R79) are in the operand types. -/
def Instr.wf : Instr → Bool
  | .clearDisplay => true
  | .returnHome x => x == false
  | .entryModeSet _ _ => true
  | .displayControl _ _ _ => true
  | .cursorDisplayShift _ _ x => x == 0
  | .functionSet _ _ _ x => x == 0
  | .setCgramAddress _ => true
  | .setDdramAddress _ => true
  | .readBusyFlagAddress bf ac => bf == false && ac == 0
  | .writeData _ => true
  | .readData d => d == 0
  | .initNibble3 => true
  | .initNibble2 => true

end Sys2Proof
end

