-- ==== Sys2Proof/Decode.lean ====
section
/-! DEFINITION. From codes on the wire to instructions, total and rejecting by name, and back. -/

namespace Sys2Proof

/-- The 10-bit frame code of R101: RS, RW, byte. -/
def frameCode (rs rw : Bool) (b : Byte) : BitVec 10 :=
  (if rs then 0x200 else 0) ||| (if rw then 0x100 else 0) ||| b.setWidth 10

/-- Whether `b` has a bit of `m` set. -/
def hasBit (b m : Byte) : Bool := b &&& m != 0

/-- The command with RS = 0 and RW = 0: the instruction named by the highest set bit of the byte (R115). -/
def decodeCommand (b : Byte) : Except DecodeError Instr :=
  if hasBit b Config.opSetDdram then .ok (.setDdramAddress (b.extractLsb' 0 7))
  else if hasBit b Config.opSetCgram then .ok (.setCgramAddress (b.extractLsb' 0 6))
  else if hasBit b Config.opFunctionSet then
    .ok (.functionSet (hasBit b Config.bitDL) (hasBit b Config.bitN) (hasBit b Config.bitF) (b.extractLsb' 0 2))
  else if hasBit b Config.opShift then
    .ok (.cursorDisplayShift (hasBit b Config.bitSC) (hasBit b Config.bitRL) (b.extractLsb' 0 2))
  else if hasBit b Config.opDisplayControl then
    .ok (.displayControl (hasBit b Config.bitD) (hasBit b Config.bitC) (hasBit b Config.bitB))
  else if hasBit b Config.opEntryMode then .ok (.entryModeSet (hasBit b Config.bitID) (hasBit b Config.bitS))
  else if hasBit b Config.opHome then .ok (.returnHome (b.getLsbD 0))
  else if hasBit b Config.opClear then .ok .clearDisplay
  else .error .reservedFrame

/-- The table of R115 in its order: RS and RW first, then the command byte. -/
def decodeFrame (c : BitVec 10) : Except DecodeError Instr :=
  let b : Byte := c.extractLsb' 0 8
  match c.getLsbD 9, c.getLsbD 8 with
  | true, true => .ok (.readData b)
  | true, false => .ok (.writeData b)
  | false, true => .ok (.readBusyFlagAddress (b.getLsbD 7) (b.extractLsb' 0 7))
  | false, false => decodeCommand b

/-- The raw nibbles: only the two codes of the 4-bit handshake (R103). -/
def decodeNibble (c : BitVec 6) : Except DecodeError Instr :=
  if c = 0b000011 then .ok .initNibble3
  else if c = 0b000010 then .ok .initNibble2
  else .error .noSuchNibble

/-- The decoder. -/
def decode : WireCode → Except DecodeError Instr
  | .frame c => decodeFrame c
  | .nibble c => decodeNibble c

/-- The wire code in a word of `nbits` bits that starts at bit 0: a 10-bit frame code in 10 or 16 bits, a 6-bit nibble
code in 6 or 8 bits; the padding above the code is 0 (log 29). -/
def wordCode (nbits w : Nat) : Option WireCode :=
  if nbits = 10 ∨ nbits = 16 then if w < 1024 then some (.frame (BitVec.ofNat 10 w)) else none
  else if nbits = 6 ∨ nbits = 8 then if w < 64 then some (.nibble (BitVec.ofNat 6 w)) else none
  else none

/-- The instruction in a table word, or the name of why there is none. -/
def decodeWord (nbits w : Nat) : Except DecodeError Instr :=
  match wordCode nbits w with
  | some c => decode c
  | none => .error .noSuchFormat

/-- The instruction in a word numbered as spec/opcode_table.json numbers it. -/
def decodeTableWord (nbits w : Nat) : Option Instr := (decodeWord nbits w).toOption

/-- The command byte, opcode ORed with its operand bits (R104 to R111, R116); for a read, its byte slot. -/
def Instr.byte : Instr → Byte
  | .clearDisplay => Config.opClear
  | .returnHome x => Config.opHome ||| flag x 0x01
  | .entryModeSet id sh => Config.opEntryMode ||| flag id Config.bitID ||| flag sh Config.bitS
  | .displayControl d c b => Config.opDisplayControl ||| flag d Config.bitD ||| flag c Config.bitC ||| flag b Config.bitB
  | .cursorDisplayShift sc rl x => Config.opShift ||| flag sc Config.bitSC ||| flag rl Config.bitRL ||| x.setWidth 8
  | .functionSet dl n f x =>
      Config.opFunctionSet ||| flag dl Config.bitDL ||| flag n Config.bitN ||| flag f Config.bitF ||| x.setWidth 8
  | .setCgramAddress a => Config.opSetCgram ||| a.setWidth 8
  | .setDdramAddress a => Config.opSetDdram ||| a.setWidth 8
  | .readBusyFlagAddress bf ac => flag bf 0x80 ||| ac.setWidth 8
  | .writeData d => d
  | .readData d => d
  | .initNibble3 => 0x03
  | .initNibble2 => 0x02

/-- The encoder: the code of each row of spec/opcode_table.json with its operand bits in place (R101, R103). -/
def encode : Instr → WireCode
  | .readBusyFlagAddress bf ac => .frame (frameCode false true (Instr.readBusyFlagAddress bf ac).byte)
  | .writeData d => .frame (frameCode true false d)
  | .readData d => .frame (frameCode true true d)
  | .initNibble3 => .nibble 0b000011
  | .initNibble2 => .nibble 0b000010
  | .clearDisplay => .frame (frameCode false false Instr.clearDisplay.byte)
  | .returnHome x => .frame (frameCode false false (Instr.returnHome x).byte)
  | .entryModeSet id sh => .frame (frameCode false false (Instr.entryModeSet id sh).byte)
  | .displayControl d c b => .frame (frameCode false false (Instr.displayControl d c b).byte)
  | .cursorDisplayShift sc rl x => .frame (frameCode false false (Instr.cursorDisplayShift sc rl x).byte)
  | .functionSet dl n f x => .frame (frameCode false false (Instr.functionSet dl n f x).byte)
  | .setCgramAddress a => .frame (frameCode false false (Instr.setCgramAddress a).byte)
  | .setDdramAddress a => .frame (frameCode false false (Instr.setDdramAddress a).byte)

end Sys2Proof
end

