-- ==== Sys2Proof/Machine/Cells.lean ====
section
/-! DEFINITION. Sparse data by number, in one canonical form (keys strictly rising, no entry that says what an unlisted key
says already): the pins, the owned set, and the attached controller's memories. -/

namespace Sys2Proof.Machine

variable {α : Type}

/-- The entry of key `k`. -/
def cellsFind (k : Nat) : List (Nat × α) → Option α
  | [] => none
  | (j, a) :: m => if j = k then some a else cellsFind k m

/-- Without the entry of key `k`. -/
def cellsErase (k : Nat) : List (Nat × α) → List (Nat × α)
  | [] => []
  | (j, a) :: m => if j = k then cellsErase k m else (j, a) :: cellsErase k m

/-- With the entry `(k, a)`, in its place, instead of any entry of key `k`. -/
def cellsInsert (k : Nat) (a : α) : List (Nat × α) → List (Nat × α)
  | [] => [(k, a)]
  | (j, b) :: m =>
    if k < j then (k, a) :: (j, b) :: m
    else if k = j then (k, a) :: m
    else (j, b) :: cellsInsert k a m

/-- Keys strictly rising. -/
abbrev CellsSorted (m : List (Nat × α)) : Prop := m.Pairwise (fun x y => x.1 < y.1)

/-! ### Pins -/

/-- The state of pin `p`; an unlisted pin is undriven. -/
def pinGet (p : Pin) (m : List (Nat × PinState)) : PinState := (cellsFind p m).getD PinState.undriven

/-- Pin `p` set to `st`. -/
def pinSet (p : Pin) (st : PinState) (m : List (Nat × PinState)) : List (Nat × PinState) :=
  if st = PinState.undriven then cellsErase p m else cellsInsert p st m

/-- The canonical form of the pins. -/
abbrev PinsWf (m : List (Nat × PinState)) : Prop := CellsSorted m ∧ ∀ c ∈ m, c.2 ≠ PinState.undriven

/-! ### The set of owned pins -/

/-- `p` added to an ascending set. -/
def ownedInsert (p : Pin) : List Pin → List Pin
  | [] => [p]
  | q :: s => if p < q then p :: q :: s else if p = q then q :: s else q :: ownedInsert p s

/-! ### The controller's memories -/

/-- The byte at address `a` while nothing has been written there on its own. -/
def Ram.unlisted (r : Ram) (a : Nat) : Byte :=
  match r.fill with
  | .byte b => b
  | .drawn n => Config.freeCell n a

/-- The byte at `a`. -/
def Ram.read (r : Ram) (a : Nat) : Byte := (cellsFind a r.cells).getD (r.unlisted a)

/-- `r` with byte `b` at `a`. A free value is compared with nothing, so over a draw every written byte stays listed. -/
def Ram.write (r : Ram) (a : Nat) (b : Byte) : Ram :=
  if r.fill = .byte b then { r with cells := cellsErase a r.cells } else { r with cells := cellsInsert a b r.cells }

/-- The canonical form of a memory. -/
abbrev Ram.Wf (r : Ram) : Prop := CellsSorted r.cells ∧ ∀ c ∈ r.cells, r.fill ≠ .byte c.2

end Sys2Proof.Machine
end

