-- ==== Sys2Proof/Machine/Controller.lean ====
section
/-! DEFINITION. The attached controller, an agent outside the block (R7, R59 to R63). What the spec says a frame does to it
is general knowledge there (G7 to G20) and PRESUMED here (log 19); the block never reads it. Where the spec does not give
an effect, the value is free. Which memory the address counter points into after Clear Display and Return Home is PRESUMED
(log 34). -/

namespace Sys2Proof.Machine

namespace Controller

/-- A controller of which nothing is known: at power-on (R59, U5), after a transfer that came before its last command was
surely done (R62), after a byte that is no instruction (R115). -/
def unknown (n : Nat) : Controller :=
  { Config.freeController n with ddram := Ram.unknown (2 * n), cgram := Ram.unknown (2 * n + 1), draws := n + 1 }

/-- The address the counter points at in its memory: 7 bits of DDRAM (R78) or 6 bits of CGRAM (R79). -/
def address (c : Controller) : Nat :=
  match c.space with
  | .ddram => c.ac.toNat
  | .cgram => c.ac.toNat % 64

/-- The end the counter stands at when it is to move in direction `inc`, if it stands at one: the lines of DDRAM, and so
their ends, are those of the line mode the controller is in (R109). -/
def edgeAt (inc : Bool) (c : Controller) : AcEdge := ⟨c.space, c.twoLine, inc, c.address⟩

/-- The address counter moved by one; past an end of its memory it goes where the controller pleases (R43, R63, R113;
log 22). -/
def moveAc (p : Params) (inc : Bool) (c : Controller) : Controller :=
  if p.acEdges.contains (c.edgeAt inc) then { c with ac := Config.freeAc c.draws, draws := c.draws + 1 }
  else { c with ac := if inc then c.ac + 1 else c.ac - 1 }

/-- A byte stored at the address counter, in the memory it points into (R113). -/
def store (d : Byte) (c : Controller) : Controller :=
  match c.space with
  | .ddram => { c with ddram := c.ddram.write c.address d }
  | .cgram => { c with cgram := c.cgram.write c.address d }

/-- With S set, the display shifts on each write (R43). By how much, and so whether at all on a write to CGRAM, is not the
spec's to say: the shift after it is free (log 23). -/
def autoscroll (c : Controller) : Controller :=
  if c.entryShift then { c with shift := Config.freeShift c.draws, draws := c.draws + 1 } else c

/-- The clock value at which an instruction latched at time `now` that takes `t` is surely done: `t` after the hold of its
last transfer, so that what must cover it is what the block waits after that transfer (R142, R245; log 37). -/
def doneAt (p : Params) (now t : Nat) : Nat := now + p.tH + t

/-- What an instruction latched at time `now` does to the controller (R104 to R114, G14). That the address counter points
into DDRAM after Clear Display and Return Home, which the spec says only of Set DDRAM Address (G20), is PRESUMED (log 34).
A Function Set sets the line mode and the font wherever it stands, in the handshake too, where G12 has N and F ignored:
DESIGN CHOICE, log 42. With N = 1 it ignores F (G12, D12), and the font is then 5x8: PRESUMED, log 44. -/
def perform (p : Params) (now : Nat) (c : Controller) : Instr → Controller
  | .clearDisplay =>
    { c with
      ddram := ⟨.byte Config.space, []⟩, ac := 0, space := .ddram, entryInc := true,
      shift := Config.freeShift c.draws, draws := c.draws + 1, readyAt := doneAt p now p.tExecLong }
  | .returnHome _ => { c with ac := 0, space := .ddram, shift := 0, readyAt := doneAt p now p.tExecLong }
  | .entryModeSet id sh => { c with entryInc := id, entryShift := sh, readyAt := doneAt p now p.tExec }
  | .displayControl d cu b => { c with display := d, cursor := cu, blink := b, readyAt := doneAt p now p.tExec }
  | .cursorDisplayShift true rl _ =>
    { c with shift := if rl then c.shift - 1 else c.shift + 1, readyAt := doneAt p now p.tExec }
  | .cursorDisplayShift false rl _ => { moveAc p rl c with readyAt := doneAt p now p.tExec }
  | .functionSet dl n f _ =>
    { c with
      mode := if dl then .eight else .four, half := none, twoLine := n, font10 := f && !n, readyAt := doneAt p now p.tExec }
  | .setCgramAddress a => { c with ac := a.setWidth 7, space := .cgram, readyAt := doneAt p now p.tExec }
  | .setDdramAddress a => { c with ac := a, space := .ddram, readyAt := doneAt p now p.tExec }
  | .readBusyFlagAddress _ _ => c
  | .writeData d => { moveAc p c.entryInc (autoscroll (store d c)) with readyAt := doneAt p now p.tExec }
  | .readData _ => { moveAc p c.entryInc c with readyAt := doneAt p now p.tExec }
  | .initNibble3 => c
  | .initNibble2 => c

/-- A whole byte has been transferred: the instruction of its frame code is performed (R115). -/
def complete (p : Params) (now : Nat) (rs rw : Bool) (b : Byte) (c : Controller) : Controller :=
  match decodeFrame (frameCode rs rw b) with
  | .ok i => perform p now c i
  | .error _ => unknown c.draws

/-- What stands on DB7..DB0: all eight lines, or four on DB7..DB4 with DB3..DB0 unconnected (R83, log 24). -/
def seen (w : Width) (lines : Byte) (c : Controller) : Byte :=
  match w with
  | .eight => lines
  | .four => byteOfNibbles (lines.extractLsb' 0 4) (Config.freeNibble c.draws)

/-- One transfer, latched at the falling edge of E (R60), with its nibble phase in 4-bit mode (R59, R301). A status read is
answered at any time; any other transfer, which begins its set-up T_AS + T_PW before it is latched, must not begin before
`readyAt` (R62, R245; log 37). A byte put together from two halves takes RS and RW from the second, also where the first,
out of phase, came with others: PRESUMED, log 38. A transfer from a block whose width differs from the controller's mode, to which R84 has
a model give no meaning, is taken in the controller's own mode, outside the handshake as within it: PRESUMED, log 41. -/
def latch (p : Params) (now : Nat) (w : Width) (rs rw : Bool) (lines : Byte) (c : Controller) : Controller :=
  if (rs || !rw) && decide (now < c.readyAt + p.tAS + p.tPW) then unknown c.draws
  else
    let db := seen w lines c
    let c := { c with draws := c.draws + 1 }
    match c.mode, c.half with
    | .eight, _ => complete p now rs rw db c
    | .four, none => { c with half := some (db.extractLsb' 4 4) }
    | .four, some hi => complete p now rs rw (byteOfNibbles hi (db.extractLsb' 4 4)) { c with half := none }

end Controller

end Sys2Proof.Machine
end

