-- ==== Sys2Proof/Machine/State.lean ====
section
/-! DEFINITION. The machine's state, the reasons it can stop, and its state at reset (10_state.md R65, R290). -/

namespace Sys2Proof.Machine

/-- The faults. -/
inductive Fault where
  /-- R123, U17: a frame code 0x000 was placed for decoding, which "gives no meaning to 0x00: it faults". Raised by the
  sequencer's decoding of a placed word; safe. -/
  | reservedFrame
  deriving DecidableEq, Repr

/-- The refusals: cases to which the model gives no meaning (R265). -/
inductive Refusal where
  /-- An instruction whose meaning is not written yet. Raised by exec alone; safe. -/
  | notModelled (mnemonic : String)
  /-- REFUSE_ROWS0, ROWS = 0 (R13). Raised by init; safe. -/
  | rows0
  /-- REFUSE_PINS, pins not distinct or a pin ≥ NPINS (R8). Raised by init; safe. -/
  | pins
  /-- REFUSE_WIDTH, a transfer with w ≠ W (R144). Raised by writeBits, readBits and the raw nibbles; safe. -/
  | width
  /-- REFUSE_OVERLAP, a request presented while another runs (R56). Raised by step; safe. -/
  | overlap
  /-- REFUSE_REINIT, init while h ≠ NONE (R194). Raised by init; safe. -/
  | reinit
  /-- REFUSE_SHARED, a pin that another handle or subsystem owns (R99, R275). Raised by init; safe. -/
  | shared
  /-- A placed word that is the code of no frame and of no raw nibble (R103). Raised by the sequencer; safe. -/
  | badWord
  deriving DecidableEq, Repr

/-- The numbers of R265, for the refusals it lists. -/
def Refusal.code : Refusal → Option Nat
  | .rows0 => some 10
  | .pins => some 11
  | .width => some 12
  | .overlap => some 13
  | .reinit => some 14
  | .shared => some 15
  | .notModelled _ => none
  | .badWord => none

/-- The state (R65, R290), with the inputs the outside supplies and the attached controller. -/
structure State where
  /-- OPEN parameters (R9, R10) -/
  params : Params
  /-- the handle (R30) -/
  h : Option Handle
  /-- the pin port (R48 to R53) -/
  port : Port
  /-- the sequencer phase (R55) -/
  phase : Phase
  /-- the rest of the running sequence (R55) -/
  todo : List Item
  /-- the request port (R3, R56) -/
  reqPort : Option Request
  /-- the calls the host has still to make (R120) -/
  script : List Request
  /-- pins owned by other handles or subsystems (R99, R275) -/
  foreign : List Pin
  /-- createChar's address to restore (R215) -/
  addr : BitVec 7
  /-- the byte the last read frame brought back (R166) -/
  lastRead : Byte
  /-- what the last request returned (R120) -/
  result : Result
  /-- how the last request ended (R261) -/
  outcome : OutcomeCode
  /-- the event trace, oldest first (R70) -/
  trace : List Event
  /-- the least time passed, in ns (R72, R309) -/
  clock : Nat
  /-- oracle answers lined up by the outside (R75) -/
  oracle : List Bool
  /-- free values taken: the model's own counter -/
  drawn : Nat
  /-- the attached controller, an assumed observer (R59 to R63) -/
  ctl : Controller
  deriving DecidableEq, Repr

/-- The floors of the OPEN parameters (R9, R10, 92_eei_decisions.md); DESIGN CHOICE, log 3. The controller's times and
line ends are PRESUMED, log 21 and 22. -/
def Params.floors : Params where
  npins := 255
  maskw := 255
  tInitGap := 5000000
  tAS := 1000
  tPW := 1000
  tH := 1000
  tSettle := 100000
  tBackoff := 3000
  tLong := 0
  tExec := 37000
  tExecLong := 1520000
  acEdges :=
    [⟨.ddram, false, true, 0x4F⟩, ⟨.ddram, false, true, 0x7F⟩, ⟨.ddram, false, false, 0x00⟩,
      ⟨.ddram, true, true, 0x27⟩, ⟨.ddram, true, true, 0x67⟩, ⟨.ddram, true, true, 0x7F⟩, ⟨.ddram, true, false, 0x00⟩,
      ⟨.ddram, true, false, 0x40⟩,
      ⟨.cgram, false, true, 0x3F⟩, ⟨.cgram, false, false, 0x00⟩, ⟨.cgram, true, true, 0x3F⟩, ⟨.cgram, true, false, 0x00⟩]

/-- The state at reset (R290): no handle, no pin driven or owned, Idle, no event yet; log 3, 5, 7, 11, 14, 20, 26 for the
values the spec does not state. -/
def State.reset : State where
  params := Params.floors
  h := none
  port := { pins := [], busDir := .inp, owned := [] }
  phase := .idle
  todo := []
  reqPort := none
  script := []
  foreign := []
  addr := 0
  lastRead := 0
  result := .nothing
  outcome := .normal
  trace := []
  clock := 0
  oracle := []
  drawn := 0
  ctl := Controller.unknown 0

/-- What a step or a meaning answers. -/
abbrev Out := Host.Outcome State Fault Refusal

end Sys2Proof.Machine
end

