-- ==== Sys2Proof/Machine/Operands.lean ====
section
/-! DEFINITION. Operand assembly: data-bus notation (R18), pins and masks (R8, R11, R33), addresses (R36, R117, R118,
R211, R212). -/

namespace Sys2Proof.Machine

/-- The pin set as a number: OR of `1 << p` (R18, R33). -/
def maskOf : List Pin → Nat
  | [] => 0
  | p :: ps => (1 <<< p) ||| maskOf ps

/-- The pins of a mask, ascending (R76). -/
def maskPins (m : Nat) : List Pin := (List.range (m.log2 + 1)).filter m.testBit

/-- `spread(x)`: bit `PIN_D[i]` is `x[i]`, other bits 0 (R18, R81). -/
def spread : List Pin → Byte → Nat
  | [], _ => 0
  | p :: ps, x => (if x.getLsbD 0 then 1 <<< p else 0) ||| spread ps (x >>> 1)

/-- `gather(b_0 ..)`: OR of `b_i << i` (R18). -/
def gather : List Bool → Byte
  | [] => 0
  | b :: bs => flag b 1 ||| (gather bs <<< 1)

/-- `x & ((1 << w) - 1)` (R140). -/
def lowBits (w : Width) (x : Byte) : Byte :=
  match w with
  | .four => x &&& 0x0F
  | .eight => x

/-- The all-ones pattern sized to w, "read unsupported" (R124, R147). -/
def sentinel : Width → Byte
  | .four => 0x0F
  | .eight => 0xFF

/-- The raw form of PIN_RW: 255 means not wired (R11). -/
def rwOfRaw (raw : Byte) : Option Pin := if raw = 255 then none else some raw.toNat

/-- The pins of a handle in the order of init and of release: RS, E, RW when wired, data (R184, R197). -/
def Handle.pins (hs : Handle) : List Pin := hs.rs :: hs.e :: (hs.rw.toList ++ hs.d)

/-- RW_WIRED (R12). -/
def Handle.wired (hs : Handle) : Bool := hs.rw.isSome

/-- The row-offset table (R36, R37). -/
def rowTable (cols : Byte) : Vector Byte 4 := #v[0x00, 0x40, 0x00 + cols, 0x40 + cols]

/-- `min(row, numlines - 1, 3)` (R211); numlines ≥ 1 (R13). -/
def clampRow (numlines row : Byte) : Nat := min (min row.toNat (numlines.toNat - 1)) 3

/-- `a = (rowOffset[r] + col) mod 256` (R117, R212). -/
def ddramAddress (hs : Handle) (col row : Byte) : Byte :=
  hs.rowOffset.toList.getD (clampRow hs.numlines row) 0 + col

/-- `a = ((index & 7) << 3) + row` (R118, C1). -/
def cgramAddress (index : Byte) (row : Nat) : Byte := ((index &&& 0x7) <<< 3) + BitVec.ofNat 8 row

/-- The duration of a `Wait`, at its lower bound (R9, R72). -/
def Params.ns (p : Params) : Delay → Nat
  | .power => Config.tPower
  | .initGap => p.tInitGap
  | .setup => p.tAS
  | .pulse => p.tPW
  | .hold => p.tH
  | .settle => p.tSettle
  | .backoff => p.tBackoff
  | .long => p.tLong

/-- The least time an event takes: its wait, else none (R309). -/
def Params.eventNs (p : Params) : Event → Nat
  | .wait t => p.ns t
  | .initLine _ | .initMask _ | .setDir _ _ | .setDirMask _ _ | .put _ _ | .putMask _ _ | .get _ _ | .release _ => 0

/-- The constraints on the OPEN parameters (R9, R10, D39). -/
abbrev Params.Legal (p : Params) : Prop :=
  p.npins ≤ 255 ∧ p.npins ≤ p.maskw ∧ 5000000 ≤ p.tInitGap ∧ 1000 ≤ p.tAS ∧ 1000 ≤ p.tPW ∧ 1000 ≤ p.tH ∧
    100000 ≤ p.tSettle

end Sys2Proof.Machine
end

