-- ==== Sys2Proof/Machine/Flags.lean ====
section
/-! DEFINITION. The three flag bytes (R38 to R46) and the two toggle forms (R230). -/

namespace Sys2Proof.Machine

/-- The set form of a toggle: `G | M` (R230). -/
def setBits (g m : Byte) : Byte := g ||| m

/-- The clear form of a toggle: `G & ~M` (R230). -/
def clearBits (g m : Byte) : Byte := g &&& ~~~m

/-- displayFunction at init (R39, R40, R182). -/
def displayFunctionOf (w : Width) (rows : Byte) (font : Font) : Byte :=
  flag (w = .eight) Config.bitDL ||| flag (1 < rows.toNat) Config.bitN ||| flag (font = .f5x10) Config.bitF

/-- displayControl after init: display on, cursor off, blink off (R42, R189). -/
def displayControlInit : Byte := Config.bitD

/-- displayMode after init: left to right, no autoscroll (R44, R190). -/
def displayModeInit : Byte := Config.bitID

/-- `0x20 | displayFunction` (R116). -/
def functionSetByte (hs : Handle) : Byte := Config.opFunctionSet ||| hs.displayFunction

/-- `0x08 | displayControl` (R116). -/
def displayControlByte (g : Byte) : Byte := Config.opDisplayControl ||| g

/-- `0x04 | displayMode` (R116). -/
def entryModeByte (g : Byte) : Byte := Config.opEntryMode ||| g

end Sys2Proof.Machine
end

