-- ==== Sys2Proof/Machine/Ops.lean ====
section
/-! DEFINITION. The named operations over the state: emitting an event, drawing from the oracle, outcomes, and the pace of
the sequencer. The block has no exception to take and none to return from (R260, R270). -/

namespace Sys2Proof.Machine

/-! ### The pin port -/

/-- The level of pin `p`: what was last put to it while it is an output, Z while it is an input (R48, R272;
log 10). An output to which nothing has been put yet, whose level neither rule gives, reads Z: DESIGN CHOICE, log 43. -/
def Port.level (pt : Port) (p : Pin) : Level :=
  match (pinGet p pt.pins).dir with
  | .out => (pinGet p pt.pins).latch
  | .inp => .z

/-- `f` applied to the state of pin `p`. -/
def pinUpdate (f : PinState → PinState) (m : List (Nat × PinState)) (p : Pin) : List (Nat × PinState) :=
  pinSet p (f (pinGet p m)) m

/-- The effect of one event on the pins (R16, R271, R272). `free` is the state in which a released pin is left (R197). A
pin taken for GPIO use starts undriven (R48; log 9). A group event changes all its pins at once (R74). -/
def Port.apply (free : PinState) (pt : Port) : Event → Port
  | .initLine p =>
    { pt with pins := pinSet p PinState.undriven pt.pins, owned := ownedInsert p pt.owned }
  | .initMask m =>
    { pt with
      pins := (maskPins m).foldl (pinUpdate fun _ => PinState.undriven) pt.pins
      owned := (maskPins m).foldl (fun s p => ownedInsert p s) pt.owned }
  | .setDir p d => { pt with pins := pinUpdate (fun st => { st with dir := d }) pt.pins p }
  | .setDirMask m d =>
    { pt with pins := (maskPins m).foldl (pinUpdate fun st => { st with dir := d }) pt.pins, busDir := d }
  | .put p b => { pt with pins := pinUpdate (fun st => { st with latch := Level.ofBool b }) pt.pins p }
  | .putMask m v =>
    { pt with
      pins := (maskPins m).foldl
        (fun acc p => pinUpdate (fun st => { st with latch := Level.ofBool (v.testBit p) }) acc p) pt.pins }
  | .get _ _ => pt
  | .wait _ => pt
  | .release p => { pt with pins := pinSet p free pt.pins, owned := pt.owned.erase p }

/-! ### Events -/

/-- The phase after one more event (R55). -/
def Phase.advance : Phase → Phase
  | .idle => .idle
  | .running r k => .running r (k + 1)

/-- What the attached controller samples on pin `p`: the level the block drives. What it samples where the block drives
nothing, as on the data lines of a read transfer, R60 does not say: a free value (DESIGN CHOICE, log 40). -/
def sampled (s : State) (p : Pin) : Bool :=
  match s.port.level p with
  | .lo => false
  | .hi => true
  | .z => Config.freeLine s.ctl.draws p

/-- What the attached controller makes of an event: it latches one transfer when the block puts a driven E from 1 to 0
(R60), with RS, RW and the data lines as `sampled`; RW not wired is tied to ground (R32). That no other event counts as a
falling edge of E is DESIGN CHOICE, log 40. -/
def ctlAfter (ev : Event) (s : State) : Controller :=
  match s.h, ev with
  | some hs, .put p false =>
    if p = hs.e ∧ s.port.level hs.e = .hi then
      s.ctl.latch s.params s.clock hs.w (sampled s hs.rs)
        (match hs.rw with | some q => sampled s q | none => false) (gather (hs.d.map (sampled s)))
    else s.ctl
  | _, _ => s.ctl

/-- Emits one event: the trace grows by it, the phase and the least time advance, the pins take its effect (R16, R55, R70,
R72). -/
def emit (ev : Event) (s : State) : State :=
  { s with
    trace := s.trace ++ [ev]
    phase := s.phase.advance
    clock := s.clock + s.params.eventNs ev
    port := s.port.apply (Config.freePin s.drawn) ev
    drawn := match ev with | .release _ => s.drawn + 1 | _ => s.drawn
    ctl := ctlAfter ev s }

/-- Emits events in order. -/
def emitAll (evs : List Event) (s : State) : State := evs.foldl (fun acc ev => emit ev acc) s

/-- One answer of the oracle: any bit (R75). -/
def draw (s : State) : Bool × State :=
  match s.oracle with
  | b :: bs => (b, { s with oracle := bs, drawn := s.drawn + 1 })
  | [] => (Config.freeBit s.drawn, { s with drawn := s.drawn + 1 })

/-- Samples the pins in order, one `Get` each (R145, R149). -/
def sampleLines : List Pin → State → List Bool × State
  | [], s => ([], s)
  | p :: ps, s =>
    let (b, s1) := draw s
    let (bs, s2) := sampleLines ps (emit (.get p b) s1)
    (b :: bs, s2)

/-! ### Outcomes -/

/-- `f` after an outcome that goes on. -/
def andThen (o : Out) (f : State → Out) : Out :=
  match o with
  | .next s => f s
  | .fault r => .fault r
  | .refused r => .refused r

/-- A frame or request on a null handle: no event, no change (R262); its outcome code is recorded (R261). -/
def nullHandle (s : State) : State := { s with outcome := .nullHandle }

/-- A read on a null handle: the same, and what it returns is free (R262, D18). -/
def nullRead (s : State) : State :=
  { s with outcome := .nullHandle, lastRead := Config.freeByte s.drawn, drawn := s.drawn + 1 }

/-- Completed normally (R261). -/
def completed (s : State) : State := { s with outcome := .normal }

/-- Completed with the byte read; a sentinel is recorded as READ_UNSUPPORTED (R261). -/
def completedRead (hs : Handle) (b : Byte) (s : State) : State :=
  { s with lastRead := b, outcome := if hs.wired then .normal else .readUnsupported }

/-! ### The sequencer's pace -/

/-- The item at the head is done: the sequence moves on, and after the last item the phase is Idle (R55). -/
def retire (s : State) : State :=
  { s with todo := s.todo.tail, phase := if s.todo.tail = [] then .idle else s.phase }

end Sys2Proof.Machine
end

