-- ==== Sys2Proof/Machine/Transfer.lean ====
section
/-! DEFINITION. The Bit-Transfer Engine (40_transfer_engine.md). -/

namespace Sys2Proof.Machine

/-- The events of one write transfer of the low W bits of `x` (R140, R142). -/
def writeEvents (hs : Handle) (x : Byte) : List Event :=
  (match hs.rw with
    | some p => [.put p false, .setDirMask hs.mask .out]
    | none => []) ++
  [.putMask hs.mask (spread hs.d (lowBits hs.w x)), .wait .setup, .put hs.e true, .wait .pulse, .put hs.e false,
    .wait .hold] ++
  (match hs.rw with
    | some _ => []
    | none => [.wait .settle])

/-- `writeBits(x, w)` (R140); refused when w ≠ W (R144). -/
def writeBits (x : Byte) (w : Width) (s : State) : Out :=
  match s.h with
  | none => .next (nullHandle s)
  | some hs => if w = hs.w then .next (completed (emitAll (writeEvents hs x) s)) else .refused .width

/-- The transfer of `readBits` on the handle (R145, R148): nothing but the sentinel when RW is not wired (R147). -/
def readLines (hs : Handle) (s : State) : Byte × State :=
  match hs.rw with
  | none => (sentinel hs.w, s)
  | some p =>
    let s1 := emitAll [.setDirMask hs.mask .inp, .put p true, .wait .setup, .put hs.e true, .wait .pulse] s
    let (bs, s2) := sampleLines hs.d s1
    (gather bs, emitAll [.put hs.e false, .wait .hold] s2)

/-- `readBits(w)` (R145); refused when w ≠ W (R144). -/
def readBits (w : Width) (s : State) : Out :=
  match s.h with
  | none => .next (nullRead s)
  | some hs =>
    if w = hs.w then
      let (b, s1) := readLines hs s
      .next (completedRead hs b s1)
    else .refused .width

end Sys2Proof.Machine
end

