-- ==== Sys2Proof/Machine/Channel.lean ====
section
/-! DEFINITION. The Command/Data Channel's framing and the busy-flag poll (41_channel.md). -/

namespace Sys2Proof.Machine

/-- The events of `writeByte(x)`: one transfer, or high nibble then low nibble (R161, R82). -/
def byteEvents (hs : Handle) (x : Byte) : List Event :=
  match hs.w with
  | .eight => writeEvents hs x
  | .four => writeEvents hs (x >>> 4) ++ writeEvents hs (x &&& 0xF)

/-- The events of `writeFrame(rs, x)` (R163). -/
def frameEvents (hs : Handle) (rs : Bool) (x : Byte) : List Event := .put hs.rs rs :: byteEvents hs x

/-- `writeFrame(rs, x)` (R163); a no-op on a null handle (R262). -/
def sendFrame (rs : Bool) (x : Byte) (s : State) : Out :=
  match s.h with
  | none => .next (nullHandle s)
  | some hs => .next (completed (emitAll (frameEvents hs rs x) s))

/-- `readByte()`: one transfer, or two reassembled with the first as the high half (R166). With RW not wired both halves
are the sentinel and the result is 0xFF. -/
def readByte (hs : Handle) (s : State) : Byte × State :=
  match hs.w with
  | .eight => readLines hs s
  | .four =>
    let (hi, s1) := readLines hs s
    let (lo, s2) := readLines hs s1
    ((hi <<< 4) ||| lo, s2)

/-- RS driven, then `readByte()`: a status read (R165) or a data read (R168). -/
def readWith (rs : Bool) (hs : Handle) (s : State) : Byte × State := readByte hs (emit (.put hs.rs rs) s)

/-- A read frame; on a null handle its byte is free (R262). -/
def readFrame (rs : Bool) (s : State) : Out :=
  match s.h with
  | none => .next (nullRead s)
  | some hs =>
    let (b, s1) := readWith rs hs s
    .next (completedRead hs b s1)

/-- A controller that answers BF = 0 has finished its last command (R61, R94; log 25). -/
def ctlReady (s : State) : State := { s with ctl := { s.ctl with readyAt := s.clock } }

/-- One turn of the busy-flag poll (R164): a status read; BF = 0 ends the poll, BF = 1 emits the backoff wait. Nothing is
emitted when RW is not wired. The Bool says whether the poll is over. -/
def pollOnce (hs : Handle) (s : State) : Bool × State :=
  if hs.wired then
    let (b, s1) := readWith false hs s
    if b.getLsbD 7 then (false, emit (.wait .backoff) s1) else (true, ctlReady s1)
  else (true, s)

end Sys2Proof.Machine
end

