-- ==== Sys2Proof/Machine/Commands.lean ====
section
/-! DEFINITION. The command frames, RS = 0 and RW = 0 (30_encoding.md R104 to R111). -/

namespace Sys2Proof.Machine

/-- CLEAR_DISPLAY (R104). -/
def execClearDisplay (s : State) : Out := sendFrame false Config.opClear s

/-- RETURN_HOME (R105). -/
def execReturnHome (x : Bool) (s : State) : Out := sendFrame false (Config.opHome ||| flag x 0x01) s

/-- ENTRY_MODE_SET (R106). -/
def execEntryModeSet (id sh : Bool) (s : State) : Out :=
  sendFrame false (Config.opEntryMode ||| flag id Config.bitID ||| flag sh Config.bitS) s

/-- DISPLAY_CONTROL (R107). -/
def execDisplayControl (d c b : Bool) (s : State) : Out :=
  sendFrame false (Config.opDisplayControl ||| flag d Config.bitD ||| flag c Config.bitC ||| flag b Config.bitB) s

/-- CURSOR_DISPLAY_SHIFT (R108). -/
def execCursorDisplayShift (sc rl : Bool) (x : BitVec 2) (s : State) : Out :=
  sendFrame false (Config.opShift ||| flag sc Config.bitSC ||| flag rl Config.bitRL ||| x.setWidth 8) s

/-- FUNCTION_SET (R109). -/
def execFunctionSet (dl n f : Bool) (x : BitVec 2) (s : State) : Out :=
  sendFrame false
    (Config.opFunctionSet ||| flag dl Config.bitDL ||| flag n Config.bitN ||| flag f Config.bitF ||| x.setWidth 8) s

/-- SET_CGRAM_ADDRESS (R110). -/
def execSetCgramAddress (a : BitVec 6) (s : State) : Out := sendFrame false (Config.opSetCgram ||| a.setWidth 8) s

/-- SET_DDRAM_ADDRESS (R111). -/
def execSetDdramAddress (a : BitVec 7) (s : State) : Out := sendFrame false (Config.opSetDdram ||| a.setWidth 8) s

end Sys2Proof.Machine
end

