-- ==== Sys2Proof/Machine/Data.lean ====
section
/-! DEFINITION. The data and read frames (30_encoding.md R112 to R114). -/

namespace Sys2Proof.Machine

/-- READ_BUSY_FLAG_ADDRESS: one raw status read (R112, R165). The byte slot is the controller's, not the block's, to drive
(log 17). -/
def execReadBusyFlagAddress (_bf : Bool) (_ac : BitVec 7) (s : State) : Out := readFrame false s

/-- WRITE_DATA (R113). -/
def execWriteData (d : Byte) (s : State) : Out := sendFrame true d s

/-- READ_DATA: one data read (R114, R168). The byte slot is the controller's to drive (log 17). -/
def execReadData (_d : Byte) (s : State) : Out := readFrame true s

end Sys2Proof.Machine
end

