-- ==== Sys2Proof/Machine/Handshake.lean ====
section
/-! DEFINITION. The raw nibbles of the 4-bit handshake (30_encoding.md R103, 42_init_sequencer.md R186, R187). -/

namespace Sys2Proof.Machine

/-- INIT_NIBBLE_3: `writeBits(0x3, 4)`, RS as it stands (R186, R187). -/
def execInitNibble3 (s : State) : Out := writeBits 0x03 .four s

/-- INIT_NIBBLE_2: `writeBits(0x2, 4)`, RS as it stands (R186, R187). -/
def execInitNibble2 (s : State) : Out := writeBits 0x02 .four s

end Sys2Proof.Machine
end

