-- ==== Sys2Proof/Machine/Dispatch.lean ====
section
/-! DEFINITION. One arm per instruction. -/

namespace Sys2Proof.Machine

def exec (i : Instr) (s : State) : Host.Outcome State Fault Refusal :=
  match i with
  | .clearDisplay => Sys2Proof.Machine.execClearDisplay s
  | .returnHome x => Sys2Proof.Machine.execReturnHome x s
  | .entryModeSet id sh => Sys2Proof.Machine.execEntryModeSet id sh s
  | .displayControl d c b => Sys2Proof.Machine.execDisplayControl d c b s
  | .cursorDisplayShift sc rl x => Sys2Proof.Machine.execCursorDisplayShift sc rl x s
  | .functionSet dl n f x => Sys2Proof.Machine.execFunctionSet dl n f x s
  | .setCgramAddress a => Sys2Proof.Machine.execSetCgramAddress a s
  | .setDdramAddress a => Sys2Proof.Machine.execSetDdramAddress a s
  | .readBusyFlagAddress bf ac => Sys2Proof.Machine.execReadBusyFlagAddress bf ac s
  | .writeData d => Sys2Proof.Machine.execWriteData d s
  | .readData d => Sys2Proof.Machine.execReadData d s
  | .initNibble3 => Sys2Proof.Machine.execInitNibble3 s
  | .initNibble2 => Sys2Proof.Machine.execInitNibble2 s

end Sys2Proof.Machine
end

