-- ==== Sys2Proof/Machine/Requests.lean ====
section
/-! DEFINITION. The host requests as fixed sequences of items (R55, R120): 40_transfer_engine.md, 41_channel.md,
42_init_sequencer.md, 43_addressing.md, 44_display_ops.md. A `call` inside a rule is its sequence inlined (R270). -/

namespace Sys2Proof.Machine

/-! ### Channel -/

/-- `sendCommand(x)` (R160); the channel polls before the frame. -/
def reqSendCommand (x : Byte) : List Item := [.code (.frame (frameCode false false x))]

/-- `sendData(x)` (R162). -/
def reqSendData (x : Byte) : List Item := [.code (.frame (frameCode true false x))]

/-- `busyWait()` (R164). -/
def reqBusyWait : List Item := [.poll]

/-- `readStatus()`: one raw status read (R165). -/
def seqReadStatus : List Item := [.code (.frame (frameCode false true 0))]

/-- `readCommand()`: the poll, then one more status read (R167). -/
def reqReadCommand : List Item := [.poll] ++ seqReadStatus ++ [.returnRead]

/-- `readData()` (R168); the channel polls before the frame. -/
def reqReadData : List Item := [.code (.frame (frameCode true true 0)), .returnRead]

/-- `writeBits(x, w)` (R140). -/
def reqWriteBits (x : Byte) (w : Width) : List Item := [.rawWrite x w]

/-- `readBits(w)` (R145). -/
def reqReadBits (w : Width) : List Item := [.rawRead w, .returnRead]

/-! ### Whole-display control -/

/-- The extra wait after Clear and Home when RW is not wired (R245). -/
def seqLongWait (hs : Handle) : List Item := if hs.wired then [] else [.wait .long]

/-- `clear()` (R231). -/
def reqClear (hs : Handle) : List Item := reqSendCommand Config.opClear ++ seqLongWait hs

/-- `home()` (R232). -/
def reqHome (hs : Handle) : List Item := reqSendCommand Config.opHome ++ seqLongWait hs

/-- The tail of a displayControl toggle: the new flag byte, then the whole byte sent (R230, R46). -/
def seqControl (g : Byte) : List Item := .setControl g :: reqSendCommand (displayControlByte g)

/-- The tail of a displayMode toggle (R230, R46). -/
def seqMode (g : Byte) : List Item := .setMode g :: reqSendCommand (entryModeByte g)

/-- `displayOn()` (R233). -/
def reqDisplayOn (hs : Handle) : List Item := seqControl (setBits hs.displayControl Config.bitD)

/-- `displayOff()` (R234). -/
def reqDisplayOff (hs : Handle) : List Item := seqControl (clearBits hs.displayControl Config.bitD)

/-- `cursorOn()` (R235). -/
def reqCursorOn (hs : Handle) : List Item := seqControl (setBits hs.displayControl Config.bitC)

/-- `cursorOff()` (R236). -/
def reqCursorOff (hs : Handle) : List Item := seqControl (clearBits hs.displayControl Config.bitC)

/-- `blinkOn()` (R237). -/
def reqBlinkOn (hs : Handle) : List Item := seqControl (setBits hs.displayControl Config.bitB)

/-- `blinkOff()` (R238). -/
def reqBlinkOff (hs : Handle) : List Item := seqControl (clearBits hs.displayControl Config.bitB)

/-- `leftToRight()` (R239). -/
def reqLeftToRight (hs : Handle) : List Item := seqMode (setBits hs.displayMode Config.bitID)

/-- `rightToLeft()` (R240). -/
def reqRightToLeft (hs : Handle) : List Item := seqMode (clearBits hs.displayMode Config.bitID)

/-- `autoscrollOn()` (R241). -/
def reqAutoscrollOn (hs : Handle) : List Item := seqMode (setBits hs.displayMode Config.bitS)

/-- `autoscrollOff()` (R242). -/
def reqAutoscrollOff (hs : Handle) : List Item := seqMode (clearBits hs.displayMode Config.bitS)

/-- `scrollDisplayLeft()`: 0x18 (R243). -/
def reqScrollDisplayLeft : List Item := reqSendCommand (Config.opShift ||| Config.bitSC)

/-- `scrollDisplayRight()`: 0x1C (R244). -/
def reqScrollDisplayRight : List Item := reqSendCommand (Config.opShift ||| Config.bitSC ||| Config.bitRL)

/-! ### Positioning, text, glyphs -/

/-- `setCursor(col, row)` (R210). -/
def reqSetCursor (hs : Handle) (col row : Byte) : List Item :=
  reqSendCommand (Config.opSetDdram ||| ddramAddress hs col row)

/-- `writeChar(c)` (R213). -/
def reqWriteChar (c : Byte) : List Item := reqSendData c

/-- `writeString(s)` (R214). -/
def reqWriteString (str : List Byte) : List Item := str.flatMap reqSendData

/-- `writeCharAt(c, col, row)` (R218). -/
def reqWriteCharAt (hs : Handle) (c col row : Byte) : List Item := reqSetCursor hs col row ++ reqWriteChar c

/-- `writeStringAt(s, col, row)` (R219). -/
def reqWriteStringAt (hs : Handle) (str : List Byte) (col row : Byte) : List Item :=
  reqSetCursor hs col row ++ reqWriteString str

/-- One pattern row: its Set CGRAM Address command, then its byte (R216, D15). -/
def seqGlyphRow (index : Byte) (pattern : Vector Byte 8) (row : Fin 8) : List Item :=
  reqSendCommand (Config.opSetCgram ||| cgramAddress index row) ++ reqSendData pattern[row]

/-- `createChar(index, pattern)` (R215, R216, R217). -/
def reqCreateChar (hs : Handle) (index : Byte) (pattern : Vector Byte 8) : List Item :=
  (if hs.wired then .poll :: seqReadStatus else []) ++ [.latchAddr] ++
    (List.finRange 8).flatMap (seqGlyphRow index pattern) ++ [.restoreAddr]

/-! ### Lifecycle -/

/-- The handle of init (R182). -/
def setupHandle (w : Width) (rs e : Pin) (rw : Option Pin) (d : List Pin) (cols rows : Byte) (font : Font) : Handle where
  w := w
  rs := rs
  e := e
  rw := rw
  d := d
  mask := maskOf d
  numlines := rows
  cols := cols
  rowOffset := rowTable cols
  displayFunction := displayFunctionOf w rows font
  displayControl := 0x00
  displayMode := 0x00

/-- Step (c): three raw Function Set bytes (R185) or the raw nibbles 3, 3, 3, 2 (R186), each with its gap. -/
def seqHandshake (hs : Handle) : List Item :=
  match hs.w with
  | .eight => (List.replicate 3 [.rawWrite (functionSetByte hs) .eight, .wait .initGap]).flatten
  | .four => [0b000011, 0b000011, 0b000011, 0b000010].flatMap fun v => [.code (.nibble v), .wait .initGap]

/-- Steps (a) to (g) and the return of init (R180, R183 to R192). -/
def seqInit (hs : Handle) : List Item :=
  [.wait .power, .configureLines] ++ seqHandshake hs ++ reqSendCommand (functionSetByte hs) ++
    seqControl displayControlInit ++ seqMode displayModeInit ++ reqClear hs ++ reqHome hs ++ [.returnHandle]

/-- `deinit()` (R195, R196). -/
def reqDeinit (hs : Handle) : List Item := reqClear hs ++ reqHome hs ++ reqDisplayOff hs ++ [.releaseLines]

/-- The handle an init request asks for; none for the other requests. -/
def Request.newHandle : Request → Option Handle
  | .init8 rs e rw d cols rows font => some (setupHandle .eight rs e rw d.toList cols rows font)
  | .init4 rs e rw d cols rows font => some (setupHandle .four rs e rw d.toList cols rows font)
  | .writeBits _ _ | .readBits _ | .sendCommand _ | .sendData _ | .busyWait | .readCommand | .readData | .deinit
  | .setCursor _ _ | .writeChar _ | .writeString _ | .writeCharAt _ _ _ | .writeStringAt _ _ _ | .createChar _ _
  | .clear | .home | .displayOn | .displayOff | .cursorOn | .cursorOff | .blinkOn | .blinkOff | .leftToRight
  | .rightToLeft | .autoscrollOn | .autoscrollOff | .scrollDisplayLeft | .scrollDisplayRight => none

/-- The sequence of a request on the handle (R55, R120). -/
def program (hs : Handle) : Request → List Item
  | .writeBits x w => reqWriteBits x w
  | .readBits w => reqReadBits w
  | .sendCommand x => reqSendCommand x
  | .sendData x => reqSendData x
  | .busyWait => reqBusyWait
  | .readCommand => reqReadCommand
  | .readData => reqReadData
  | .init8 _ _ _ _ _ _ _ => seqInit hs
  | .init4 _ _ _ _ _ _ _ => seqInit hs
  | .deinit => reqDeinit hs
  | .setCursor col row => reqSetCursor hs col row
  | .writeChar c => reqWriteChar c
  | .writeString str => reqWriteString str
  | .writeCharAt c col row => reqWriteCharAt hs c col row
  | .writeStringAt str col row => reqWriteStringAt hs str col row
  | .createChar index pattern => reqCreateChar hs index pattern
  | .clear => reqClear hs
  | .home => reqHome hs
  | .displayOn => reqDisplayOn hs
  | .displayOff => reqDisplayOff hs
  | .cursorOn => reqCursorOn hs
  | .cursorOff => reqCursorOff hs
  | .blinkOn => reqBlinkOn hs
  | .blinkOff => reqBlinkOff hs
  | .leftToRight => reqLeftToRight hs
  | .rightToLeft => reqRightToLeft hs
  | .autoscrollOn => reqAutoscrollOn hs
  | .autoscrollOff => reqAutoscrollOff hs
  | .scrollDisplayLeft => reqScrollDisplayLeft
  | .scrollDisplayRight => reqScrollDisplayRight

/-- Whether a request returns a byte (R120). -/
def Request.returnsValue : Request → Bool
  | .readBits _ | .readCommand | .readData => true
  | .init8 _ _ _ _ _ _ _ | .init4 _ _ _ _ _ _ _ | .writeBits _ _ | .sendCommand _ | .sendData _ | .busyWait | .deinit
  | .setCursor _ _ | .writeChar _ | .writeString _ | .writeCharAt _ _ _ | .writeStringAt _ _ _ | .createChar _ _
  | .clear | .home | .displayOn | .displayOff | .cursorOn | .cursorOff | .blinkOn | .blinkOff | .leftToRight
  | .rightToLeft | .autoscrollOn | .autoscrollOff | .scrollDisplayLeft | .scrollDisplayRight => false

/-- The width of a raw transfer request (R144). -/
def Request.width : Request → Option Width
  | .writeBits _ w | .readBits w => some w
  | .init8 _ _ _ _ _ _ _ | .init4 _ _ _ _ _ _ _ | .sendCommand _ | .sendData _ | .busyWait | .readCommand | .readData
  | .deinit | .setCursor _ _ | .writeChar _ | .writeString _ | .writeCharAt _ _ _ | .writeStringAt _ _ _
  | .createChar _ _ | .clear | .home | .displayOn | .displayOff | .cursorOn | .cursorOff | .blinkOn | .blinkOff
  | .leftToRight | .rightToLeft | .autoscrollOn | .autoscrollOff | .scrollDisplayLeft | .scrollDisplayRight => none

/-- The refusals of init, in this order (R180, R194, R13, R8, R99; log 13). -/
def initRefusal (hs : Handle) (s : State) : Option Refusal :=
  if s.h.isSome then some .reinit
  else if hs.numlines = 0 then some .rows0
  else if ¬ (hs.pins.Nodup ∧ ∀ p ∈ hs.pins, p < s.params.npins) then some .pins
  else if ∃ p ∈ hs.pins, p ∈ s.foreign then some .shared
  else none

/-- REFUSE_WIDTH (R144). On a null handle there is no W to differ from. -/
def widthRefusal (r : Request) (s : State) : Option Refusal :=
  match r.width, s.h with
  | some w, some hs => if w = hs.w then none else some .width
  | some _, none => none
  | none, _ => none

/-- The refusal of a request, checked before anything else (R265, R268). -/
def refusalOf (r : Request) (s : State) : Option Refusal :=
  match r.newHandle with
  | some hs => initRefusal hs s
  | none => widthRefusal r s

end Sys2Proof.Machine
end

