-- ==== Sys2Proof/Machine/Sequencer.lean ====
section
/-! DEFINITION. The sequencer: accepting a request (R56, R268), and running one item of its sequence (R55). -/

namespace Sys2Proof.Machine

/-! ### The channel -/

/-- Whether the busy poll comes before a frame: before every frame but the status read itself (R165, D6) and the raw
nibbles of the handshake (R187, R303). -/
def polls : Instr → Bool
  | .readBusyFlagAddress _ _ => false
  | .initNibble3 => false
  | .initNibble2 => false
  | .clearDisplay => true
  | .returnHome _ => true
  | .entryModeSet _ _ => true
  | .displayControl _ _ _ => true
  | .cursorDisplayShift _ _ _ => true
  | .functionSet _ _ _ _ => true
  | .setCgramAddress _ => true
  | .setDdramAddress _ => true
  | .writeData _ => true
  | .readData _ => true

/-- The busy poll, one turn a step, and after it `act` (R94, R160, R162, R168): while the controller answers busy, the
item stays at the head and the next step polls again (R57, R169). -/
def gated (act : State → Out) (s : State) : Out :=
  match s.h with
  | none => andThen (act s) fun t => .next (retire t)
  | some hs =>
    let (free, s1) := pollOnce hs s
    if free then andThen (act s1) fun t => .next (retire t) else .next s1

/-- One instruction through the channel. -/
def runInstr (i : Instr) (s : State) : Out :=
  if polls i then gated (exec i) s else andThen (exec i s) fun t => .next (retire t)

/-- One code of a request's sequence. "Any byte is sent as given" (R160), so 0x00, which is no instruction, is framed as it
is (log 16). -/
def runCode (c : WireCode) (s : State) : Out :=
  match decode c with
  | .ok i => runInstr i s
  | .error .reservedFrame => gated (sendFrame false 0x00) s
  | .error _ => .refused .badWord

/-- A code placed from outside: decoded as a trace decoder decodes it (R115, R123). -/
def runWord (nbits w : Nat) (s : State) : Out :=
  match decodeWord nbits w with
  | .ok i => runInstr i s
  | .error .reservedFrame => .fault .reservedFrame
  | .error _ => .refused .badWord

/-! ### The other items -/

/-- `busyWait()`'s item: one turn of the poll (R164). -/
def runPoll (s : State) : Out := gated (fun t => .next (completed t)) s

/-- The events of init step (b) (R184). -/
def lineEvents (hs : Handle) : List Event :=
  (hs.rs :: hs.e :: hs.rw.toList).flatMap (fun p => [.initLine p, .setDir p .out, .put p false]) ++
    [.initMask hs.mask, .setDirMask hs.mask .out, .putMask hs.mask 0]

/-- An item that acts on the handle; on a null handle it does nothing. -/
def onHandle (f : Handle → State → State) (s : State) : Out :=
  match s.h with
  | none => .next (retire (nullHandle s))
  | some hs => .next (retire (f hs s))

/-- The byte whose low 7 bits createChar restores: read back when RW is wired, else 0 (R215, R217). -/
def addrToRestore (hs : Handle) (s : State) : BitVec 7 := if hs.wired then s.lastRead.extractLsb' 0 7 else 0

/-- deinit's releases in order, then no owned pin, no handle, and a bus direction that is nobody's to say (R195, R197,
R198). -/
def releaseAll (hs : Handle) (s : State) : State :=
  let t := emitAll (hs.pins.map Event.release) s
  { t with h := none, port := { t.port with owned := [], busDir := Config.freeDir t.drawn }, drawn := t.drawn + 1 }

/-- One item of the running sequence (R55). -/
def runItem (it : Item) (s : State) : Out :=
  match it with
  | .word nbits w => runWord nbits w s
  | .code c => runCode c s
  | .poll => runPoll s
  | .rawWrite x w => andThen (writeBits x w s) fun t => .next (retire t)
  | .rawRead w => andThen (readBits w s) fun t => .next (retire t)
  | .wait t => .next (retire (emit (.wait t) s))
  | .configureLines => onHandle (fun hs t => emitAll (lineEvents hs) t) s
  | .setControl v => onHandle (fun hs t => { t with h := some { hs with displayControl := v } }) s
  | .setMode v => onHandle (fun hs t => { t with h := some { hs with displayMode := v } }) s
  | .latchAddr => onHandle (fun hs t => { t with addr := addrToRestore hs t }) s
  | .restoreAddr => runCode (.frame (frameCode false false (Config.opSetDdram ||| s.addr.setWidth 8))) s
  | .returnRead => .next (retire { s with result := .value s.lastRead })
  | .returnHandle => .next (retire { s with result := .handle true })
  | .releaseLines => onHandle releaseAll s

/-! ### Accepting a request -/

/-- The request begins: its sequence stands before the sequencer. An empty one is over at once. The outcome code is 0 from
here until the request's items record another, so 0 stands while it runs, for ever in a hang: DESIGN CHOICE, log 36. -/
def start (r : Request) (prog : List Item) (s : State) : State :=
  { s with
    todo := prog
    phase := if prog = [] then .idle else .running r 0
    result := .nothing
    outcome := .normal }

/-- A request on a null handle (R262): nothing happens; what a read returns is free. -/
def nullRequest (r : Request) (s : State) : State :=
  if r.returnsValue then
    { s with outcome := .nullHandle, result := .value (Config.freeByte s.drawn), drawn := s.drawn + 1 }
  else { s with outcome := .nullHandle, result := .nothing }

/-- init: the allocation is drawn (R181); a failure changes nothing (R263, R293), a success makes the handle (R182) and
begins steps (a) to (g). -/
def beginInit (r : Request) (hs : Handle) (s : State) : State :=
  let (ok, t) := draw s
  if ok then { start r (program hs r) t with h := some hs }
  else { t with result := .handle false, outcome := .allocFail }

/-- A request presented in phase Idle (R56), with the order of checks of R268. -/
def accept (r : Request) (s : State) : Out :=
  match refusalOf r s with
  | some why => .refused why
  | none =>
    match r.newHandle, s.h with
    | some hs, _ => .next (beginInit r hs s)
    | none, none => .next (nullRequest r s)
    | none, some hs => .next (start r (program hs r) s)

end Sys2Proof.Machine
end

