-- ==== Sys2Proof/Machine/Step.lean ====
section
/-! DEFINITION. One step of the machine: one item of the running sequence, or, in phase Idle, one request accepted. -/

namespace Sys2Proof.Machine

/-- One step. A request presented while another runs is refused before anything else (R56, R265, R268), under
the name overlap whichever other refusal it would meet: DESIGN CHOICE, log 13. Else the next item
of the sequence runs; with none left, the request at the port, or else the host's next call, is accepted; with no request
at all the block stays idle (R55; log 2, 11, 12). -/
def step (s : State) : Host.Outcome State Fault Refusal :=
  if s.phase ≠ .idle ∧ s.reqPort.isSome then .refused .overlap
  else
    match s.todo, s.reqPort, s.script with
    | it :: _, _, _ => runItem it s
    | [], some r, _ => accept r { s with reqPort := none }
    | [], none, r :: rs => accept r { s with script := rs }
    | [], none, [] => .next s

/-- `s` with a wire code, numbered as spec/opcode_table.json numbers it, where the sequencer takes its next item. No request
may stand at the port, or the step would refuse it as overlapping (log 11). -/
def State.withFetchWord (s : State) (nbits w : Nat) : State :=
  { s with todo := .word nbits w :: s.todo, reqPort := none }

end Sys2Proof.Machine
end

