-- ==== Sys2Proof/Machine/Views.lean ====
section
/-! DEFINITION. Views of the machine that claims are stated in: runs of steps, the events of a read, the trace decoder of
R126, and the timestamps a trace may carry (R70, R72). Nothing here is part of a step. -/

namespace Sys2Proof.Machine

/-- `n` steps, as long as the machine goes on. -/
def steps : Nat → State → Out
  | 0, s => .next s
  | n + 1, s => andThen (step s) (steps n)

/-! ### The events of a read -/

/-- One read transfer through a wired RW pin `q` to which the oracle answers `bs` (R145, R148, R149). -/
def readEvents (hs : Handle) (q : Pin) (bs : List Bool) : List Event :=
  [.setDirMask hs.mask .inp, .put q true, .wait .setup, .put hs.e true, .wait .pulse] ++
    List.zipWith Event.get hs.d bs ++ [.put hs.e false, .wait .hold]

/-- The events of a read frame: RS driven, then one transfer, or two, high half first (R165, R166, R168). `bs` are the
answers in the order they are sampled. With RW not wired only RS is driven (R167, R168). -/
def readFrameEvents (hs : Handle) (rs : Bool) (bs : List Bool) : List Event :=
  .put hs.rs rs ::
    match hs.rw, hs.w with
    | none, _ => []
    | some q, .eight => readEvents hs q bs
    | some q, .four => readEvents hs q (bs.take 4) ++ readEvents hs q (bs.drop 4)

/-- The byte of eight answers in the order they are sampled (R166): D0 first; in 4-bit mode the high half first. -/
def answeredByte (w : Width) (bs : List Bool) : Byte :=
  match w with
  | .eight => gather bs
  | .four => (gather (bs.take 4) <<< 4) ||| gather (bs.drop 4)

/-- Eight answers that say "not busy" (R164). -/
def notBusy : List Bool := List.replicate 8 false

/-- The events the channel emits for one frame when the controller is not busy: one status read if RW is wired, then the
frame (R160, R162, R192). -/
def sentEvents (hs : Handle) (rs : Bool) (x : Byte) : List Event :=
  (if hs.wired then readFrameEvents hs false notBusy else []) ++ frameEvents hs rs x

/-- The oracle has `n` "not busy" status answers lined up, if the handle polls at all. -/
def Quiet (hs : Handle) (n : Nat) (s : State) : Prop :=
  hs.wired = true → ∃ rest, s.oracle = List.replicate (8 * n) false ++ rest

/-! ### What an instruction leaves alone -/

/-- What no instruction touches: the parameters, the handle with its flag bytes, the rest of the sequence, the host's
requests, the other handles' pins, createChar's address, the last result. -/
structure SameSetup (s t : State) : Prop where
  params : t.params = s.params
  h : t.h = s.h
  todo : t.todo = s.todo
  reqPort : t.reqPort = s.reqPort
  script : t.script = s.script
  foreign : t.foreign = s.foreign
  addr : t.addr = s.addr
  result : t.result = s.result

/-! ### Requests seen from outside -/

/-- The block is idle and request `r` stands at its port. -/
def Presented (r : Request) (s : State) : Prop := s.phase = .idle ∧ s.todo = [] ∧ s.reqPort = some r

/-- From `s`, with a request at the port, the block came to rest in `t`, idle again and the request taken, having emitted
`evs` and nothing else; the host's script, the parameters and the other handles' pins are as before. -/
structure Ended (s t : State) (evs : List Event) : Prop where
  trace : t.trace = s.trace ++ evs
  phase : t.phase = .idle
  todo : t.todo = []
  reqPort : t.reqPort = none
  script : t.script = s.script
  params : t.params = s.params
  foreign : t.foreign = s.foreign

/-- The init request `r`, asking for handle `hs`, is presented and meets every condition that init checks before its
allocation (R8, R13, R99, R194). -/
structure InitPresented (s : State) (r : Request) (hs : Handle) : Prop where
  presented : Presented r s
  asks : r.newHandle = some hs
  noHandle : s.h = none
  rows : hs.numlines ≠ 0
  distinct : hs.pins.Nodup
  inRange : ∀ p ∈ hs.pins, p < s.params.npins
  unshared : ∀ p ∈ hs.pins, p ∉ s.foreign

/-- The oracle lets the allocation succeed and then has `n` "not busy" status answers lined up, if the handle polls at all. -/
def AllocatesQuiet (hs : Handle) (n : Nat) (s : State) : Prop :=
  ∃ rest, s.oracle = true :: rest ∧ (hs.wired = true → ∃ more, rest = List.replicate (8 * n) false ++ more)

/-! ### The trace decoder -/

/-- A transfer seen on the wires (R100), and whether it is one of the init handshake's raw write transfers (R126). -/
structure Transfer where
  rs : Bool
  rw : Bool
  v : Byte
  handshake : Bool
  deriving DecidableEq, Repr

/-- An instruction read off a trace, and whether it was a raw handshake transfer (R126). -/
structure Decoded where
  handshake : Bool
  instr : Instr
  deriving DecidableEq, Repr

/-- What an observer of a handle's wires remembers between events: the levels of RS, RW and the data lines, whether E is
high, the samples of the transfer under way, how many raw handshake writes are still to come, and the transfers so far. -/
structure Watch where
  rs : Bool
  rw : Bool
  lines : Nat
  eHigh : Bool
  gets : List Bool
  toCome : Nat
  seen : List Transfer
  deriving DecidableEq, Repr

/-- How many write transfers after step (b) are the handshake's: 3 or 4 (R126). -/
def handshakeLength : Width → Nat
  | .eight => 3
  | .four => 4

/-- An observer of the wires of `hs` as the port holds them, with `toCome` raw handshake writes still to come. A line that is
not driven is taken as 0, DESIGN CHOICE, log 35: no transfer of the block leaves RS, E or a wired RW undriven. -/
def Watch.ofPort (hs : Handle) (pt : Port) (toCome : Nat) : Watch where
  rs := pt.level hs.rs = .hi
  rw := hs.rw.any fun q => pt.level q = .hi
  lines := maskOf (hs.d.filter fun p => pt.level p = .hi)
  eHigh := pt.level hs.e = .hi
  gets := []
  toCome := toCome
  seen := []

/-- The transfer on the wires: what the block drives, or what it sampled (R81, R100). A handshake transfer is a write. -/
def Watch.transfer (hs : Handle) (o : Watch) : Transfer :=
  ⟨o.rs, o.rw, if o.rw then gather o.gets else gather (hs.d.map o.lines.testBit), !o.rw && o.toCome != 0⟩

/-- A transfer ends: it is added to those seen, and a write is one handshake write less to come. -/
def Watch.finish (hs : Handle) (o : Watch) : Watch :=
  { o with
    eHigh := false
    toCome := if o.rw then o.toCome else o.toCome - 1
    seen := o.seen ++ [o.transfer hs] }

/-- One event seen. A transfer ends when E falls (R60); taking the data lines, which is step (b)'s, starts the count of the
handshake's transfers (R126, R184). -/
def Watch.see (hs : Handle) (o : Watch) : Event → Watch
  | .put p b =>
    if p = hs.e then
      if b then { o with eHigh := true, gets := [] }
      else if o.eHigh then o.finish hs
      else o
    else if p = hs.rs then { o with rs := b }
    else if hs.rw = some p then { o with rw := b }
    else o
  | .putMask m v => if m = hs.mask then { o with lines := v } else o
  | .get _ b => { o with gets := o.gets ++ [b] }
  | .initLine p => if p = hs.e then { o with eHigh := false } else o
  | .initMask m => if m = hs.mask then { o with toCome := handshakeLength hs.w } else o
  | .setDir _ _ => o
  | .setDirMask _ _ => o
  | .wait _ => o
  | .release _ => o

/-- The transfers of a trace, in order. -/
def transfersOf (hs : Handle) (o : Watch) (evs : List Event) : List Transfer := (evs.foldl (Watch.see hs) o).seen

/-- A raw transfer's code: a nibble's 6-bit code (R103), or the frame code of a raw byte (R185). -/
def rawCode (w : Width) (t : Transfer) : WireCode :=
  match w with
  | .eight => .frame (frameCode t.rs t.rw t.v)
  | .four => .nibble ((if t.rs then 0x20 else 0) ||| (if t.rw then 0x10 else 0) ||| (t.v &&& 0x0F).setWidth 6)

/-- Transfers as codes (R101, R102, R126): a handshake transfer stands alone; every other one is a frame when W = 8, and when
W = 4 the high half of a byte whose low half is the next, so that halves are told apart by how many nibble transfers have
followed the handshake. A half without its other half is rejected by name, and so are two halves that
differ in RS or RW, of which R126, going by position alone, says nothing: DESIGN CHOICE, log 39. -/
def traceCodes (w : Width) : List Transfer → Except DecodeError (List (Bool × WireCode))
  | [] => .ok []
  | a :: r =>
    if a.handshake then (traceCodes w r).map ((true, rawCode w a) :: ·)
    else
      match w, r with
      | .eight, r => (traceCodes .eight r).map ((false, .frame (frameCode a.rs a.rw a.v)) :: ·)
      | .four, b :: r =>
        if b.handshake = false ∧ a.rs = b.rs ∧ a.rw = b.rw then
          (traceCodes .four r).map ((false, .frame (frameCode a.rs a.rw ((a.v <<< 4) ||| (b.v &&& 0x0F)))) :: ·)
        else .error .unpairedNibble
      | .four, [] => .error .unpairedNibble

/-- The instruction of one code of a trace. Frame code 0x000 is rejected by name (R123). -/
def decodeTagged (c : Bool × WireCode) : Except DecodeError Decoded := (decode c.2).map (Decoded.mk c.1)

/-- The instructions of a trace on the wires of `hs`, seen by an observer that starts as `o` (R126). From reset no handshake
write is to come until step (b) is seen; a second init in the trace begins the count again. -/
def decodeTrace (hs : Handle) (o : Watch) (evs : List Event) : Except DecodeError (List Decoded) :=
  (traceCodes hs.w (transfersOf hs o evs)).bind fun cs => cs.mapM decodeTagged

/-! ### What the block does between configuring its lines and releasing them -/

/-- One piece of a trace: a write frame, a read frame, a raw transfer, or a wait. -/
inductive Piece where
  | write (rs : Bool) (x : Byte)
  | read (rs : Bool) (bs : List Bool)
  | rawWrite (x : Byte)
  | rawRead (bs : List Bool)
  | wait (t : Delay)
  deriving DecidableEq, Repr

/-- The events of a piece; a raw read has none when RW is not wired (R147). -/
def Piece.events (hs : Handle) : Piece → List Event
  | .write rs x => frameEvents hs rs x
  | .read rs bs => readFrameEvents hs rs bs
  | .rawWrite x => writeEvents hs x
  | .rawRead bs => match hs.rw with
    | some q => readEvents hs q bs
    | none => []
  | .wait t => [.wait t]

/-! ### Time -/

/-- The timestamps `t` that trace `evs` may carry (R70, R72): non-negative, non-decreasing, and after a `Wait` the next
event comes no earlier than the wait's length. Nothing bounds a gap from above. Times are in nanoseconds, over the reals. -/
def Admits (p : Params) (evs : List Event) (t : Nat → ℝ) : Prop :=
  0 ≤ t 0 ∧ ∀ k ev, evs[k]? = some ev → t k + (p.eventNs ev : ℝ) ≤ t (k + 1)

/-- The least duration of a trace (R309). -/
def minDuration (p : Params) (evs : List Event) : Nat := (evs.map p.eventNs).sum

end Sys2Proof.Machine
end

