-- ==== Sys2Proof/Safety.lean ====
section
/-! DEFINITION. What counts as a sound state and a safe trace, in the terms claims use. -/

namespace Sys2Proof.Machine

/-- A handle as a successful init leaves it and every request keeps it (R31 to R45): W data pins, the mask and the row table
derived from its own fields, distinct pins within the host's, at least one row, and flag bytes whose reserved bits are 0. Where the bits
of the flag bytes stand is PRESUMED, log 4. -/
structure Handle.Wf (p : Params) (hs : Handle) : Prop where
  width : hs.d.length = hs.w.bits
  mask : hs.mask = maskOf hs.d
  distinct : hs.pins.Nodup
  inRange : ∀ q ∈ hs.pins, q < p.npins
  rows : hs.numlines ≠ 0
  offsets : hs.rowOffset = rowTable hs.cols
  functionReserved : hs.displayFunction &&& 0xE3 = 0
  functionDL : hasBit hs.displayFunction 0x10 = decide (hs.w = .eight)
  functionN : hasBit hs.displayFunction 0x08 = decide (1 < hs.numlines.toNat)
  controlReserved : hs.displayControl &&& 0xF8 = 0
  modeReserved : hs.displayMode &&& 0xFC = 0

/-- The lines between transfers, once init step (b) has configured them (R49 to R52): E low, the control lines outputs, the
data lines all in the direction busDir says, the bus an input whenever RW is high, and an output for ever when RW is not
wired. -/
structure LinesOk (hs : Handle) (pt : Port) : Prop where
  eLow : pt.level hs.e = .lo
  rsOut : pt.level hs.rs = .lo ∨ pt.level hs.rs = .hi
  rwOut : ∀ q, hs.rw = some q → pt.level q = .lo ∨ pt.level q = .hi
  data : ∀ q ∈ hs.d, (pinGet q pt.pins).dir = pt.busDir
  noContention : ∀ q, hs.rw = some q → pt.level q = .hi → pt.busDir = .inp
  unwired : hs.rw = none → pt.busDir = .out

/-- The block and the controller never both drive the data bus: with RW high no data line is an output (R146, R299). -/
def NoContention (hs : Handle) (pt : Port) : Prop :=
  ∀ q, hs.rw = some q → pt.level q = .hi → ∀ p ∈ hs.d, (pinGet p pt.pins).dir = .inp

/-- The port after a list of events. -/
def portAfter (free : PinState) (pt : Port) (evs : List Event) : Port := evs.foldl (Port.apply free) pt

/-- An item that keeps the reserved bits of the flag bytes 0 (R45). -/
def Item.Ok : Item → Prop
  | .setControl v => v &&& 0xF8 = 0
  | .setMode v => v &&& 0xFC = 0
  | .word _ _ | .code _ | .poll | .rawWrite _ _ | .rawRead _ | .wait _ | .configureLines | .latchAddr | .restoreAddr
  | .returnRead | .returnHandle | .releaseLines => True

/-- What every step keeps. -/
structure Inv (s : State) : Prop where
  legal : s.params.Legal
  pins : PinsWf s.port.pins
  handle : ∀ hs, s.h = some hs → hs.Wf s.params
  /-- with no handle the block owns no pin (R30, R53, R198) -/
  unowned : s.h = none → s.port.owned = []
  /-- once all the handle's pins are owned, the lines are as step (b) and the transfers leave them -/
  lines : ∀ hs, s.h = some hs → (∀ q ∈ hs.pins, q ∈ s.port.owned) → LinesOk hs s.port
  /-- a running request has something left to do (R55) -/
  running : s.phase ≠ .idle → s.todo ≠ []
  items : ∀ it ∈ s.todo, it.Ok
  ddram : s.ctl.ddram.Wf
  cgram : s.ctl.cgram.Wf

end Sys2Proof.Machine
end

