-- ==== Sys2Proof/Certificates/Slice0/Obligations.lean ====
section
/-! DEFINITION. The statements for the provers. -/

open Sys2Proof Sys2Proof.Machine

/-! ## Encoding -/

/-- Decoding what the encoder writes gives the instruction back, at every value of every operand (R101, R103 to R114).
Presumed, or the model's choice: log 4. -/
def Obligations.DecodeOfEncode : Prop := ∀ i : Instr, decode (encode i) = .ok i

/-- Each wire code has one meaning: encoding what was decoded gives the code back, don't-care bits and byte slots included.
Presumed, or the model's choice: log 4. -/
def Obligations.EncodeOfDecode : Prop := ∀ (c : WireCode) (i : Instr), decode c = .ok i → encode i = c

/-- R115: RS and RW first; then the instruction named by the highest set bit of the byte, with its operand bits; the byte 0
is none. The ranges of the byte are those with that highest bit.
Presumed, or the model's choice: log 4. -/
def Obligations.FrameNamedByHighestBit : Prop :=
  ∀ b : Byte,
    decodeFrame (frameCode true true b) = .ok (.readData b) ∧
    decodeFrame (frameCode true false b) = .ok (.writeData b) ∧
    decodeFrame (frameCode false true b) = .ok (.readBusyFlagAddress (b.getLsbD 7) (b.setWidth 7)) ∧
    (128 ≤ b.toNat → decodeFrame (frameCode false false b) = .ok (.setDdramAddress (b.setWidth 7))) ∧
    (64 ≤ b.toNat ∧ b.toNat < 128 → decodeFrame (frameCode false false b) = .ok (.setCgramAddress (b.setWidth 6))) ∧
    (32 ≤ b.toNat ∧ b.toNat < 64 → decodeFrame (frameCode false false b) =
      .ok (.functionSet (b.getLsbD 4) (b.getLsbD 3) (b.getLsbD 2) (b.setWidth 2))) ∧
    (16 ≤ b.toNat ∧ b.toNat < 32 → decodeFrame (frameCode false false b) =
      .ok (.cursorDisplayShift (b.getLsbD 3) (b.getLsbD 2) (b.setWidth 2))) ∧
    (8 ≤ b.toNat ∧ b.toNat < 16 → decodeFrame (frameCode false false b) =
      .ok (.displayControl (b.getLsbD 2) (b.getLsbD 1) (b.getLsbD 0))) ∧
    (4 ≤ b.toNat ∧ b.toNat < 8 → decodeFrame (frameCode false false b) =
      .ok (.entryModeSet (b.getLsbD 1) (b.getLsbD 0))) ∧
    (2 ≤ b.toNat ∧ b.toNat < 4 → decodeFrame (frameCode false false b) = .ok (.returnHome (b.getLsbD 0))) ∧
    (b.toNat = 1 → decodeFrame (frameCode false false b) = .ok .clearDisplay) ∧
    (b.toNat = 0 → decodeFrame (frameCode false false b) = .error .reservedFrame)

/-- A few words written out from R104 to R114 and R103 decode to the instructions they stand for.
Presumed, or the model's choice: log 4 (the opcodes), log 29 (the padding of a code to whole bytes). -/
def Obligations.WordsSpelledOut : Prop :=
  decodeTableWord 16 0b0000000001 = some .clearDisplay ∧
  decodeTableWord 16 0b0000000010 = some (.returnHome false) ∧
  decodeTableWord 16 0b0000000110 = some (.entryModeSet true false) ∧
  decodeTableWord 16 0b0000001100 = some (.displayControl true false false) ∧
  decodeTableWord 16 0b0000011100 = some (.cursorDisplayShift true true 0) ∧
  decodeTableWord 16 0b0000111000 = some (.functionSet true true false 0) ∧
  decodeTableWord 16 0b0001010000 = some (.setCgramAddress 0x10) ∧
  decodeTableWord 16 0b0011000000 = some (.setDdramAddress 0x40) ∧
  decodeTableWord 16 0b0110000101 = some (.readBusyFlagAddress true 0x05) ∧
  decodeTableWord 16 0b1001000001 = some (.writeData 0x41) ∧
  decodeTableWord 16 0b1101000001 = some (.readData 0x41) ∧
  decodeTableWord 8 0b000011 = some .initNibble3 ∧
  decodeTableWord 8 0b000010 = some .initNibble2 ∧
  decodeTableWord 16 0 = none

/-! ## The Bit-Transfer Engine -/

/-- R18, R81: `spread` puts bit i of the value on line `PIN_D[i]` and 0 on every other pin; `gather` puts line i into bit i. -/
def Obligations.BitIOnLineI : Prop :=
  (∀ (d : List Pin) (x : Byte) (p : Pin), d.Nodup → d.length ≤ 8 →
    ((spread d x).testBit p = true ↔ ∃ i, d[i]? = some p ∧ x.getLsbD i = true)) ∧
  (∀ (bs : List Bool) (i : Nat), i < 8 → (gather bs).getLsbD i = bs.getD i false)

/-- R140: the events of `writeBits`, in full, on either discipline; bits of x at w and above are ignored; the flag registers
and the rest of the handle are unchanged. -/
def Obligations.WriteBitsEvents : Prop :=
  ∀ (s : State) (hs : Handle) (x : Byte), s.h = some hs →
    ∃ t, writeBits x hs.w s = .next t ∧ t.h = some hs ∧ t.todo = s.todo ∧ t.lastRead = s.lastRead ∧
      t.trace = s.trace ++
        (match hs.rw with
          | some q =>
            [.put q false, .setDirMask hs.mask .out, .putMask hs.mask (spread hs.d (BitVec.ofNat 8 (x.toNat % 2 ^ hs.w.bits))),
              .wait .setup, .put hs.e true, .wait .pulse, .put hs.e false, .wait .hold]
          | none =>
            [.putMask hs.mask (spread hs.d (BitVec.ofNat 8 (x.toNat % 2 ^ hs.w.bits))),
              .wait .setup, .put hs.e true, .wait .pulse, .put hs.e false, .wait .hold, .wait .settle])

/-- R141, R51: after a `writeBits`, E is 0, RW (when wired) is 0 and busDir is OUT, data line i keeps level x[i], and no pin
outside the handle has changed.
Presumed, or the model's choice: log 10. -/
def Obligations.WriteBitsLevels : Prop :=
  ∀ (s t : State) (hs : Handle) (x : Byte), s.h = some hs → hs.Wf s.params → LinesOk hs s.port →
    writeBits x hs.w s = .next t →
    t.port.level hs.e = .lo ∧ (∀ q, hs.rw = some q → t.port.level q = .lo) ∧ t.port.busDir = .out ∧
    t.port.level hs.rs = s.port.level hs.rs ∧
    (∀ i p, hs.d[i]? = some p → t.port.level p = Level.ofBool (x.getLsbD i)) ∧
    (∀ p, p ∉ hs.pins → t.port.level p = s.port.level p) ∧ t.port.owned = s.port.owned

/-- R145, R146, R75: a wired `readBits` under every answer of the oracle: its events in full, its value the answers gathered
line by line, and the port after it; answers that are lined up are the ones read, and one answer is taken for each line.
Presumed, or the model's choice: log 10 (what a pin's level reads as). -/
def Obligations.ReadBitsWired : Prop :=
  ∀ (s : State) (hs : Handle) (q : Pin), s.h = some hs → hs.rw = some q → hs.Wf s.params → LinesOk hs s.port →
    ∃ t bs, readBits hs.w s = .next t ∧ bs.length = hs.w.bits ∧
      t.trace = s.trace ++ ([.setDirMask hs.mask .inp, .put q true, .wait .setup, .put hs.e true, .wait .pulse] ++
        List.zipWith Event.get hs.d bs ++ [.put hs.e false, .wait .hold]) ∧
      t.lastRead = gather bs ∧ t.outcome = .normal ∧ t.h = some hs ∧
      t.port.level hs.e = .lo ∧ t.port.level q = .hi ∧ t.port.busDir = .inp ∧
      t.port.level hs.rs = s.port.level hs.rs ∧ (∀ p ∈ hs.d, t.port.level p = .z) ∧
      (∀ p, p ∉ hs.pins → t.port.level p = s.port.level p) ∧
      (∀ as rest, s.oracle = as ++ rest → as.length = hs.w.bits → bs = as ∧ t.oracle = rest)

/-- R147, R124: with RW not wired `readBits` emits no event and brings back the all-ones pattern sized to w. -/
def Obligations.ReadBitsSentinel : Prop :=
  ∀ (s : State) (hs : Handle), s.h = some hs → hs.rw = none →
    ∃ t, readBits hs.w s = .next t ∧ t.lastRead = (match hs.w with | .four => 0x0F | .eight => 0xFF) ∧
      t.trace = s.trace ∧ t.port = s.port ∧ t.h = s.h ∧ t.oracle = s.oracle ∧ t.clock = s.clock ∧
      t.outcome = .readUnsupported

/-- R144: a transfer whose w differs from the handle's W is refused. -/
def Obligations.WrongWidthRefused : Prop :=
  ∀ (s : State) (hs : Handle) (w : Width) (x : Byte), s.h = some hs → w ≠ hs.w →
    writeBits x w s = .refused .width ∧ readBits w s = .refused .width ∧
    (Presented (.writeBits x w) s → step s = .refused .width) ∧ (Presented (.readBits w) s → step s = .refused .width)

/-! ## Frames: every instruction completes -/

/-- R161: the transfers of a byte: one of 8 bits, or the high nibble and then the low nibble; R163: RS first. -/
def Obligations.HighNibbleFirst : Prop :=
  ∀ (hs : Handle) (rs : Bool) (x : Byte),
    frameEvents hs rs x = .put hs.rs rs ::
      (match hs.w with
        | .eight => writeEvents hs x
        | .four => writeEvents hs (BitVec.ofNat 8 (x.toNat / 16)) ++ writeEvents hs (BitVec.ofNat 8 (x.toNat % 16)))

/-- R104 to R111, R113 with R163: every write instruction completes on a handle, in every state. Its events are RS and the
transfers of its byte, whose bits are those of the row's encoding; nothing but the trace, the phase, the least time, the
port, the outcome and what the controller makes of it changes.
Presumed, or the model's choice: log 4. -/
def Obligations.WriteFramesComplete : Prop :=
  ∀ (s : State) (hs : Handle), s.h = some hs →
    let sends (i : Instr) (rs : Bool) (x : Byte) : Prop :=
      ∃ t, exec i s = .next t ∧ t.trace = s.trace ++ frameEvents hs rs x ∧ t.outcome = .normal ∧
        SameSetup s t ∧ t.lastRead = s.lastRead ∧ t.oracle = s.oracle ∧ t.drawn = s.drawn ∧
        t.port.owned = s.port.owned
    sends .clearDisplay false 0b00000001 ∧
    (∀ x, sends (.returnHome x) false (0b0000001#7 ++ BitVec.ofBool x)) ∧
    (∀ id sh, sends (.entryModeSet id sh) false (0b000001#6 ++ BitVec.ofBool id ++ BitVec.ofBool sh)) ∧
    (∀ d c b, sends (.displayControl d c b) false
      (0b00001#5 ++ BitVec.ofBool d ++ BitVec.ofBool c ++ BitVec.ofBool b)) ∧
    (∀ sc rl x, sends (.cursorDisplayShift sc rl x) false (0b0001#4 ++ BitVec.ofBool sc ++ BitVec.ofBool rl ++ x)) ∧
    (∀ dl n f x, sends (.functionSet dl n f x) false
      (0b001#3 ++ BitVec.ofBool dl ++ BitVec.ofBool n ++ BitVec.ofBool f ++ x)) ∧
    (∀ a, sends (.setCgramAddress a) false (0b01#2 ++ a)) ∧
    (∀ a, sends (.setDdramAddress a) false (0b1#1 ++ a)) ∧
    (∀ d, sends (.writeData d) true d)

/-- R112, R114 with R165, R166, R168: with RW wired both read instructions complete under every answer of the oracle: their
events, the byte reassembled from the answers, and nothing else but the phase, the least time, the port, the outcome, the
oracle and what the controller makes of it. -/
def Obligations.ReadFramesComplete : Prop :=
  ∀ (s : State) (hs : Handle) (q : Pin), s.h = some hs → hs.rw = some q → hs.d.length = hs.w.bits →
    let reads (i : Instr) (rs : Bool) : Prop :=
      ∃ t bs, exec i s = .next t ∧ bs.length = 8 ∧ t.trace = s.trace ++ readFrameEvents hs rs bs ∧
        t.lastRead = answeredByte hs.w bs ∧ t.outcome = .normal ∧
        SameSetup s t ∧ t.port.owned = s.port.owned ∧
        (∀ as rest, s.oracle = as ++ rest → as.length = 8 → bs = as ∧ t.oracle = rest)
    (∀ bf ac, reads (.readBusyFlagAddress bf ac) false) ∧ (∀ d, reads (.readData d) true)

/-- R166 to R168, R264: with RW not wired a read instruction drives RS, emits nothing more, and brings back 0xFF. -/
def Obligations.ReadFramesUnwired : Prop :=
  ∀ (s : State) (hs : Handle), s.h = some hs → hs.rw = none →
    let reads (i : Instr) (rs : Bool) : Prop :=
      ∃ t, exec i s = .next t ∧ t.trace = s.trace ++ [.put hs.rs rs] ∧ t.lastRead = 0xFF ∧
        t.outcome = .readUnsupported ∧ SameSetup s t ∧ t.oracle = s.oracle ∧ t.drawn = s.drawn ∧
        t.clock = s.clock ∧ t.port.owned = s.port.owned ∧ t.port.busDir = s.port.busDir
    (∀ bf ac, reads (.readBusyFlagAddress bf ac) false) ∧ (∀ d, reads (.readData d) true)

/-- R186, R187, R86: on a 4-bit handle each raw nibble of the handshake completes as ONE write transfer of its nibble, with
no busy poll and RS not touched; on an 8-bit handle it is refused (R144). -/
def Obligations.InitNibblesComplete : Prop :=
  ∀ (s : State) (hs : Handle), s.h = some hs →
    (hs.w = .four →
      (∃ t, exec .initNibble3 s = .next t ∧ t.trace = s.trace ++ writeEvents hs 0x3 ∧ SameSetup s t ∧
        t.lastRead = s.lastRead ∧ t.oracle = s.oracle ∧ t.drawn = s.drawn ∧ t.outcome = .normal ∧
        t.port.owned = s.port.owned) ∧
      (∃ t, exec .initNibble2 s = .next t ∧ t.trace = s.trace ++ writeEvents hs 0x2 ∧ SameSetup s t ∧
        t.lastRead = s.lastRead ∧ t.oracle = s.oracle ∧ t.drawn = s.drawn ∧ t.outcome = .normal ∧
        t.port.owned = s.port.owned)) ∧
    (hs.w = .eight → exec .initNibble3 s = .refused .width ∧ exec .initNibble2 s = .refused .width)

/-- R262: on a null handle every instruction is a silent no-op: no event and no change; what a read brings back is not said. -/
def Obligations.NullHandleNoOp : Prop :=
  ∀ (s : State) (i : Instr), s.h = none →
    ∃ t, exec i s = .next t ∧ t.trace = s.trace ∧ t.port = s.port ∧ t.h = none ∧ t.clock = s.clock ∧ t.ctl = s.ctl ∧
      t.phase = s.phase ∧ SameSetup s t ∧ t.oracle = s.oracle ∧ t.outcome = .nullHandle ∧
      ((∀ bf ac, i ≠ .readBusyFlagAddress bf ac) → (∀ d, i ≠ .readData d) → t.lastRead = s.lastRead)

/-- R50 to R53, R76: the lines after an instruction. E is low; RS is the level the frame set (the raw nibbles leave it);
a write leaves RW low and the bus OUT, a wired read RW high and the bus IN; pins outside the handle, the owned set and the
handle are as before.
Presumed, or the model's choice: log 10. -/
def Obligations.LinesAfterInstr : Prop :=
  ∀ (s t : State) (hs : Handle) (i : Instr), s.h = some hs → hs.Wf s.params → LinesOk hs s.port →
    exec i s = .next t →
    LinesOk hs t.port ∧ t.port.owned = s.port.owned ∧ (∀ p, p ∉ hs.pins → t.port.level p = s.port.level p) ∧
    (match i with
      | .readBusyFlagAddress _ _ => t.port.level hs.rs = .lo ∧
          (∀ q, hs.rw = some q → t.port.level q = .hi ∧ t.port.busDir = .inp)
      | .readData _ => t.port.level hs.rs = .hi ∧ (∀ q, hs.rw = some q → t.port.level q = .hi ∧ t.port.busDir = .inp)
      | .writeData _ => t.port.level hs.rs = .hi ∧ (∀ q, hs.rw = some q → t.port.level q = .lo) ∧ t.port.busDir = .out
      | .initNibble3 | .initNibble2 => t.port.level hs.rs = s.port.level hs.rs ∧
          (∀ q, hs.rw = some q → t.port.level q = .lo) ∧ t.port.busDir = .out
      | .clearDisplay | .returnHome _ | .entryModeSet _ _ | .displayControl _ _ _ | .cursorDisplayShift _ _ _
      | .functionSet _ _ _ _ | .setCgramAddress _ | .setDdramAddress _ => t.port.level hs.rs = .lo ∧
          (∀ q, hs.rw = some q → t.port.level q = .lo) ∧ t.port.busDir = .out)

/-- Wire and decoder agree: the events an instruction emits, observed on the pins from the levels they have at the start and
put together by W as R126 says, decode to that instruction, told apart from the handshake by position; a read decodes to
itself with the byte that came back. Reads need a wired RW pin to be on the wires at all; the handshake's nibbles come with RS
low (R187), one handshake write being still to come.
Presumed, or the model's choice: log 4, log 35. -/
def Obligations.WireRoundTrip : Prop :=
  ∀ (s t : State) (hs : Handle) (i : Instr), s.h = some hs → hs.Wf s.params → exec i s = .next t →
    let seen (toCome : Nat) := decodeTrace hs (Watch.ofPort hs s.port toCome) (t.trace.drop s.trace.length)
    (match i with
      | .readBusyFlagAddress _ _ => hs.wired = true →
          seen 0 = .ok [⟨false, .readBusyFlagAddress (t.lastRead.getLsbD 7) (t.lastRead.setWidth 7)⟩]
      | .readData _ => hs.wired = true → seen 0 = .ok [⟨false, .readData t.lastRead⟩]
      | .initNibble3 => s.port.level hs.rs = .lo → seen 1 = .ok [⟨true, .initNibble3⟩]
      | .initNibble2 => s.port.level hs.rs = .lo → seen 1 = .ok [⟨true, .initNibble2⟩]
      | .clearDisplay | .returnHome _ | .entryModeSet _ _ | .displayControl _ _ _ | .cursorDisplayShift _ _ _
      | .functionSet _ _ _ _ | .setCgramAddress _ | .setDdramAddress _ | .writeData _ => seen 0 = .ok [⟨false, i⟩])

/-! ## Hazards and time -/

/-- R146, R299: at no event of any instruction do the block and the controller both drive the data bus.
Presumed, or the model's choice: log 10 (when a line counts as driven). -/
def Obligations.NoBusContention : Prop :=
  ∀ (s t : State) (hs : Handle) (i : Instr) (free : PinState), s.h = some hs → hs.Wf s.params → LinesOk hs s.port →
    exec i s = .next t → ∀ n, NoContention hs (portAfter free s.port ((t.trace.drop s.trace.length).take n))

/-- R72, R73: waits add up. Under every timestamping a trace admits, the time between two of its events is at least the sum of
the waits between them. -/
def Obligations.WaitsAddUp : Prop :=
  ∀ (p : Params) (evs : List Event) (t : Nat → ℝ), Admits p evs t → ∀ i j, i ≤ j → j ≤ evs.length →
    t i + (minDuration p ((evs.drop i).take (j - i)) : ℝ) ≤ t j

/-- R143, R297, R298: over any sequence of write frames, read frames, raw transfers and waits on a handle, RS, RW, the data
lines and the bus direction are stable for at least T_AS before every rising edge of E, and unchanged for at least
T_PW + T_H after it. -/
def Obligations.SetupAndHold : Prop :=
  ∀ (p : Params) (hs : Handle) (pieces : List Piece) (t : Nat → ℝ), hs.Wf p →
    let evs := pieces.flatMap (Piece.events hs)
    let moves (ev : Event) : Prop :=
      (∃ b, ev = .put hs.rs b) ∨ (∃ q b, hs.rw = some q ∧ ev = .put q b) ∨ (∃ v, ev = .putMask hs.mask v) ∨
        (∃ d, ev = .setDirMask hs.mask d)
    Admits p evs t → ∀ i j ev, evs[i]? = some ev → moves ev → evs[j]? = some (.put hs.e true) →
      (i < j → t i + (p.tAS : ℝ) ≤ t j) ∧ (j < i → t j + ((p.tPW + p.tH : Nat) : ℝ) ≤ t i)

/-- R96, R142: with RW not wired, over any sequence of frames, raw transfers and waits, every rising edge of E comes at least
T_SETTLE + T_AS after the falling edge of E of every transfer before it. -/
def Obligations.SettleSpacing : Prop :=
  ∀ (p : Params) (hs : Handle) (pieces : List Piece) (t : Nat → ℝ), hs.Wf p → hs.rw = none →
    let evs := pieces.flatMap (Piece.events hs)
    Admits p evs t → ∀ i j, i < j → evs[i]? = some (.put hs.e false) → evs[j]? = some (.put hs.e true) →
      t i + ((p.tSettle + p.tAS : Nat) : ℝ) ≤ t j

/-- The state's least time is the sum of the waits emitted (R72, R309), for every instruction. -/
def Obligations.ClockIsLeastTime : Prop :=
  ∀ (s t : State) (i : Instr), exec i s = .next t →
    t.clock = s.clock + minDuration s.params (t.trace.drop s.trace.length)

/-- R309: the least durations of a transfer and of a frame, with each wait at its lower bound. -/
def Obligations.LeastDurations : Prop :=
  ∀ (p : Params) (hs : Handle) (rs : Bool) (x : Byte) (bs : List Bool),
    (hs.rw = none → minDuration p (writeEvents hs x) = p.tAS + p.tPW + p.tH + p.tSettle ∧
      minDuration p (sentEvents hs rs x) = (8 / hs.w.bits) * (p.tAS + p.tPW + p.tH + p.tSettle) ∧
      minDuration p (readFrameEvents hs rs bs) = 0) ∧
    (hs.rw ≠ none → minDuration p (writeEvents hs x) = p.tAS + p.tPW + p.tH ∧
      minDuration p (sentEvents hs rs x) = 2 * (8 / hs.w.bits) * (p.tAS + p.tPW + p.tH) ∧
      minDuration p (readFrameEvents hs rs bs) = (8 / hs.w.bits) * (p.tAS + p.tPW + p.tH))

/-! ## The step and the channel -/

/-- A step runs the decoded instruction: with a table word at the head of the sequence that decodes to `i`, and no request
overlapping, the step is exec of `i` with the item then retired; before the frames that poll (R94), on a wired handle, stands
one turn of the busy poll, and while it answers busy the item stays.
Presumed, or the model's choice: log 2, log 15. -/
def Obligations.StepRunsDecodedInstr : Prop :=
  ∀ (s : State) (nbits w : Nat) (rest : List Item) (i : Instr), s.todo = .word nbits w :: rest →
    decodeTableWord nbits w = some i → ¬ (s.phase ≠ .idle ∧ s.reqPort.isSome = true) →
    ((polls i = false ∨ s.h = none ∨ ∃ hs, s.h = some hs ∧ hs.rw = none) →
      step s = andThen (exec i s) fun t => .next (retire t)) ∧
    (∀ hs, s.h = some hs → hs.rw ≠ none → polls i = true →
      step s = if (pollOnce hs s).1 then andThen (exec i (pollOnce hs s).2) fun t => .next (retire t)
        else .next (pollOnce hs s).2)

/-- A word placed by `withFetchWord` is what the next step runs, whatever the state held.
Presumed, or the model's choice: log 11. -/
def Obligations.PlacedWordIsFetched : Prop :=
  ∀ (s : State) (nbits w : Nat) (i : Instr), decodeTableWord nbits w = some i →
    step (s.withFetchWord nbits w) = runInstr i (s.withFetchWord nbits w)

/-- R164, R94, R160, R162: a write frame waiting before a wired channel. If the status read answers bit 7 = 1, the step emits
that status read and the backoff wait, and the frame still waits; if it answers bit 7 = 0, the step emits the status read
and then the frame, and the frame is done.
The model's choice: log 2 (one turn of the poll is one step). -/
def Obligations.FrameWaitsForBusyFlag : Prop :=
  ∀ (s : State) (hs : Handle) (q : Pin) (rs : Bool) (x : Byte) (items : List Item) (as rest : List Bool),
    s.h = some hs → hs.rw = some q → hs.d.length = hs.w.bits →
    s.todo = .code (.frame (frameCode rs false x)) :: items → ¬ (s.phase ≠ .idle ∧ s.reqPort.isSome = true) →
    s.oracle = as ++ rest → as.length = 8 →
    ∃ t, step s = .next t ∧ t.h = s.h ∧ t.oracle = rest ∧
      ((answeredByte hs.w as).getLsbD 7 = true →
        t.trace = s.trace ++ readFrameEvents hs false as ++ [.wait .backoff] ∧ t.todo = s.todo) ∧
      ((answeredByte hs.w as).getLsbD 7 = false →
        t.trace = s.trace ++ readFrameEvents hs false as ++ frameEvents hs rs x ∧ t.todo = items)

/-- R57, R169, R266: as long as the controller answers busy, the poll goes on: for every n, after n busy answers the same
frame still waits, n status reads and n backoff waits have been emitted, and the step has gone on.
The model's choice: log 2 (one turn of the poll is one step). -/
def Obligations.BusyPollHasNoBound : Prop :=
  ∀ (n : Nat) (s : State) (hs : Handle) (q : Pin) (rs : Bool) (x : Byte) (items : List Item) (rest : List Bool),
    s.h = some hs → hs.rw = some q → hs.d.length = hs.w.bits →
    s.todo = .code (.frame (frameCode rs false x)) :: items → ¬ (s.phase ≠ .idle ∧ s.reqPort.isSome = true) →
    s.oracle = List.replicate (8 * n) true ++ rest →
    ∃ t, steps n s = .next t ∧ t.todo = s.todo ∧ t.h = s.h ∧ t.oracle = rest ∧
      t.trace = s.trace ++
        (List.replicate n (readFrameEvents hs false (List.replicate 8 true) ++ [.wait .backoff])).flatten

/-- R57: the only loop in any sequence is the busy-flag poll: a step that leaves its item where it stands has RW wired, and
has just emitted a status read with bit 7 = 1 and the backoff wait.
The model's choice: log 2 (one turn of the poll is one step). -/
def Obligations.OnlyThePollRepeats : Prop :=
  ∀ (s t : State) (hs : Handle) (it : Item) (rest : List Item), s.h = some hs → hs.d.length = hs.w.bits →
    s.todo = it :: rest → step s = .next t → t.todo = s.todo →
    ∃ q bs, hs.rw = some q ∧ bs.length = 8 ∧ (answeredByte hs.w bs).getLsbD 7 = true ∧ t.h = s.h ∧
      t.trace = s.trace ++ readFrameEvents hs false bs ++ [.wait .backoff]

/-- R123: code 0x000, placed for decoding in its own 10 bits or in two bytes, faults; R160: the byte 0x00 that a host sends is framed as given.
Presumed, or the model's choice: log 16, and log 29 (the code padded to two bytes). -/
def Obligations.ZeroByte : Prop :=
  (∀ (s : State) (nbits : Nat) (rest : List Item), nbits = 10 ∨ nbits = 16 → s.todo = .word nbits 0 :: rest → ¬ (s.phase ≠ .idle ∧ s.reqPort.isSome = true) →
    step s = .fault .reservedFrame) ∧
  (∀ (s : State) (hs : Handle), s.h = some hs → Presented (.sendCommand 0) s → Quiet hs 1 s →
    hs.d.length = hs.w.bits → ∃ n t, steps n s = .next t ∧ Ended s t (sentEvents hs false 0))

/-- R56, R265 code 13: a request presented while another runs is refused, whatever it is.
The model's choice, log 13: the overlap is the name recorded also when the request meets another refusal of R265. -/
def Obligations.OverlapRefused : Prop :=
  ∀ (s : State) (r a : Request) (k : Nat), s.phase = .running a k → s.reqPort = some r → step s = .refused .overlap

/-! ## Requests -/

/-- R262, R121, V80, V81: on a null handle every request but init is taken with no event and no change; what a read returns is
not said. -/
def Obligations.NullHandleRequests : Prop :=
  ∀ (s : State) (r : Request), s.h = none → Presented r s → r.newHandle = none →
    ∃ t, step s = .next t ∧ Ended s t [] ∧ t.h = none ∧ t.port = s.port ∧ t.clock = s.clock ∧ t.ctl = s.ctl ∧
      t.oracle = s.oracle ∧ t.addr = s.addr ∧ t.lastRead = s.lastRead ∧ t.outcome = .nullHandle ∧
      (r.returnsValue = false → t.result = .nothing)

/-- R160, R162, R210 to R213, R243, R244: the requests that send one frame, the busy poll first when RW is wired: which
register and which byte, for every operand; the handle, its flag bytes among it, is unchanged (R220).
Presumed, or the model's choice: log 4. -/
def Obligations.SingleFrameRequests : Prop :=
  ∀ (s : State) (hs : Handle), s.h = some hs → hs.d.length = hs.w.bits → Quiet hs 1 s →
    let sends (r : Request) (rs : Bool) (x : Byte) : Prop :=
      Presented r s → ∃ n t, steps n s = .next t ∧ Ended s t (sentEvents hs rs x) ∧ t.h = some hs ∧
        t.result = .nothing ∧ t.outcome = .normal
    (∀ x, sends (.sendCommand x) false x) ∧
    (∀ x, sends (.sendData x) true x) ∧
    (∀ c, sends (.writeChar c) true c) ∧
    (∀ col row : Byte, sends (.setCursor col row) false
      (0x80 ||| (hs.rowOffset.toList.getD (min (min row.toNat (hs.numlines.toNat - 1)) 3) 0 + col))) ∧
    sends .scrollDisplayLeft false 0x18 ∧
    sends .scrollDisplayRight false 0x1C

/-- R230, R233 to R242, R46: the ten toggles. The flag byte gets exactly its bit set or cleared, and the whole byte, ORed with
its opcode, is sent, whether or not the bit changed; the rest of the handle is unchanged.
Presumed, or the model's choice: log 4. -/
def Obligations.TogglesSendWholeByte : Prop :=
  ∀ (s : State) (hs : Handle), s.h = some hs → hs.d.length = hs.w.bits → Quiet hs 1 s →
    let control (r : Request) (g : Byte) : Prop :=
      Presented r s → ∃ n t, steps n s = .next t ∧ Ended s t (sentEvents hs false (0x08 ||| g)) ∧
        t.h = some { hs with displayControl := g } ∧ t.result = .nothing ∧ t.outcome = .normal
    let mode (r : Request) (g : Byte) : Prop :=
      Presented r s → ∃ n t, steps n s = .next t ∧ Ended s t (sentEvents hs false (0x04 ||| g)) ∧
        t.h = some { hs with displayMode := g } ∧ t.result = .nothing ∧ t.outcome = .normal
    control .displayOn (hs.displayControl ||| 0x04) ∧ control .displayOff (hs.displayControl &&& ~~~0x04) ∧
    control .cursorOn (hs.displayControl ||| 0x02) ∧ control .cursorOff (hs.displayControl &&& ~~~0x02) ∧
    control .blinkOn (hs.displayControl ||| 0x01) ∧ control .blinkOff (hs.displayControl &&& ~~~0x01) ∧
    mode .leftToRight (hs.displayMode ||| 0x02) ∧ mode .rightToLeft (hs.displayMode &&& ~~~0x02) ∧
    mode .autoscrollOn (hs.displayMode ||| 0x01) ∧ mode .autoscrollOff (hs.displayMode &&& ~~~0x01)

/-- R231, R232, R245: clear and home send 0x01 and 0x02, and wait T_LONG after it exactly when RW is not wired; no flag
register changes (R305: displayMode keeps its value).
Presumed, or the model's choice: log 4. -/
def Obligations.ClearAndHome : Prop :=
  ∀ (s : State) (hs : Handle), s.h = some hs → hs.d.length = hs.w.bits → Quiet hs 1 s →
    let sends (r : Request) (x : Byte) : Prop :=
      Presented r s → ∃ n t, steps n s = .next t ∧
        Ended s t (sentEvents hs false x ++ (if hs.rw = none then [.wait .long] else [])) ∧ t.h = some hs ∧
        t.result = .nothing ∧ t.outcome = .normal
    sends .clear 0x01 ∧ sends .home 0x02

/-- R214, R218, R219: text. writeString sends each byte in order as data, nothing for the empty string; the "at" forms send
setCursor's command first and no other command between. -/
def Obligations.TextRequests : Prop :=
  ∀ (s : State) (hs : Handle) (str : List Byte) (c col row : Byte), s.h = some hs → hs.d.length = hs.w.bits →
    Quiet hs (str.length + 2) s →
    let cursor : Byte := 0x80 ||| (hs.rowOffset.toList.getD (min (min row.toNat (hs.numlines.toNat - 1)) 3) 0 + col)
    let emits (r : Request) (evs : List Event) : Prop :=
      Presented r s → ∃ n t, steps n s = .next t ∧ Ended s t evs ∧ t.h = some hs ∧ t.result = .nothing ∧
        t.outcome = .normal
    emits (.writeString str) (str.flatMap (sentEvents hs true)) ∧
    emits (.writeCharAt c col row) (sentEvents hs false cursor ++ sentEvents hs true c) ∧
    emits (.writeStringAt str col row) (sentEvents hs false cursor ++ str.flatMap (sentEvents hs true))

/-- R215 to R217, C1, C2: createChar. When RW is wired the address is read back first, low 7 bits of the status byte; then for
each row its own Set CGRAM Address command 0x40 | (8·(index mod 8) + row) and the pattern byte; then Set DDRAM Address of
the address read, or of 0 when RW is not wired. The handle is unchanged.
Presumed, or the model's choice: log 4. -/
def Obligations.CreateCharFrames : Prop :=
  ∀ (s : State) (hs : Handle) (index : Byte) (pattern : Vector Byte 8) (as rest : List Bool), s.h = some hs →
    hs.d.length = hs.w.bits → Presented (.createChar index pattern) s → as.length = 8 →
    (hs.rw ≠ none → s.oracle = List.replicate 8 false ++ as ++ (List.replicate (8 * 17) false ++ rest)) →
    ∃ n t, steps n s = .next t ∧ t.h = some hs ∧ t.result = .nothing ∧
      Ended s t
        ((if hs.rw = none then [] else readFrameEvents hs false (List.replicate 8 false) ++ readFrameEvents hs false as) ++
          ((List.finRange 8).flatMap fun (row : Fin 8) =>
            sentEvents hs false (0x40 ||| BitVec.ofNat 8 (8 * (index.toNat % 8) + row.val)) ++
              sentEvents hs true pattern[row]) ++
          sentEvents hs false (0x80 ||| (if hs.rw = none then 0 else answeredByte hs.w as &&& 0x7F)))

/-- R164, R167, R168: busyWait is one status read when the controller is not busy, and nothing when RW is not wired;
readCommand is the poll and one more status read, readData the poll and one data read, and each returns the byte read; with
RW not wired each only drives RS and returns 0xFF. -/
def Obligations.ReadRequests : Prop :=
  ∀ (s : State) (hs : Handle) (as rest : List Bool), s.h = some hs → hs.d.length = hs.w.bits → as.length = 8 →
    (hs.rw ≠ none → s.oracle = List.replicate 8 false ++ as ++ rest) →
    let poll : List Event := if hs.rw = none then [] else readFrameEvents hs false (List.replicate 8 false)
    let answer : Byte := if hs.rw = none then 0xFF else answeredByte hs.w as
    let how : OutcomeCode := if hs.rw = none then .readUnsupported else .normal
    (Presented .busyWait s → ∃ n t, steps n s = .next t ∧ Ended s t poll ∧ t.h = some hs ∧ t.result = .nothing ∧
      t.outcome = .normal) ∧
    (Presented .readCommand s → ∃ n t, steps n s = .next t ∧ Ended s t (poll ++ readFrameEvents hs false as) ∧
      t.h = some hs ∧ t.result = .value answer ∧ t.outcome = how) ∧
    (Presented .readData s → ∃ n t, steps n s = .next t ∧ Ended s t (poll ++ readFrameEvents hs true as) ∧
      t.h = some hs ∧ t.result = .value answer ∧ t.outcome = how)

/-- R140, R145, R147: the raw transfer requests of the handle's own width. -/
def Obligations.RawTransferRequests : Prop :=
  ∀ (s : State) (hs : Handle) (x : Byte) (as rest : List Bool), s.h = some hs → as.length = hs.d.length →
    (hs.rw ≠ none → s.oracle = as ++ rest) →
    (Presented (.writeBits x hs.w) s → ∃ n t, steps n s = .next t ∧ Ended s t (writeEvents hs x) ∧ t.h = some hs ∧
      t.result = .nothing ∧ t.outcome = .normal) ∧
    (Presented (.readBits hs.w) s → ∃ n t, steps n s = .next t ∧ t.h = some hs ∧
      (hs.rw = none → Ended s t [] ∧ t.outcome = .readUnsupported ∧
        t.result = .value (match hs.w with | .four => 0x0F | .eight => 0xFF)) ∧
      (∀ q, hs.rw = some q → Ended s t (readEvents hs q as) ∧ t.outcome = .normal ∧ t.result = .value (gather as)))

/-! ## Lifecycle -/

/-- R31, R32, R180, R182, R36, R37, R39, R40: the handle that each init request makes, field by field: W is the request's, each
operand stands in its field, and the flag bytes but displayFunction start at 0.
Presumed, or the model's choice: log 4. -/
def Obligations.HandleOfInit : Prop :=
  ∀ (rs e : Pin) (rw : Option Pin) (d8 : Vector Pin 8) (d4 : Vector Pin 4) (cols rows : Byte) (font : Font),
    let makes (r : Request) (w : Width) (d : List Pin) : Prop :=
      ∃ hs, r.newHandle = some hs ∧ hs.w = w ∧ hs.rs = rs ∧ hs.e = e ∧ hs.rw = rw ∧ hs.d = d ∧ hs.numlines = rows ∧
        hs.cols = cols ∧ (∀ p, hs.mask.testBit p = true ↔ p ∈ d) ∧
        hs.rowOffset.toList.map BitVec.toNat = [0x00, 0x40, cols.toNat, (0x40 + cols.toNat) % 256] ∧
        hs.displayFunction = BitVec.ofNat 8 ((if w = .eight then 0x10 else 0) + (if 1 < rows.toNat then 0x08 else 0) +
          (if font = .f5x10 then 0x04 else 0)) ∧
        hs.displayControl = 0 ∧ hs.displayMode = 0
    makes (.init8 rs e rw d8 cols rows font) .eight d8.toList ∧ makes (.init4 rs e rw d4 cols rows font) .four d4.toList

/-- R265, R268, R194, R13, R8, R99: what init refuses, checked before the allocation; each refusal under the condition the
spec gives it, with the ones before it not met.
Presumed, or the model's choice: log 13. -/
def Obligations.InitRefusals : Prop :=
  ∀ (s : State) (r : Request) (hs : Handle), Presented r s → r.newHandle = some hs →
    (s.h ≠ none → step s = .refused .reinit) ∧
    (s.h = none → hs.numlines = 0 → step s = .refused .rows0) ∧
    (s.h = none → hs.numlines ≠ 0 → ¬ (hs.pins.Nodup ∧ ∀ p ∈ hs.pins, p < s.params.npins) → step s = .refused .pins) ∧
    (s.h = none → hs.numlines ≠ 0 → hs.pins.Nodup → (∀ p ∈ hs.pins, p < s.params.npins) →
      (∃ p ∈ hs.pins, p ∈ s.foreign) → step s = .refused .shared)

/-- R181, R263, R293: when the allocation fails, init returns NONE with no event, and no handle, pin or time has changed. -/
def Obligations.AllocationFailure : Prop :=
  ∀ (s : State) (r : Request) (hs : Handle) (rest : List Bool), InitPresented s r hs → s.oracle = false :: rest →
    ∃ t, step s = .next t ∧ Ended s t [] ∧ t.h = none ∧ t.port = s.port ∧ t.clock = s.clock ∧ t.ctl = s.ctl ∧
      t.addr = s.addr ∧ t.lastRead = s.lastRead ∧ t.result = .handle false ∧ t.outcome = .allocFail

/-- R180 to R193, R296: a successful init, on either width and either discipline, with every option of pins, columns, rows and
font: the whole event sequence in its order, and the handle and result at its end.
Presumed, or the model's choice: log 4. -/
def Obligations.InitSequence : Prop :=
  ∀ (s : State) (r : Request) (hs : Handle), InitPresented s r hs → AllocatesQuiet hs 5 s →
    let long : List Event := if hs.rw = none then [.wait .long] else []
    let fs : Byte := 0x20 ||| hs.displayFunction
    let line (p : Pin) : List Event := [.initLine p, .setDir p .out, .put p false]
    let raw (v : Byte) : List Event := writeEvents hs v ++ [.wait .initGap]
    ∃ n t, steps n s = .next t ∧
      Ended s t
        ([.wait .power] ++
          (line hs.rs ++ line hs.e ++ (match hs.rw with | some q => line q | none => []) ++
            [.initMask hs.mask, .setDirMask hs.mask .out, .putMask hs.mask 0]) ++
          (match hs.w with
            | .eight => raw fs ++ raw fs ++ raw fs
            | .four => raw 0x3 ++ raw 0x3 ++ raw 0x3 ++ raw 0x2) ++
          sentEvents hs false fs ++ sentEvents hs false 0x0C ++ sentEvents hs false 0x06 ++
          (sentEvents hs false 0x01 ++ long) ++ (sentEvents hs false 0x02 ++ long)) ∧
      t.h = some { hs with displayControl := 0x04, displayMode := 0x02 } ∧ t.result = .handle true ∧
      t.outcome = .normal

/-- R126, R192: a trace decoder that watches a whole init, whatever it saw before, finds step (b) by itself and tells the
handshake's three or four raw writes from the frames after it: the raw Function Set bytes or nibbles, then function set,
display control, entry mode, clear and home, each after its status read when RW is wired.
Presumed, or the model's choice: log 4, log 35. -/
def Obligations.InitTraceDecodes : Prop :=
  ∀ (s : State) (r : Request) (hs : Handle) (toCome : Nat), InitPresented s r hs → AllocatesQuiet hs 5 s →
    let fs : Instr :=
      .functionSet (decide (hs.w = .eight)) (decide (1 < hs.numlines.toNat)) (hs.displayFunction.getLsbD 2) 0
    let raw : List Instr := match hs.w with
      | .eight => [fs, fs, fs]
      | .four => [.initNibble3, .initNibble3, .initNibble3, .initNibble2]
    let polled (i : Instr) : List Instr := if hs.rw = none then [i] else [.readBusyFlagAddress false 0, i]
    let framed : List Instr :=
      [fs, .displayControl true false false, .entryModeSet true false, .clearDisplay, .returnHome false]
    ∃ n t, steps n s = .next t ∧ t.phase = .idle ∧ t.todo = [] ∧ t.result = .handle true ∧
      decodeTrace hs (Watch.ofPort hs s.port toCome) (t.trace.drop s.trace.length) =
        .ok (raw.map (Decoded.mk true) ++ (framed.flatMap polled).map (Decoded.mk false))

/-- R193, R291: the port after a successful init, whatever it was before: every handle pin owned, E, RS and RW low, the bus
OUT, and the data lines at the last transfer's levels: D1 high and the others low.
Presumed, or the model's choice: log 4, log 10. -/
def Obligations.PortAfterInit : Prop :=
  ∀ (s : State) (r : Request) (hs : Handle), InitPresented s r hs → AllocatesQuiet hs 5 s →
    ∃ n t, steps n s = .next t ∧ t.phase = .idle ∧ t.todo = [] ∧ t.result = .handle true ∧
      (∀ p ∈ hs.pins, p ∈ t.port.owned) ∧ t.port.busDir = .out ∧ t.port.level hs.e = .lo ∧ t.port.level hs.rs = .lo ∧
      (∀ q, hs.rw = some q → t.port.level q = .lo) ∧
      (∀ i p, hs.d[i]? = some p → t.port.level p = if i = 1 then .hi else .lo) ∧
      (∀ p, p ∉ hs.pins → t.port.level p = s.port.level p)

/-- R195 to R198, R292: deinit sends clear, home and display-off, releases RS, E, RW and the data lines in that order, and
leaves no handle and no owned pin, whatever the display state was.
Presumed, or the model's choice: log 4. -/
def Obligations.DeinitSequence : Prop :=
  ∀ (s : State) (hs : Handle), s.h = some hs → hs.d.length = hs.w.bits → Quiet hs 3 s → Presented .deinit s →
    let long : List Event := if hs.rw = none then [.wait .long] else []
    ∃ n t, steps n s = .next t ∧
      Ended s t
        (sentEvents hs false 0x01 ++ long ++ (sentEvents hs false 0x02 ++ long) ++
          sentEvents hs false (0x08 ||| (hs.displayControl &&& ~~~0x04)) ++
          ([hs.rs, hs.e] ++ hs.rw.toList ++ hs.d).map Event.release) ∧
      t.h = none ∧ t.port.owned = [] ∧ t.result = .nothing ∧ t.outcome = .normal

/-- R290: the reset state: no handle, every pin undriven, no pin owned, Idle. -/
def Obligations.ResetState : Prop :=
  State.reset.h = none ∧ (∀ p, State.reset.port.level p = .z) ∧ State.reset.port.owned = [] ∧
    State.reset.phase = .idle ∧ State.reset.todo = [] ∧ State.reset.trace = []

/-! ## Invariants and whole-machine rules -/

/-- The invariant holds at reset.
Presumed, or the model's choice: log 3. -/
def Obligations.InvAtReset : Prop := Inv State.reset

/-- Every step keeps the invariant: the handle's derived fields and reserved bits, the canonical forms, the lines between
transfers (R30, R31 to R45, R49 to R53, R55).
Presumed, or the model's choice: log 4 (the bits of the flag bytes), log 9, log 10, log 19. -/
def Obligations.StepKeepsInv : Prop := ∀ s t : State, Inv s → step s = .next t → Inv t

/-- R31 to R37, R39: no step changes a handle's configuration or its displayFunction: as long as there is a handle it is the
same but for displayControl and displayMode. -/
def Obligations.ConfigurationIsFixed : Prop :=
  ∀ (s t : State) (hs ht : Handle), s.h = some hs → step s = .next t → t.h = some ht →
    ht = { hs with displayControl := ht.displayControl, displayMode := ht.displayMode }

/-- R30, R53, R198: only a request for init makes a handle, and only deinit's releases end one. -/
def Obligations.HandleLifetime : Prop :=
  ∀ s t : State, step s = .next t →
    (s.h = none → t.h ≠ none → s.todo = [] ∧ ∃ r, (s.reqPort = some r ∨ s.script.head? = some r) ∧ r.newHandle ≠ none) ∧
    (s.h ≠ none → t.h = none → s.todo.head? = some .releaseLines)

/-- R55, R71, R72: the trace only grows, at its end; a running request's step index grows by the events emitted; the least
time never runs back; parameters and the other handles' pins never change. -/
def Obligations.TraceOnlyGrows : Prop :=
  ∀ s t : State, step s = .next t →
    ∃ evs, t.trace = s.trace ++ evs ∧ s.clock ≤ t.clock ∧ t.params = s.params ∧ t.foreign = s.foreign ∧
      (∀ r k, s.phase = .running r k → s.todo ≠ [] → t.phase = .idle ∨ t.phase = .running r (k + evs.length))

/-- R53, R76, R99: the block touches only its own pins: no step changes the direction or the level of a pin outside the
handle, and with no handle none at all. -/
def Obligations.OnlyOwnPins : Prop :=
  ∀ s t : State, step s = .next t →
    (s.h = none → t.port = s.port) ∧
    (∀ hs, s.h = some hs → hs.Wf s.params → ∀ p, p ∉ hs.pins → pinGet p t.port.pins = pinGet p s.port.pins)

/-- R75, R7, 93_implementation_defined.md section 3: nothing the attached controller holds ever reaches the block: two states
that differ only in the controller step alike, and differ only in it afterwards. -/
def Obligations.ControllerNeverReachesBlock : Prop :=
  ∀ (s : State) (c : Controller),
    match step s with
    | .next t => ∃ c', step { s with ctl := c } = .next { t with ctl := c' }
    | .fault f => step { s with ctl := c } = .fault f
    | .refused r => step { s with ctl := c } = .refused r

/-- R58: no request is given up: while one runs, a step that goes on leaves it running unless its last item has just been
done. -/
def Obligations.NoCancel : Prop :=
  ∀ (s t : State) (r : Request) (k : Nat) (it : Item) (rest : List Item), s.phase = .running r k →
    s.todo = it :: rest → step s = .next t →
    (t.todo = s.todo ∧ ∃ k', t.phase = .running r k') ∨
      (t.todo = rest ∧ (rest ≠ [] → ∃ k', t.phase = .running r k') ∧ (rest = [] → t.phase = .idle))

/-! ## With the attached controller (an assumed observer, log 19) -/

/-- The 4-bit handshake resolves every power-on state of the controller, whatever mode and nibble phase it is in (R59, R186,
G10): after the four nibbles with their gaps it is in 4-bit mode at a byte boundary. Premises on the deployment: it has
nothing under way at the start (R295), and no execution time exceeds the gap. Rests on the presumed controller, log 19 with
logs 37, 38 and 41, and on the presumed Function Set opcode and bit DL, log 4. -/
def Obligations.HandshakeResolvesController : Prop :=
  ∀ (s : State) (hs : Handle), s.h = some hs → hs.Wf s.params → LinesOk hs s.port → hs.w = .four →
    s.port.level hs.rs = .lo → s.ctl.readyAt ≤ s.clock →
    s.params.tExec ≤ s.params.tInitGap → s.params.tExecLong ≤ s.params.tInitGap →
    let t := emitAll ([0x3, 0x3, 0x3, 0x2].flatMap fun v => writeEvents hs v ++ [.wait .initGap]) s
    t.ctl.mode = .four ∧ t.ctl.half = none

/-- What Clear Display does to a controller in step with the block and ready (R104, G14; R305): every DDRAM byte is a space,
the address counter is DDRAM 0, the entry direction is increment; the block's displayMode keeps its value. Rests on the
presumed controller, log 19, and on the presumed opcode table, log 4. That the counter points into DDRAM is presumed,
log 34. -/
def Obligations.ClearOnController : Prop :=
  ∀ (s : State) (hs : Handle), s.h = some hs → hs.Wf s.params → LinesOk hs s.port →
    s.ctl.mode = hs.w → s.ctl.half = none → s.ctl.readyAt ≤ s.clock →
    ∃ t, exec .clearDisplay s = .next t ∧ t.h = some hs ∧ (∀ a, t.ctl.ddram.read a = 0x20) ∧ t.ctl.ac = 0 ∧
      t.ctl.space = .ddram ∧ t.ctl.entryInc = true ∧ t.ctl.cgram = s.ctl.cgram ∧ t.ctl.mode = hs.w ∧ t.ctl.half = none

/-- R245, R62: on a handle whose RW is not wired, with a controller in step with the block and ready, a command that follows
Clear Display or Return Home and its wait is taken when T_SETTLE + T_LONG cover the controller's execution time: the Set
DDRAM Address sets the counter, over DDRAM all spaces after clear and kept after home. Rests on the presumed controller,
log 19, on how its execution time is counted, log 37, and on the presumed opcodes 0x01 and 0x02, log 4. -/
def Obligations.CommandAfterClearTaken : Prop :=
  ∀ (s : State) (hs : Handle) (a : BitVec 7), s.h = some hs → hs.Wf s.params → LinesOk hs s.port → hs.rw = none →
    s.ctl.mode = hs.w → s.ctl.half = none → s.ctl.readyAt ≤ s.clock →
    s.params.tExecLong ≤ s.params.tSettle + s.params.tLong →
    let after (x : Byte) : State :=
      emitAll (frameEvents hs false x ++ [.wait .long] ++ frameEvents hs false (0x80 ||| a.setWidth 8)) s
    let taken (t : State) : Prop :=
      t.ctl.ac = a ∧ t.ctl.space = .ddram ∧ t.ctl.cgram = s.ctl.cgram ∧ t.ctl.mode = hs.w ∧ t.ctl.half = none
    (taken (after 0x01) ∧ ∀ c, (after 0x01).ctl.ddram.read c = 0x20) ∧
      (taken (after 0x02) ∧ (after 0x02).ctl.ddram = s.ctl.ddram ∧ (after 0x02).ctl.shift = 0)

/-- What the two Set Address commands and Write Data do to a controller in step with the block and ready (R110, R111, R113,
R78, R79, G14, G20): the address counter is the address and points into its memory, both memories kept; then the byte
stands at the counter in that memory, taken mod 64 in CGRAM, no other byte of either memory has changed, and away from
the listed ends of its memory, which are presumed, log 22, the counter has moved by one in the entry direction. Rests on
the presumed controller, log 19, and on the presumed opcode 0x40, log 4. -/
def Obligations.WriteDataOnController : Prop :=
  ∀ (s : State) (hs : Handle) (a : BitVec 7) (g : BitVec 6) (d : Byte), s.h = some hs → hs.Wf s.params →
    LinesOk hs s.port → s.ctl.mode = hs.w → s.ctl.half = none → s.ctl.readyAt ≤ s.clock →
    let moved (t : State) : Prop := s.ctl.edgeAt s.ctl.entryInc ∉ s.params.acEdges →
      t.ctl.ac = if s.ctl.entryInc then s.ctl.ac + 1 else s.ctl.ac - 1
    (∃ t, exec (.setDdramAddress a) s = .next t ∧ t.ctl.ac = a ∧ t.ctl.space = .ddram ∧
      t.ctl.ddram = s.ctl.ddram ∧ t.ctl.cgram = s.ctl.cgram) ∧
    (∃ t, exec (.setCgramAddress g) s = .next t ∧ t.ctl.ac = g.setWidth 7 ∧ t.ctl.space = .cgram ∧
      t.ctl.ddram = s.ctl.ddram ∧ t.ctl.cgram = s.ctl.cgram) ∧
    (s.ctl.space = .ddram →
      ∃ t, exec (.writeData d) s = .next t ∧ t.ctl.ddram.read s.ctl.ac.toNat = d ∧
        (∀ c, c ≠ s.ctl.ac.toNat → t.ctl.ddram.read c = s.ctl.ddram.read c) ∧ t.ctl.cgram = s.ctl.cgram ∧
        t.ctl.space = .ddram ∧ moved t) ∧
    (s.ctl.space = .cgram →
      ∃ t, exec (.writeData d) s = .next t ∧ t.ctl.cgram.read (s.ctl.ac.toNat % 64) = d ∧
        (∀ c, c ≠ s.ctl.ac.toNat % 64 → t.ctl.cgram.read c = s.ctl.cgram.read c) ∧ t.ctl.ddram = s.ctl.ddram ∧
        t.ctl.space = .cgram ∧ moved t)

/-- Within a row the counter moves from the address of a column to that of the next one in the entry direction, and the
byte stands at the address it left (R113, R43, R90, R212): on a controller in step with the block and ready, in the line
mode of ROWS, for a display whose rows fit the controller's lines (80 columns in one row, 40 in each of two, 20 in each of
more). Those lines, and so the ends the counter does not meet within a row, are presumed, log 22; R63 leaves to the
controller only what lies past the last column. Rests on the presumed controller, log 19. -/
def Obligations.WriteDataWithinRow : Prop :=
  ∀ (s : State) (hs : Handle) (col next row d : Byte), s.h = some hs → hs.Wf s.params → LinesOk hs s.port →
    s.ctl.mode = hs.w → s.ctl.half = none → s.ctl.readyAt ≤ s.clock → s.params.acEdges = Params.floors.acEdges →
    s.ctl.space = .ddram → s.ctl.twoLine = decide (1 < hs.numlines.toNat) →
    hs.cols.toNat ≤ (if hs.numlines = 1 then 80 else if hs.numlines = 2 then 40 else 20) →
    col.toNat < hs.cols.toNat → next.toNat < hs.cols.toNat →
    (if s.ctl.entryInc then next.toNat = col.toNat + 1 else next.toNat + 1 = col.toNat) →
    s.ctl.ac = (ddramAddress hs col row).setWidth 7 →
    ∃ t, exec (.writeData d) s = .next t ∧ t.ctl.ac = (ddramAddress hs next row).setWidth 7 ∧ t.ctl.space = .ddram ∧
      t.ctl.ddram.read s.ctl.ac.toNat = d ∧ ∀ c, c ≠ s.ctl.ac.toNat → t.ctl.ddram.read c = s.ctl.ddram.read c
end

