-- ==== Sys2Proof/Laws/Cells.lean ====
section
/-! SUPPORT. Laws of the canonical lists: read after write, and every operation keeps the form. -/

namespace Sys2Proof.Machine

variable {α : Type}

theorem cellsFind_erase_self (k : Nat) (m : List (Nat × α)) : cellsFind k (cellsErase k m) = none := by
  induction m with
  | nil => rfl
  | cons c m ih =>
    by_cases h : c.1 = k
    · simpa [cellsErase, h] using ih
    · simpa [cellsErase, cellsFind, h] using ih

theorem cellsFind_erase_other {j k : Nat} (h : j ≠ k) (m : List (Nat × α)) :
    cellsFind j (cellsErase k m) = cellsFind j m := by
  induction m with
  | nil => rfl
  | cons c m ih =>
    by_cases hc : c.1 = k
    · have : c.1 ≠ j := by omega
      simp [cellsErase, cellsFind, hc, ih, Ne.symm h]
    · rw [show cellsErase k (c :: m) = c :: cellsErase k m by simp [cellsErase, hc]]
      simp only [cellsFind, ih]

theorem cellsFind_insert_self (k : Nat) (a : α) (m : List (Nat × α)) : cellsFind k (cellsInsert k a m) = some a := by
  induction m with
  | nil => simp [cellsInsert, cellsFind]
  | cons c m ih =>
    simp only [cellsInsert]
    split
    · simp [cellsFind]
    · split
      · simp [cellsFind]
      · have : c.1 ≠ k := by omega
        simp [cellsFind, this, ih]

theorem cellsFind_insert_other {j k : Nat} (h : j ≠ k) (a : α) (m : List (Nat × α)) :
    cellsFind j (cellsInsert k a m) = cellsFind j m := by
  induction m with
  | nil => simp [cellsInsert, cellsFind, Ne.symm h]
  | cons c m ih =>
    simp only [cellsInsert]
    split
    · simp [cellsFind, Ne.symm h]
    · split
      · have : c.1 ≠ j := by omega
        simp [cellsFind, this, Ne.symm h]
      · simp [cellsFind, ih]

theorem mem_cellsErase {c : Nat × α} {k : Nat} {m : List (Nat × α)} (h : c ∈ cellsErase k m) : c ∈ m := by
  induction m with
  | nil => simp [cellsErase] at h
  | cons d m ih =>
    simp only [cellsErase] at h
    split at h
    · exact List.mem_cons_of_mem _ (ih h)
    · rcases List.mem_cons.1 h with rfl | h
      · exact List.mem_cons_self
      · exact List.mem_cons_of_mem _ (ih h)

theorem mem_cellsInsert {c : Nat × α} {k : Nat} {a : α} {m : List (Nat × α)} (h : c ∈ cellsInsert k a m) :
    c = (k, a) ∨ c ∈ m := by
  induction m with
  | nil => simpa [cellsInsert] using h
  | cons d m ih =>
    simp only [cellsInsert] at h
    split at h
    · simpa using h
    · split at h
      · rcases List.mem_cons.1 h with h | h <;> simp [h]
      · rcases List.mem_cons.1 h with rfl | h
        · simp
        · rcases ih h with h | h <;> simp [h]

theorem cellsErase_sorted {k : Nat} {m : List (Nat × α)} (h : CellsSorted m) : CellsSorted (cellsErase k m) := by
  induction m with
  | nil => exact h
  | cons c m ih =>
    rw [CellsSorted, List.pairwise_cons] at h
    simp only [cellsErase]
    split
    · exact ih h.2
    · exact List.pairwise_cons.2 ⟨fun d hd => h.1 d (mem_cellsErase hd), ih h.2⟩

theorem cellsInsert_sorted {k : Nat} {a : α} {m : List (Nat × α)} (h : CellsSorted m) :
    CellsSorted (cellsInsert k a m) := by
  induction m with
  | nil => simp [cellsInsert, CellsSorted]
  | cons c m ih =>
    have h' := List.pairwise_cons.1 h
    simp only [cellsInsert]
    split
    · rename_i hk
      refine List.pairwise_cons.2 ⟨fun d hd => ?_, h⟩
      rcases List.mem_cons.1 hd with rfl | hd
      · exact hk
      · exact lt_trans hk (h'.1 d hd)
    · split
      · rename_i hk
        exact List.pairwise_cons.2 ⟨fun d hd => by rw [hk]; exact h'.1 d hd, h'.2⟩
      · refine List.pairwise_cons.2 ⟨fun d hd => ?_, ih h'.2⟩
        rcases mem_cellsInsert hd with rfl | hd
        · dsimp only; omega
        · exact h'.1 d hd

/-! ### Pins -/

theorem pinGet_set_self (p : Pin) (st : PinState) (m : List (Nat × PinState)) : pinGet p (pinSet p st m) = st := by
  unfold pinGet pinSet
  split
  · rename_i h; simp [cellsFind_erase_self, h]
  · simp [cellsFind_insert_self]

theorem pinGet_set_other {p q : Pin} (h : q ≠ p) (st : PinState) (m : List (Nat × PinState)) :
    pinGet q (pinSet p st m) = pinGet q m := by
  unfold pinGet pinSet
  split
  · rw [cellsFind_erase_other h]
  · rw [cellsFind_insert_other h]

/-- Read after write on the pins. -/
theorem pinGet_set (p q : Pin) (st : PinState) (m : List (Nat × PinState)) :
    pinGet q (pinSet p st m) = if q = p then st else pinGet q m := by
  split
  · rename_i h; subst h; exact pinGet_set_self ..
  · rename_i h; exact pinGet_set_other h ..

theorem pinSet_wf {p : Pin} {st : PinState} {m : List (Nat × PinState)} (h : PinsWf m) : PinsWf (pinSet p st m) := by
  unfold pinSet
  split
  · exact ⟨cellsErase_sorted h.1, fun c hc => h.2 c (mem_cellsErase hc)⟩
  · rename_i hs
    refine ⟨cellsInsert_sorted h.1, fun c hc => ?_⟩
    rcases mem_cellsInsert hc with rfl | hc
    · exact hs
    · exact h.2 c hc

theorem pinUpdate_get (f : PinState → PinState) (m : List (Nat × PinState)) (p q : Pin) :
    pinGet q (pinUpdate f m p) = if q = p then f (pinGet q m) else pinGet q m := by
  rw [pinUpdate, pinGet_set]
  split <;> simp_all

theorem pinUpdate_wf {f : PinState → PinState} {m : List (Nat × PinState)} {p : Pin} (h : PinsWf m) :
    PinsWf (pinUpdate f m p) := pinSet_wf h

/-! ### The set of owned pins -/

@[simp] theorem mem_ownedInsert (p q : Pin) (s : List Pin) : q ∈ ownedInsert p s ↔ q = p ∨ q ∈ s := by
  induction s with
  | nil => simp [ownedInsert]
  | cons r s ih =>
    simp only [ownedInsert]
    split
    · simp
    · split
      · rename_i h; subst h; simp
      · simp only [List.mem_cons, ih]; tauto

theorem mem_ownedInsert_foldl (ps : List Pin) (q : Pin) (s : List Pin) :
    q ∈ ps.foldl (fun acc p => ownedInsert p acc) s ↔ q ∈ ps ∨ q ∈ s := by
  induction ps generalizing s with
  | nil => simp
  | cons p ps ih => simp only [List.foldl_cons, ih, mem_ownedInsert, List.mem_cons]; tauto

/-! ### The controller's memories -/

theorem ram_read_write_self (r : Ram) (a : Nat) (b : Byte) : (r.write a b).read a = b := by
  unfold Ram.write Ram.read Ram.unlisted
  split
  · rename_i h; simp [cellsFind_erase_self, h]
  · simp [cellsFind_insert_self]

theorem ram_read_write_other (r : Ram) {a c : Nat} (h : c ≠ a) (b : Byte) : (r.write a b).read c = r.read c := by
  unfold Ram.write Ram.read Ram.unlisted
  split
  · simp [cellsFind_erase_other h]
  · simp [cellsFind_insert_other h]

theorem ram_write_wf {r : Ram} {a : Nat} {b : Byte} (h : r.Wf) : (r.write a b).Wf := by
  unfold Ram.write
  split
  · exact ⟨cellsErase_sorted h.1, fun c hc => h.2 c (mem_cellsErase hc)⟩
  · rename_i hf
    refine ⟨cellsInsert_sorted h.1, fun c hc => ?_⟩
    rcases mem_cellsInsert hc with rfl | hc
    · exact hf
    · exact h.2 c hc

theorem ram_unknown_wf (n : Nat) : (Ram.unknown n).Wf := ⟨List.Pairwise.nil, fun _ h => by cases h⟩

/-! ### Masks -/

theorem mem_maskPins (m p : Nat) : p ∈ maskPins m ↔ m.testBit p = true := by
  unfold maskPins
  rw [List.mem_filter, List.mem_range]
  refine ⟨fun h => h.2, fun h => ⟨?_, h⟩⟩
  by_contra hlt
  have hm : m < 2 ^ p := lt_of_lt_of_le (Nat.lt_log2_self (n := m)) (Nat.pow_le_pow_right (by omega) (by omega))
  rw [Nat.testBit_lt_two_pow hm] at h
  exact absurd h (by simp)

theorem testBit_shiftOne (p q : Nat) : (1 <<< p).testBit q = decide (q = p) := by
  rw [Nat.shiftLeft_eq, Nat.one_mul, Nat.testBit_two_pow]
  simp [eq_comm]

theorem testBit_maskOf (ps : List Pin) (q : Nat) : (maskOf ps).testBit q = decide (q ∈ ps) := by
  induction ps with
  | nil => simp [maskOf]
  | cons p ps ih => rw [maskOf, Nat.testBit_or, testBit_shiftOne, ih]; simp [Bool.decide_or]

theorem mem_maskPins_maskOf (ps : List Pin) (q : Nat) : q ∈ maskPins (maskOf ps) ↔ q ∈ ps := by
  rw [mem_maskPins, testBit_maskOf]; simp

end Sys2Proof.Machine
end

