-- ==== Sys2Proof/Laws/State.lean ====
section
/-! SUPPORT. One lemma for each field a state update leaves alone, and one for each it changes, so that no later proof unfolds
a record update. -/

namespace Sys2Proof.Machine

/-! ### emit -/

@[simp] theorem emit_params (ev : Event) (s : State) : (emit ev s).params = s.params := rfl
@[simp] theorem emit_h (ev : Event) (s : State) : (emit ev s).h = s.h := rfl
@[simp] theorem emit_port (ev : Event) (s : State) : (emit ev s).port = s.port.apply (Config.freePin s.drawn) ev := rfl
@[simp] theorem emit_phase (ev : Event) (s : State) : (emit ev s).phase = s.phase.advance := rfl
@[simp] theorem emit_todo (ev : Event) (s : State) : (emit ev s).todo = s.todo := rfl
@[simp] theorem emit_reqPort (ev : Event) (s : State) : (emit ev s).reqPort = s.reqPort := rfl
@[simp] theorem emit_script (ev : Event) (s : State) : (emit ev s).script = s.script := rfl
@[simp] theorem emit_foreign (ev : Event) (s : State) : (emit ev s).foreign = s.foreign := rfl
@[simp] theorem emit_addr (ev : Event) (s : State) : (emit ev s).addr = s.addr := rfl
@[simp] theorem emit_lastRead (ev : Event) (s : State) : (emit ev s).lastRead = s.lastRead := rfl
@[simp] theorem emit_result (ev : Event) (s : State) : (emit ev s).result = s.result := rfl
@[simp] theorem emit_outcome (ev : Event) (s : State) : (emit ev s).outcome = s.outcome := rfl
@[simp] theorem emit_trace (ev : Event) (s : State) : (emit ev s).trace = s.trace ++ [ev] := rfl
@[simp] theorem emit_clock (ev : Event) (s : State) : (emit ev s).clock = s.clock + s.params.eventNs ev := rfl
@[simp] theorem emit_oracle (ev : Event) (s : State) : (emit ev s).oracle = s.oracle := rfl
@[simp] theorem emit_ctl (ev : Event) (s : State) : (emit ev s).ctl = ctlAfter ev s := rfl

/-! ### nullHandle -/

@[simp] theorem nullHandle_params (s : State) : (nullHandle s).params = s.params := rfl
@[simp] theorem nullHandle_h (s : State) : (nullHandle s).h = s.h := rfl
@[simp] theorem nullHandle_port (s : State) : (nullHandle s).port = s.port := rfl
@[simp] theorem nullHandle_phase (s : State) : (nullHandle s).phase = s.phase := rfl
@[simp] theorem nullHandle_todo (s : State) : (nullHandle s).todo = s.todo := rfl
@[simp] theorem nullHandle_reqPort (s : State) : (nullHandle s).reqPort = s.reqPort := rfl
@[simp] theorem nullHandle_script (s : State) : (nullHandle s).script = s.script := rfl
@[simp] theorem nullHandle_foreign (s : State) : (nullHandle s).foreign = s.foreign := rfl
@[simp] theorem nullHandle_addr (s : State) : (nullHandle s).addr = s.addr := rfl
@[simp] theorem nullHandle_lastRead (s : State) : (nullHandle s).lastRead = s.lastRead := rfl
@[simp] theorem nullHandle_result (s : State) : (nullHandle s).result = s.result := rfl
@[simp] theorem nullHandle_outcome (s : State) : (nullHandle s).outcome = .nullHandle := rfl
@[simp] theorem nullHandle_trace (s : State) : (nullHandle s).trace = s.trace := rfl
@[simp] theorem nullHandle_clock (s : State) : (nullHandle s).clock = s.clock := rfl
@[simp] theorem nullHandle_oracle (s : State) : (nullHandle s).oracle = s.oracle := rfl
@[simp] theorem nullHandle_drawn (s : State) : (nullHandle s).drawn = s.drawn := rfl
@[simp] theorem nullHandle_ctl (s : State) : (nullHandle s).ctl = s.ctl := rfl

/-! ### nullRead -/

@[simp] theorem nullRead_params (s : State) : (nullRead s).params = s.params := rfl
@[simp] theorem nullRead_h (s : State) : (nullRead s).h = s.h := rfl
@[simp] theorem nullRead_port (s : State) : (nullRead s).port = s.port := rfl
@[simp] theorem nullRead_phase (s : State) : (nullRead s).phase = s.phase := rfl
@[simp] theorem nullRead_todo (s : State) : (nullRead s).todo = s.todo := rfl
@[simp] theorem nullRead_reqPort (s : State) : (nullRead s).reqPort = s.reqPort := rfl
@[simp] theorem nullRead_script (s : State) : (nullRead s).script = s.script := rfl
@[simp] theorem nullRead_foreign (s : State) : (nullRead s).foreign = s.foreign := rfl
@[simp] theorem nullRead_addr (s : State) : (nullRead s).addr = s.addr := rfl
@[simp] theorem nullRead_lastRead (s : State) : (nullRead s).lastRead = Config.freeByte s.drawn := rfl
@[simp] theorem nullRead_result (s : State) : (nullRead s).result = s.result := rfl
@[simp] theorem nullRead_outcome (s : State) : (nullRead s).outcome = .nullHandle := rfl
@[simp] theorem nullRead_trace (s : State) : (nullRead s).trace = s.trace := rfl
@[simp] theorem nullRead_clock (s : State) : (nullRead s).clock = s.clock := rfl
@[simp] theorem nullRead_oracle (s : State) : (nullRead s).oracle = s.oracle := rfl
@[simp] theorem nullRead_drawn (s : State) : (nullRead s).drawn = s.drawn + 1 := rfl
@[simp] theorem nullRead_ctl (s : State) : (nullRead s).ctl = s.ctl := rfl

/-! ### completed -/

@[simp] theorem completed_params (s : State) : (completed s).params = s.params := rfl
@[simp] theorem completed_h (s : State) : (completed s).h = s.h := rfl
@[simp] theorem completed_port (s : State) : (completed s).port = s.port := rfl
@[simp] theorem completed_phase (s : State) : (completed s).phase = s.phase := rfl
@[simp] theorem completed_todo (s : State) : (completed s).todo = s.todo := rfl
@[simp] theorem completed_reqPort (s : State) : (completed s).reqPort = s.reqPort := rfl
@[simp] theorem completed_script (s : State) : (completed s).script = s.script := rfl
@[simp] theorem completed_foreign (s : State) : (completed s).foreign = s.foreign := rfl
@[simp] theorem completed_addr (s : State) : (completed s).addr = s.addr := rfl
@[simp] theorem completed_lastRead (s : State) : (completed s).lastRead = s.lastRead := rfl
@[simp] theorem completed_result (s : State) : (completed s).result = s.result := rfl
@[simp] theorem completed_outcome (s : State) : (completed s).outcome = .normal := rfl
@[simp] theorem completed_trace (s : State) : (completed s).trace = s.trace := rfl
@[simp] theorem completed_clock (s : State) : (completed s).clock = s.clock := rfl
@[simp] theorem completed_oracle (s : State) : (completed s).oracle = s.oracle := rfl
@[simp] theorem completed_drawn (s : State) : (completed s).drawn = s.drawn := rfl
@[simp] theorem completed_ctl (s : State) : (completed s).ctl = s.ctl := rfl

/-! ### completedRead -/

@[simp] theorem completedRead_params (hs : Handle) (b : Byte) (s : State) : (completedRead hs b s).params = s.params := rfl
@[simp] theorem completedRead_h (hs : Handle) (b : Byte) (s : State) : (completedRead hs b s).h = s.h := rfl
@[simp] theorem completedRead_port (hs : Handle) (b : Byte) (s : State) : (completedRead hs b s).port = s.port := rfl
@[simp] theorem completedRead_phase (hs : Handle) (b : Byte) (s : State) : (completedRead hs b s).phase = s.phase := rfl
@[simp] theorem completedRead_todo (hs : Handle) (b : Byte) (s : State) : (completedRead hs b s).todo = s.todo := rfl
@[simp] theorem completedRead_reqPort (hs : Handle) (b : Byte) (s : State) : (completedRead hs b s).reqPort = s.reqPort := rfl
@[simp] theorem completedRead_script (hs : Handle) (b : Byte) (s : State) : (completedRead hs b s).script = s.script := rfl
@[simp] theorem completedRead_foreign (hs : Handle) (b : Byte) (s : State) : (completedRead hs b s).foreign = s.foreign := rfl
@[simp] theorem completedRead_addr (hs : Handle) (b : Byte) (s : State) : (completedRead hs b s).addr = s.addr := rfl
@[simp] theorem completedRead_lastRead (hs : Handle) (b : Byte) (s : State) : (completedRead hs b s).lastRead = b := rfl
@[simp] theorem completedRead_result (hs : Handle) (b : Byte) (s : State) : (completedRead hs b s).result = s.result := rfl
@[simp] theorem completedRead_outcome (hs : Handle) (b : Byte) (s : State) : (completedRead hs b s).outcome = if hs.wired then .normal else .readUnsupported := rfl
@[simp] theorem completedRead_trace (hs : Handle) (b : Byte) (s : State) : (completedRead hs b s).trace = s.trace := rfl
@[simp] theorem completedRead_clock (hs : Handle) (b : Byte) (s : State) : (completedRead hs b s).clock = s.clock := rfl
@[simp] theorem completedRead_oracle (hs : Handle) (b : Byte) (s : State) : (completedRead hs b s).oracle = s.oracle := rfl
@[simp] theorem completedRead_drawn (hs : Handle) (b : Byte) (s : State) : (completedRead hs b s).drawn = s.drawn := rfl
@[simp] theorem completedRead_ctl (hs : Handle) (b : Byte) (s : State) : (completedRead hs b s).ctl = s.ctl := rfl

/-! ### ctlReady -/

@[simp] theorem ctlReady_params (s : State) : (ctlReady s).params = s.params := rfl
@[simp] theorem ctlReady_h (s : State) : (ctlReady s).h = s.h := rfl
@[simp] theorem ctlReady_port (s : State) : (ctlReady s).port = s.port := rfl
@[simp] theorem ctlReady_phase (s : State) : (ctlReady s).phase = s.phase := rfl
@[simp] theorem ctlReady_todo (s : State) : (ctlReady s).todo = s.todo := rfl
@[simp] theorem ctlReady_reqPort (s : State) : (ctlReady s).reqPort = s.reqPort := rfl
@[simp] theorem ctlReady_script (s : State) : (ctlReady s).script = s.script := rfl
@[simp] theorem ctlReady_foreign (s : State) : (ctlReady s).foreign = s.foreign := rfl
@[simp] theorem ctlReady_addr (s : State) : (ctlReady s).addr = s.addr := rfl
@[simp] theorem ctlReady_lastRead (s : State) : (ctlReady s).lastRead = s.lastRead := rfl
@[simp] theorem ctlReady_result (s : State) : (ctlReady s).result = s.result := rfl
@[simp] theorem ctlReady_outcome (s : State) : (ctlReady s).outcome = s.outcome := rfl
@[simp] theorem ctlReady_trace (s : State) : (ctlReady s).trace = s.trace := rfl
@[simp] theorem ctlReady_clock (s : State) : (ctlReady s).clock = s.clock := rfl
@[simp] theorem ctlReady_oracle (s : State) : (ctlReady s).oracle = s.oracle := rfl
@[simp] theorem ctlReady_drawn (s : State) : (ctlReady s).drawn = s.drawn := rfl
@[simp] theorem ctlReady_ctl (s : State) : (ctlReady s).ctl = { s.ctl with readyAt := s.clock } := rfl

/-! ### retire -/

@[simp] theorem retire_params (s : State) : (retire s).params = s.params := rfl
@[simp] theorem retire_h (s : State) : (retire s).h = s.h := rfl
@[simp] theorem retire_port (s : State) : (retire s).port = s.port := rfl
@[simp] theorem retire_phase (s : State) : (retire s).phase = if s.todo.tail = [] then .idle else s.phase := rfl
@[simp] theorem retire_todo (s : State) : (retire s).todo = s.todo.tail := rfl
@[simp] theorem retire_reqPort (s : State) : (retire s).reqPort = s.reqPort := rfl
@[simp] theorem retire_script (s : State) : (retire s).script = s.script := rfl
@[simp] theorem retire_foreign (s : State) : (retire s).foreign = s.foreign := rfl
@[simp] theorem retire_addr (s : State) : (retire s).addr = s.addr := rfl
@[simp] theorem retire_lastRead (s : State) : (retire s).lastRead = s.lastRead := rfl
@[simp] theorem retire_result (s : State) : (retire s).result = s.result := rfl
@[simp] theorem retire_outcome (s : State) : (retire s).outcome = s.outcome := rfl
@[simp] theorem retire_trace (s : State) : (retire s).trace = s.trace := rfl
@[simp] theorem retire_clock (s : State) : (retire s).clock = s.clock := rfl
@[simp] theorem retire_oracle (s : State) : (retire s).oracle = s.oracle := rfl
@[simp] theorem retire_drawn (s : State) : (retire s).drawn = s.drawn := rfl
@[simp] theorem retire_ctl (s : State) : (retire s).ctl = s.ctl := rfl

/-! ### start -/

@[simp] theorem start_params (r : Request) (prog : List Item) (s : State) : (start r prog s).params = s.params := rfl
@[simp] theorem start_h (r : Request) (prog : List Item) (s : State) : (start r prog s).h = s.h := rfl
@[simp] theorem start_port (r : Request) (prog : List Item) (s : State) : (start r prog s).port = s.port := rfl
@[simp] theorem start_phase (r : Request) (prog : List Item) (s : State) : (start r prog s).phase = if prog = [] then .idle else .running r 0 := rfl
@[simp] theorem start_todo (r : Request) (prog : List Item) (s : State) : (start r prog s).todo = prog := rfl
@[simp] theorem start_reqPort (r : Request) (prog : List Item) (s : State) : (start r prog s).reqPort = s.reqPort := rfl
@[simp] theorem start_script (r : Request) (prog : List Item) (s : State) : (start r prog s).script = s.script := rfl
@[simp] theorem start_foreign (r : Request) (prog : List Item) (s : State) : (start r prog s).foreign = s.foreign := rfl
@[simp] theorem start_addr (r : Request) (prog : List Item) (s : State) : (start r prog s).addr = s.addr := rfl
@[simp] theorem start_lastRead (r : Request) (prog : List Item) (s : State) : (start r prog s).lastRead = s.lastRead := rfl
@[simp] theorem start_result (r : Request) (prog : List Item) (s : State) : (start r prog s).result = .nothing := rfl
@[simp] theorem start_outcome (r : Request) (prog : List Item) (s : State) : (start r prog s).outcome = .normal := rfl
@[simp] theorem start_trace (r : Request) (prog : List Item) (s : State) : (start r prog s).trace = s.trace := rfl
@[simp] theorem start_clock (r : Request) (prog : List Item) (s : State) : (start r prog s).clock = s.clock := rfl
@[simp] theorem start_oracle (r : Request) (prog : List Item) (s : State) : (start r prog s).oracle = s.oracle := rfl
@[simp] theorem start_drawn (r : Request) (prog : List Item) (s : State) : (start r prog s).drawn = s.drawn := rfl
@[simp] theorem start_ctl (r : Request) (prog : List Item) (s : State) : (start r prog s).ctl = s.ctl := rfl

/-! ### withFetchWord -/

@[simp] theorem withFetchWord_params (s : State) (nbits w : Nat) : (s.withFetchWord nbits w).params = s.params := rfl
@[simp] theorem withFetchWord_h (s : State) (nbits w : Nat) : (s.withFetchWord nbits w).h = s.h := rfl
@[simp] theorem withFetchWord_port (s : State) (nbits w : Nat) : (s.withFetchWord nbits w).port = s.port := rfl
@[simp] theorem withFetchWord_phase (s : State) (nbits w : Nat) : (s.withFetchWord nbits w).phase = s.phase := rfl
@[simp] theorem withFetchWord_todo (s : State) (nbits w : Nat) : (s.withFetchWord nbits w).todo = .word nbits w :: s.todo := rfl
@[simp] theorem withFetchWord_reqPort (s : State) (nbits w : Nat) : (s.withFetchWord nbits w).reqPort = none := rfl
@[simp] theorem withFetchWord_script (s : State) (nbits w : Nat) : (s.withFetchWord nbits w).script = s.script := rfl
@[simp] theorem withFetchWord_foreign (s : State) (nbits w : Nat) : (s.withFetchWord nbits w).foreign = s.foreign := rfl
@[simp] theorem withFetchWord_addr (s : State) (nbits w : Nat) : (s.withFetchWord nbits w).addr = s.addr := rfl
@[simp] theorem withFetchWord_lastRead (s : State) (nbits w : Nat) : (s.withFetchWord nbits w).lastRead = s.lastRead := rfl
@[simp] theorem withFetchWord_result (s : State) (nbits w : Nat) : (s.withFetchWord nbits w).result = s.result := rfl
@[simp] theorem withFetchWord_outcome (s : State) (nbits w : Nat) : (s.withFetchWord nbits w).outcome = s.outcome := rfl
@[simp] theorem withFetchWord_trace (s : State) (nbits w : Nat) : (s.withFetchWord nbits w).trace = s.trace := rfl
@[simp] theorem withFetchWord_clock (s : State) (nbits w : Nat) : (s.withFetchWord nbits w).clock = s.clock := rfl
@[simp] theorem withFetchWord_oracle (s : State) (nbits w : Nat) : (s.withFetchWord nbits w).oracle = s.oracle := rfl
@[simp] theorem withFetchWord_drawn (s : State) (nbits w : Nat) : (s.withFetchWord nbits w).drawn = s.drawn := rfl
@[simp] theorem withFetchWord_ctl (s : State) (nbits w : Nat) : (s.withFetchWord nbits w).ctl = s.ctl := rfl

/-! ### draw -/

@[simp] theorem draw_params (s : State) : (draw s).2.params = s.params := by unfold draw; split <;> rfl
@[simp] theorem draw_h (s : State) : (draw s).2.h = s.h := by unfold draw; split <;> rfl
@[simp] theorem draw_port (s : State) : (draw s).2.port = s.port := by unfold draw; split <;> rfl
@[simp] theorem draw_phase (s : State) : (draw s).2.phase = s.phase := by unfold draw; split <;> rfl
@[simp] theorem draw_todo (s : State) : (draw s).2.todo = s.todo := by unfold draw; split <;> rfl
@[simp] theorem draw_reqPort (s : State) : (draw s).2.reqPort = s.reqPort := by unfold draw; split <;> rfl
@[simp] theorem draw_script (s : State) : (draw s).2.script = s.script := by unfold draw; split <;> rfl
@[simp] theorem draw_foreign (s : State) : (draw s).2.foreign = s.foreign := by unfold draw; split <;> rfl
@[simp] theorem draw_addr (s : State) : (draw s).2.addr = s.addr := by unfold draw; split <;> rfl
@[simp] theorem draw_lastRead (s : State) : (draw s).2.lastRead = s.lastRead := by unfold draw; split <;> rfl
@[simp] theorem draw_result (s : State) : (draw s).2.result = s.result := by unfold draw; split <;> rfl
@[simp] theorem draw_outcome (s : State) : (draw s).2.outcome = s.outcome := by unfold draw; split <;> rfl
@[simp] theorem draw_trace (s : State) : (draw s).2.trace = s.trace := by unfold draw; split <;> rfl
@[simp] theorem draw_clock (s : State) : (draw s).2.clock = s.clock := by unfold draw; split <;> rfl
@[simp] theorem draw_ctl (s : State) : (draw s).2.ctl = s.ctl := by unfold draw; split <;> rfl
@[simp] theorem draw_drawn (s : State) : (draw s).2.drawn = s.drawn + 1 := by unfold draw; split <;> rfl

/-- Where an answer is lined up, it is the one drawn. -/
theorem draw_cons {s : State} {b : Bool} {bs : List Bool} (h : s.oracle = b :: bs) :
    draw s = (b, { s with oracle := bs, drawn := s.drawn + 1 }) := by
  unfold draw; rw [h]

/-! ### Outcomes -/

@[simp] theorem andThen_next (s : State) (f : State → Out) : andThen (.next s) f = f s := rfl
@[simp] theorem andThen_fault (r : Fault) (f : State → Out) : andThen (.fault r) f = .fault r := rfl
@[simp] theorem andThen_refused (r : Refusal) (f : State → Out) : andThen (.refused r) f = .refused r := rfl

/-- An outcome that goes on after `andThen` went on before it. -/
theorem andThen_eq_next {o : Out} {f : State → Out} {t : State} :
    andThen o f = .next t ↔ ∃ s, o = .next s ∧ f s = .next t := by
  cases o <;> simp [andThen]

end Sys2Proof.Machine
end

