-- ==== Sys2Proof/Laws/Emit.lean ====
section
/-! SUPPORT. What emitting events and sampling lines do, said once. -/

namespace Sys2Proof.Machine

/-! ### Emitting a list of events -/

@[simp] theorem emitAll_nil (s : State) : emitAll [] s = s := rfl

@[simp] theorem emitAll_cons (ev : Event) (evs : List Event) (s : State) :
    emitAll (ev :: evs) s = emitAll evs (emit ev s) := rfl

theorem emitAll_append (xs ys : List Event) (s : State) : emitAll (xs ++ ys) s = emitAll ys (emitAll xs s) := by
  simp [emitAll, List.foldl_append]

section Fields

variable (evs : List Event) (s : State)

@[simp] theorem emitAll_params : (emitAll evs s).params = s.params := by
  induction evs generalizing s with
  | nil => rfl
  | cons e es ih => rw [emitAll_cons, ih]; rfl

@[simp] theorem emitAll_h : (emitAll evs s).h = s.h := by
  induction evs generalizing s with
  | nil => rfl
  | cons e es ih => rw [emitAll_cons, ih]; rfl

@[simp] theorem emitAll_todo : (emitAll evs s).todo = s.todo := by
  induction evs generalizing s with
  | nil => rfl
  | cons e es ih => rw [emitAll_cons, ih]; rfl

@[simp] theorem emitAll_reqPort : (emitAll evs s).reqPort = s.reqPort := by
  induction evs generalizing s with
  | nil => rfl
  | cons e es ih => rw [emitAll_cons, ih]; rfl

@[simp] theorem emitAll_script : (emitAll evs s).script = s.script := by
  induction evs generalizing s with
  | nil => rfl
  | cons e es ih => rw [emitAll_cons, ih]; rfl

@[simp] theorem emitAll_foreign : (emitAll evs s).foreign = s.foreign := by
  induction evs generalizing s with
  | nil => rfl
  | cons e es ih => rw [emitAll_cons, ih]; rfl

@[simp] theorem emitAll_addr : (emitAll evs s).addr = s.addr := by
  induction evs generalizing s with
  | nil => rfl
  | cons e es ih => rw [emitAll_cons, ih]; rfl

@[simp] theorem emitAll_lastRead : (emitAll evs s).lastRead = s.lastRead := by
  induction evs generalizing s with
  | nil => rfl
  | cons e es ih => rw [emitAll_cons, ih]; rfl

@[simp] theorem emitAll_result : (emitAll evs s).result = s.result := by
  induction evs generalizing s with
  | nil => rfl
  | cons e es ih => rw [emitAll_cons, ih]; rfl

@[simp] theorem emitAll_outcome : (emitAll evs s).outcome = s.outcome := by
  induction evs generalizing s with
  | nil => rfl
  | cons e es ih => rw [emitAll_cons, ih]; rfl

@[simp] theorem emitAll_oracle : (emitAll evs s).oracle = s.oracle := by
  induction evs generalizing s with
  | nil => rfl
  | cons e es ih => rw [emitAll_cons, ih]; rfl

@[simp] theorem emitAll_trace : (emitAll evs s).trace = s.trace ++ evs := by
  induction evs generalizing s with
  | nil => simp
  | cons e es ih => rw [emitAll_cons, ih]; simp

@[simp] theorem emitAll_clock : (emitAll evs s).clock = s.clock + minDuration s.params evs := by
  induction evs generalizing s with
  | nil => rfl
  | cons e es ih =>
    rw [emitAll_cons, ih, emit_clock, emit_params, Nat.add_assoc]
    rfl

end Fields

/-- The phase after `n` more events (R55). -/
def Phase.plus (n : Nat) : Phase → Phase
  | .idle => .idle
  | .running r k => .running r (k + n)

theorem phase_plus_zero (p : Phase) : p.plus 0 = p := by cases p <;> rfl

theorem phase_plus_add (p : Phase) (m n : Nat) : (p.plus m).plus n = p.plus (m + n) := by
  cases p <;> simp [Phase.plus, Nat.add_assoc]

theorem phase_advance_eq (p : Phase) : p.advance = p.plus 1 := by cases p <;> rfl

theorem emitAll_phase (evs : List Event) (s : State) : (emitAll evs s).phase = s.phase.plus evs.length := by
  induction evs generalizing s with
  | nil => exact (phase_plus_zero _).symm
  | cons e es ih => rw [emitAll_cons, ih, emit_phase, phase_advance_eq, phase_plus_add, List.length_cons, Nat.add_comm]

/-! ### Events that release nothing -/

/-- Whether an event gives a pin up. -/
def Event.isRelease : Event → Bool
  | .release _ => true
  | .initLine _ | .initMask _ | .setDir _ _ | .setDirMask _ _ | .put _ _ | .putMask _ _ | .get _ _ | .wait _ => false

theorem emit_drawn_of_not_release {ev : Event} (h : ev.isRelease = false) (s : State) :
    (emit ev s).drawn = s.drawn := by
  cases ev <;> first | rfl | simp [Event.isRelease] at h

theorem apply_free_irrelevant {ev : Event} (h : ev.isRelease = false) (f g : PinState) (pt : Port) :
    pt.apply f ev = pt.apply g ev := by
  cases ev <;> first | rfl | simp [Event.isRelease] at h

theorem emitAll_drawn {evs : List Event} (h : ∀ ev ∈ evs, ev.isRelease = false) (s : State) :
    (emitAll evs s).drawn = s.drawn := by
  induction evs generalizing s with
  | nil => rfl
  | cons e es ih =>
    rw [emitAll_cons, ih (fun ev hev => h ev (by simp [hev])), emit_drawn_of_not_release (h e (by simp))]

/-- The port after events that release nothing is that of the events alone. -/
theorem emitAll_port {evs : List Event} (h : ∀ ev ∈ evs, ev.isRelease = false) (free : PinState) (s : State) :
    (emitAll evs s).port = portAfter free s.port evs := by
  induction evs generalizing s with
  | nil => rfl
  | cons e es ih =>
    rw [emitAll_cons, ih (fun ev hev => h ev (by simp [hev])), emit_port,
      apply_free_irrelevant (h e (by simp)) _ free]
    rfl

/-! ### Sampling -/

section Sample

variable (ps : List Pin) (s : State)

theorem sampleLines_cons (p : Pin) :
    sampleLines (p :: ps) s =
      ((draw s).1 :: (sampleLines ps (emit (.get p (draw s).1) (draw s).2)).1,
        (sampleLines ps (emit (.get p (draw s).1) (draw s).2)).2) := rfl

theorem sampleLines_length : (sampleLines ps s).1.length = ps.length := by
  induction ps generalizing s with
  | nil => rfl
  | cons p ps ih => rw [sampleLines_cons]; simp [ih]

/-- The trace of a sampling records the answers, in order (R75, R149). -/
theorem sampleLines_trace :
    (sampleLines ps s).2.trace = s.trace ++ List.zipWith Event.get ps (sampleLines ps s).1 := by
  induction ps generalizing s with
  | nil => simp [sampleLines]
  | cons p ps ih => rw [sampleLines_cons]; simp [ih]

/-- Sampling changes nothing but the trace, the phase, the clock by nothing, the oracle and the counter of draws. -/
theorem sampleLines_frame :
    (sampleLines ps s).2.params = s.params ∧ (sampleLines ps s).2.h = s.h ∧ (sampleLines ps s).2.port = s.port ∧
    (sampleLines ps s).2.todo = s.todo ∧ (sampleLines ps s).2.reqPort = s.reqPort ∧
    (sampleLines ps s).2.script = s.script ∧ (sampleLines ps s).2.foreign = s.foreign ∧
    (sampleLines ps s).2.addr = s.addr ∧ (sampleLines ps s).2.lastRead = s.lastRead ∧
    (sampleLines ps s).2.result = s.result ∧ (sampleLines ps s).2.outcome = s.outcome ∧
    (sampleLines ps s).2.clock = s.clock ∧ (sampleLines ps s).2.ctl = s.ctl ∧
    (sampleLines ps s).2.phase = s.phase.plus ps.length := by
  induction ps generalizing s with
  | nil => simp [sampleLines, phase_plus_zero]
  | cons p ps ih =>
    rw [sampleLines_cons]
    obtain ⟨h1, h2, h3, h4, h5, h6, h7, h8, h9, h10, h11, h12, h13, h14⟩ :=
      ih (emit (.get p (draw s).1) (draw s).2)
    refine ⟨?_, ?_, ?_, ?_, ?_, ?_, ?_, ?_, ?_, ?_, ?_, ?_, ?_, ?_⟩
    · simp [h1]
    · simp [h2]
    · simp [h3, Port.apply]
    · simp [h4]
    · simp [h5]
    · simp [h6]
    · simp [h7]
    · simp [h8]
    · simp [h9]
    · simp [h10]
    · simp [h11]
    · simp [h12, Params.eventNs]
    · simp [h13, ctlAfter]
    · simp [h14, phase_advance_eq, phase_plus_add, Nat.add_comm]

/-- Where enough answers are lined up, they are the ones sampled. -/
theorem sampleLines_oracle {bs rest : List Bool} (hl : bs.length = ps.length) (h : s.oracle = bs ++ rest) :
    (sampleLines ps s).1 = bs ∧ (sampleLines ps s).2.oracle = rest := by
  induction ps generalizing s bs with
  | nil =>
    have : bs = [] := List.length_eq_zero_iff.1 hl
    subst this
    exact ⟨rfl, h⟩
  | cons p ps ih =>
    cases bs with
    | nil => simp at hl
    | cons b bs =>
      rw [sampleLines_cons, draw_cons (s := s) (b := b) (bs := bs ++ rest) (by simpa using h)]
      have := ih (s := emit (.get p b) { s with oracle := bs ++ rest, drawn := s.drawn + 1 }) (bs := bs)
        (by simpa using hl) rfl
      simp [this]

end Sample

end Sys2Proof.Machine
end

