-- ==== Sys2Proof/Laws/Transfer.lean ====
section
/-! SUPPORT. One specification lemma for each transfer and channel operation. -/

namespace Sys2Proof.Machine

/-! ### What every operation of the block leaves alone -/

theorem SameSetup.refl (s : State) : SameSetup s s := ⟨rfl, rfl, rfl, rfl, rfl, rfl, rfl, rfl⟩

theorem SameSetup.trans {s t u : State} (a : SameSetup s t) (b : SameSetup t u) : SameSetup s u :=
  ⟨b.params.trans a.params, b.h.trans a.h, b.todo.trans a.todo, b.reqPort.trans a.reqPort, b.script.trans a.script,
    b.foreign.trans a.foreign, b.addr.trans a.addr, b.result.trans a.result⟩

theorem emit_sameSetup (ev : Event) (s : State) : SameSetup s (emit ev s) := ⟨rfl, rfl, rfl, rfl, rfl, rfl, rfl, rfl⟩

theorem emitAll_sameSetup (evs : List Event) (s : State) : SameSetup s (emitAll evs s) := by
  constructor <;> simp

theorem sampleLines_sameSetup (ps : List Pin) (s : State) : SameSetup s (sampleLines ps s).2 := by
  obtain ⟨h1, h2, -, h4, h5, h6, h7, h8, -, h10, -⟩ := sampleLines_frame ps s
  exact ⟨h1, h2, h4, h5, h6, h7, h8, h10⟩

/-! ### Writes -/

theorem sendFrame_some {s : State} {hs : Handle} (h : s.h = some hs) (rs : Bool) (x : Byte) :
    sendFrame rs x s = .next (completed (emitAll (frameEvents hs rs x) s)) := by
  unfold sendFrame; rw [h]

theorem sendFrame_none {s : State} (h : s.h = none) (rs : Bool) (x : Byte) :
    sendFrame rs x s = .next (nullHandle s) := by
  unfold sendFrame; rw [h]

theorem writeBits_some {s : State} {hs : Handle} (h : s.h = some hs) (x : Byte) :
    writeBits x hs.w s = .next (completed (emitAll (writeEvents hs x) s)) := by
  unfold writeBits; rw [h]; simp

theorem writeEvents_not_release (hs : Handle) (x : Byte) : ∀ ev ∈ writeEvents hs x, ev.isRelease = false := by
  intro ev hev
  unfold writeEvents at hev
  cases hrw : hs.rw with
  | none => simp [hrw] at hev; rcases hev with h | h | h | h | h | h | h <;> subst h <;> rfl
  | some q => simp [hrw] at hev; rcases hev with h | h | h | h | h | h | h | h <;> subst h <;> rfl

theorem byteEvents_not_release (hs : Handle) (x : Byte) : ∀ ev ∈ byteEvents hs x, ev.isRelease = false := by
  intro ev hev
  unfold byteEvents at hev
  split at hev
  · exact writeEvents_not_release _ _ ev hev
  · rcases List.mem_append.1 hev with h | h <;> exact writeEvents_not_release _ _ ev h

theorem frameEvents_not_release (hs : Handle) (rs : Bool) (x : Byte) :
    ∀ ev ∈ frameEvents hs rs x, ev.isRelease = false := by
  intro ev hev
  rcases List.mem_cons.1 hev with h | h
  · subst h; rfl
  · exact byteEvents_not_release _ _ ev h

/-! ### Reads -/

theorem minDuration_append (p : Params) (xs ys : List Event) :
    minDuration p (xs ++ ys) = minDuration p xs + minDuration p ys := by simp [minDuration]

theorem minDuration_gets (p : Params) (ps : List Pin) (bs : List Bool) :
    minDuration p (List.zipWith Event.get ps bs) = 0 := by
  induction ps generalizing bs with
  | nil => rfl
  | cons q ps ih =>
    cases bs with
    | nil => rfl
    | cons b bs => simpa [minDuration, Params.eventNs] using ih bs

theorem portAfter_append (free : PinState) (pt : Port) (xs ys : List Event) :
    portAfter free pt (xs ++ ys) = portAfter free (portAfter free pt xs) ys := by simp [portAfter, List.foldl_append]

theorem portAfter_gets (free : PinState) (pt : Port) (ps : List Pin) (bs : List Bool) :
    portAfter free pt (List.zipWith Event.get ps bs) = pt := by
  induction ps generalizing bs with
  | nil => rfl
  | cons q ps ih =>
    cases bs with
    | nil => rfl
    | cons b bs => exact ih bs

theorem readLines_unwired {hs : Handle} (h : hs.rw = none) (s : State) : readLines hs s = (sentinel hs.w, s) := by
  unfold readLines; rw [h]

theorem readLines_wired {hs : Handle} {q : Pin} (h : hs.rw = some q) (s : State) :
    readLines hs s =
      (gather (sampleLines hs.d
          (emitAll [.setDirMask hs.mask .inp, .put q true, .wait .setup, .put hs.e true, .wait .pulse] s)).1,
        emitAll [.put hs.e false, .wait .hold] (sampleLines hs.d
          (emitAll [.setDirMask hs.mask .inp, .put q true, .wait .setup, .put hs.e true, .wait .pulse] s)).2) := by
  unfold readLines; rw [h]

/-- Everything a wired read transfer does, for whatever the oracle answers (R145): its answers, its trace, what it leaves
alone; and where answers are lined up, those are the ones read. -/
theorem readLines_spec {hs : Handle} {q : Pin} (h : hs.rw = some q) (s : State) :
    ∃ bs, bs.length = hs.d.length ∧ (readLines hs s).1 = gather bs ∧
      (readLines hs s).2.trace = s.trace ++ readEvents hs q bs ∧
      SameSetup s (readLines hs s).2 ∧ (readLines hs s).2.lastRead = s.lastRead ∧
      (readLines hs s).2.outcome = s.outcome ∧
      (readLines hs s).2.clock = s.clock + minDuration s.params (readEvents hs q bs) ∧
      (readLines hs s).2.phase = s.phase.plus (readEvents hs q bs).length ∧
      (∀ free, (readLines hs s).2.port = portAfter free s.port (readEvents hs q bs)) ∧
      (∀ as rest, s.oracle = as ++ rest → as.length = hs.d.length → bs = as ∧ (readLines hs s).2.oracle = rest) := by
  rw [readLines_wired h]
  obtain ⟨s1, hs1⟩ : ∃ s1, s1 = emitAll
      [.setDirMask hs.mask .inp, .put q true, .wait .setup, .put hs.e true, .wait .pulse] s := ⟨_, rfl⟩
  rw [← hs1]
  obtain ⟨f1, f2, f3, f4, f5, f6, f7, f8, f9, f10, f11, f12, f13, f14⟩ := sampleLines_frame hs.d s1
  have hlen := sampleLines_length hs.d s1
  refine ⟨(sampleLines hs.d s1).1, hlen, rfl, ?_, ?_, ?_, ?_, ?_, ?_, ?_, ?_⟩
  · rw [emitAll_trace, sampleLines_trace, hs1, emitAll_trace]
    simp only [readEvents, List.append_assoc]
  · have := (sampleLines_sameSetup hs.d s1).trans (emitAll_sameSetup [.put hs.e false, .wait .hold] _)
    rw [hs1] at this ⊢
    exact (emitAll_sameSetup _ s).trans this
  · rw [emitAll_lastRead, f9, hs1, emitAll_lastRead]
  · rw [emitAll_outcome, f11, hs1, emitAll_outcome]
  · rw [emitAll_clock, f1, f12, readEvents, minDuration_append, minDuration_append, minDuration_gets, hs1,
      emitAll_clock, emitAll_params]
    omega
  · rw [emitAll_phase, f14, readEvents, hs1, emitAll_phase, phase_plus_add, phase_plus_add]
    simp only [List.length_append, List.length_zipWith, ← hs1, hlen, Nat.min_self, Nat.add_assoc]
  · intro free
    have nr1 : ∀ ev ∈ [Event.setDirMask hs.mask .inp, .put q true, .wait .setup, .put hs.e true, .wait .pulse],
        ev.isRelease = false := by simp [Event.isRelease]
    have nr2 : ∀ ev ∈ [Event.put hs.e false, .wait .hold], ev.isRelease = false := by simp [Event.isRelease]
    rw [emitAll_port nr2 free, f3, readEvents, portAfter_append, portAfter_append, portAfter_gets, hs1,
      emitAll_port nr1 free]
  · intro as rest ho hl
    have := sampleLines_oracle hs.d s1 (bs := as) (rest := rest) hl (by rw [hs1, emitAll_oracle, ho])
    exact ⟨this.1, by rw [emitAll_oracle]; exact this.2⟩

/-! ### Read frames -/

/-- Everything `readByte` does through a wired RW pin (R166). -/
theorem readByte_spec {hs : Handle} {q : Pin} (h : hs.rw = some q) (hd : hs.d.length = hs.w.bits) (s : State) :
    ∃ bs, bs.length = 8 ∧ (readByte hs s).1 = answeredByte hs.w bs ∧
      (readByte hs s).2.trace = s.trace ++ (readFrameEvents hs false bs).tail ∧
      SameSetup s (readByte hs s).2 ∧ (readByte hs s).2.lastRead = s.lastRead ∧
      (readByte hs s).2.outcome = s.outcome ∧
      (readByte hs s).2.clock = s.clock + minDuration s.params (readFrameEvents hs false bs).tail ∧
      (readByte hs s).2.phase = s.phase.plus (readFrameEvents hs false bs).tail.length ∧
      (∀ free, (readByte hs s).2.port = portAfter free s.port (readFrameEvents hs false bs).tail) ∧
      (∀ as rest, s.oracle = as ++ rest → as.length = 8 → bs = as ∧ (readByte hs s).2.oracle = rest) := by
  cases hw : hs.w with
  | eight =>
    obtain ⟨bs, h1, h2, h3, h4, h5, h6, h7, h8, h9, h10⟩ := readLines_spec h s
    have hr : readByte hs s = readLines hs s := by unfold readByte; rw [hw]
    have he : (readFrameEvents hs false bs).tail = readEvents hs q bs := by simp [readFrameEvents, h, hw]
    rw [hr]
    have hd8 : hs.d.length = 8 := by rw [hd, hw]; rfl
    exact ⟨bs, h1.trans hd8, h2, by rw [he]; exact h3, h4, h5, h6, by rw [he]; exact h7, by rw [he]; exact h8,
      fun free => by rw [he]; exact h9 free, fun as rest ho hl => h10 as rest ho (hl.trans hd8.symm)⟩
  | four =>
    have hd4 : hs.d.length = 4 := by rw [hd, hw]; rfl
    obtain ⟨hi, h1, h2, h3, h4, h5, h6, h7, h8, h9, h10⟩ := readLines_spec h s
    obtain ⟨lo, l1, l2, l3, l4, l5, l6, l7, l8, l9, l10⟩ := readLines_spec h (readLines hs s).2
    have hr : readByte hs s = (((readLines hs s).1 <<< 4) ||| (readLines hs (readLines hs s).2).1,
        (readLines hs (readLines hs s).2).2) := by unfold readByte; rw [hw]
    have hi4 : hi.length = 4 := h1.trans hd4
    have lo4 : lo.length = 4 := l1.trans hd4
    have ht : (hi ++ lo).take 4 = hi := by rw [← hi4]; exact List.take_left
    have hdr : (hi ++ lo).drop 4 = lo := by rw [← hi4]; exact List.drop_left
    have he : (readFrameEvents hs false (hi ++ lo)).tail = readEvents hs q hi ++ readEvents hs q lo := by
      simp only [readFrameEvents, h, hw, ht, hdr, List.tail_cons]
    rw [hr]
    refine ⟨hi ++ lo, by simp [hi4, lo4], ?_, ?_, h4.trans l4, by rw [l5, h5], by rw [l6, h6], ?_, ?_, ?_, ?_⟩
    · simp only [answeredByte, ht, hdr, h2, l2]
    · rw [l3, h3, he, List.append_assoc]
    · rw [l7, h7, h4.params, he, minDuration_append, Nat.add_assoc]
    · rw [l8, h8, he, phase_plus_add, List.length_append]
    · intro free; rw [l9 free, h9 free, he, portAfter_append]
    · intro as rest ho hl
      have e1 := h10 (as.take 4) (as.drop 4 ++ rest) (by rw [← List.append_assoc, List.take_append_drop, ho])
        (by rw [List.length_take, hl, hd4]; rfl)
      have e2 := l10 (as.drop 4) rest e1.2 (by rw [List.length_drop, hl, hd4])
      exact ⟨by rw [e1.1, e2.1, List.take_append_drop], e2.2⟩

/-- With RW not wired `readByte` emits nothing and its byte is the sentinel 0xFF (R147, R166). -/
theorem readByte_unwired {hs : Handle} (h : hs.rw = none) (s : State) : readByte hs s = (0xFF, s) := by
  unfold readByte
  cases hw : hs.w <;> simp only [readLines_unwired h, hw] <;> rfl

/-- Everything a read frame does through a wired RW pin (R165, R168). -/
theorem readWith_spec {hs : Handle} {q : Pin} (h : hs.rw = some q) (hd : hs.d.length = hs.w.bits) (rs : Bool)
    (s : State) :
    ∃ bs, bs.length = 8 ∧ (readWith rs hs s).1 = answeredByte hs.w bs ∧
      (readWith rs hs s).2.trace = s.trace ++ readFrameEvents hs rs bs ∧
      SameSetup s (readWith rs hs s).2 ∧ (readWith rs hs s).2.lastRead = s.lastRead ∧
      (readWith rs hs s).2.outcome = s.outcome ∧
      (readWith rs hs s).2.clock = s.clock + minDuration s.params (readFrameEvents hs rs bs) ∧
      (readWith rs hs s).2.phase = s.phase.plus (readFrameEvents hs rs bs).length ∧
      (∀ free, (readWith rs hs s).2.port = portAfter free s.port (readFrameEvents hs rs bs)) ∧
      (∀ as rest, s.oracle = as ++ rest → as.length = 8 → bs = as ∧ (readWith rs hs s).2.oracle = rest) := by
  obtain ⟨bs, h1, h2, h3, h4, h5, h6, h7, h8, h9, h10⟩ := readByte_spec h hd (emit (.put hs.rs rs) s)
  have he : readFrameEvents hs rs bs = .put hs.rs rs :: (readFrameEvents hs false bs).tail := by
    simp only [readFrameEvents, List.tail_cons]
  unfold readWith
  refine ⟨bs, h1, h2, ?_, (emit_sameSetup _ s).trans h4, h5, h6, ?_, ?_, ?_, h10⟩
  · rw [h3, he]; simp
  · rw [h7, he, emit_clock, emit_params, Nat.add_assoc]; rfl
  · rw [h8, he, emit_phase, phase_advance_eq, phase_plus_add, List.length_cons, Nat.add_comm 1]
  · intro free; rw [h9 free, he, emit_port, apply_free_irrelevant (g := free) rfl]; rfl

/-- With RW not wired a read frame drives RS and brings back 0xFF (R167, R168). -/
theorem readWith_unwired {hs : Handle} (h : hs.rw = none) (rs : Bool) (s : State) :
    readWith rs hs s = (0xFF, emit (.put hs.rs rs) s) := by
  unfold readWith; exact readByte_unwired h _

theorem readFrame_some {s : State} {hs : Handle} (h : s.h = some hs) (rs : Bool) :
    readFrame rs s = .next (completedRead hs (readWith rs hs s).1 (readWith rs hs s).2) := by
  unfold readFrame; rw [h]

theorem readFrame_none {s : State} (h : s.h = none) (rs : Bool) : readFrame rs s = .next (nullRead s) := by
  unfold readFrame; rw [h]

end Sys2Proof.Machine
end

