-- ==== Sys2Proof/Laws/Port.lean ====
section
/-! SUPPORT. What each event does to the pins, and what a transfer leaves on the lines. -/

namespace Sys2Proof.Machine

/-! ### One event, pin by pin -/

theorem maskPins_nodup (m : Nat) : (maskPins m).Nodup := List.nodup_range.filter _

/-- A group update changes each of its pins once (R74). -/
theorem foldl_pinUpdate_get (f : Pin → PinState → PinState) (ps : List Pin) (hn : ps.Nodup)
    (m : List (Nat × PinState)) (q : Pin) :
    pinGet q (ps.foldl (fun acc p => pinUpdate (f p) acc p) m) = if q ∈ ps then f q (pinGet q m) else pinGet q m := by
  induction ps generalizing m with
  | nil => simp
  | cons p ps ih =>
    rw [List.nodup_cons] at hn
    rw [List.foldl_cons, ih hn.2, pinUpdate_get]
    by_cases h : q = p
    · subst h; simp [hn.1]
    · simp [h]

theorem foldl_pinUpdate_wf (f : Pin → PinState → PinState) (ps : List Pin) {m : List (Nat × PinState)}
    (h : PinsWf m) : PinsWf (ps.foldl (fun acc p => pinUpdate (f p) acc p) m) := by
  induction ps generalizing m with
  | nil => exact h
  | cons p ps ih => exact ih (pinUpdate_wf h)

section Get

variable (free : PinState) (pt : Port) (q : Pin)

@[simp] theorem get_initLine (p : Pin) : pinGet q (pt.apply free (.initLine p)).pins =
    if q = p then PinState.undriven else pinGet q pt.pins := by
  simp only [Port.apply, pinGet_set]

@[simp] theorem get_initMask (m : Nat) : pinGet q (pt.apply free (.initMask m)).pins =
    if m.testBit q then PinState.undriven else pinGet q pt.pins := by
  simp only [← mem_maskPins]
  exact foldl_pinUpdate_get (fun _ _ => PinState.undriven) _ (maskPins_nodup m) _ q

@[simp] theorem get_setDir (p : Pin) (d : Dir) : pinGet q (pt.apply free (.setDir p d)).pins =
    if q = p then { pinGet q pt.pins with dir := d } else pinGet q pt.pins := by
  simp only [Port.apply, pinUpdate_get]

@[simp] theorem get_setDirMask (m : Nat) (d : Dir) : pinGet q (pt.apply free (.setDirMask m d)).pins =
    if m.testBit q then { pinGet q pt.pins with dir := d } else pinGet q pt.pins := by
  simp only [← mem_maskPins]
  exact foldl_pinUpdate_get (fun _ st => { st with dir := d }) _ (maskPins_nodup m) _ q

@[simp] theorem get_put (p : Pin) (b : Bool) : pinGet q (pt.apply free (.put p b)).pins =
    if q = p then { pinGet q pt.pins with latch := Level.ofBool b } else pinGet q pt.pins := by
  simp only [Port.apply, pinUpdate_get]

@[simp] theorem get_putMask (m v : Nat) : pinGet q (pt.apply free (.putMask m v)).pins =
    if m.testBit q then { pinGet q pt.pins with latch := Level.ofBool (v.testBit q) } else pinGet q pt.pins := by
  simp only [← mem_maskPins]
  exact foldl_pinUpdate_get (fun p st => { st with latch := Level.ofBool (v.testBit p) }) _ (maskPins_nodup m) _ q

@[simp] theorem get_release (p : Pin) : pinGet q (pt.apply free (.release p)).pins =
    if q = p then free else pinGet q pt.pins := by
  simp only [Port.apply, pinGet_set]

@[simp] theorem apply_get (p : Pin) (b : Bool) : pt.apply free (.get p b) = pt := rfl
@[simp] theorem apply_wait (t : Delay) : pt.apply free (.wait t) = pt := rfl

@[simp] theorem busDir_initLine (p : Pin) : (pt.apply free (.initLine p)).busDir = pt.busDir := rfl
@[simp] theorem busDir_initMask (m : Nat) : (pt.apply free (.initMask m)).busDir = pt.busDir := rfl
@[simp] theorem busDir_setDir (p : Pin) (d : Dir) : (pt.apply free (.setDir p d)).busDir = pt.busDir := rfl
@[simp] theorem busDir_setDirMask (m : Nat) (d : Dir) : (pt.apply free (.setDirMask m d)).busDir = d := rfl
@[simp] theorem busDir_put (p : Pin) (b : Bool) : (pt.apply free (.put p b)).busDir = pt.busDir := rfl
@[simp] theorem busDir_putMask (m v : Nat) : (pt.apply free (.putMask m v)).busDir = pt.busDir := rfl
@[simp] theorem busDir_release (p : Pin) : (pt.apply free (.release p)).busDir = pt.busDir := rfl

@[simp] theorem owned_setDir (p : Pin) (d : Dir) : (pt.apply free (.setDir p d)).owned = pt.owned := rfl
@[simp] theorem owned_setDirMask (m : Nat) (d : Dir) : (pt.apply free (.setDirMask m d)).owned = pt.owned := rfl
@[simp] theorem owned_put (p : Pin) (b : Bool) : (pt.apply free (.put p b)).owned = pt.owned := rfl
@[simp] theorem owned_putMask (m v : Nat) : (pt.apply free (.putMask m v)).owned = pt.owned := rfl

end Get

theorem mem_owned_initLine (free : PinState) (pt : Port) (p q : Pin) :
    q ∈ (pt.apply free (.initLine p)).owned ↔ q = p ∨ q ∈ pt.owned := mem_ownedInsert ..

theorem mem_owned_initMask (free : PinState) (pt : Port) (m : Nat) (q : Pin) :
    q ∈ (pt.apply free (.initMask m)).owned ↔ m.testBit q = true ∨ q ∈ pt.owned := by
  rw [← mem_maskPins]; exact mem_ownedInsert_foldl ..

/-- Every event keeps the canonical form of the pins. -/
theorem apply_wf {free : PinState} {pt : Port} (h : PinsWf pt.pins) (ev : Event) : PinsWf (pt.apply free ev).pins := by
  cases ev with
  | initLine p => exact pinSet_wf (st := PinState.undriven) (p := p) h
  | initMask m => exact foldl_pinUpdate_wf (fun _ _ => PinState.undriven) _ h
  | setDir p d => exact pinUpdate_wf (f := fun st => { st with dir := d }) (p := p) h
  | setDirMask m d => exact foldl_pinUpdate_wf (fun _ st => { st with dir := d }) _ h
  | put p b => exact pinUpdate_wf (f := fun st => { st with latch := Level.ofBool b }) (p := p) h
  | putMask m v => exact foldl_pinUpdate_wf (fun p st => { st with latch := Level.ofBool (v.testBit p) }) _ h
  | get p b => exact h
  | wait t => exact h
  | release p => exact pinSet_wf (st := free) (p := p) h

theorem portAfter_wf {free : PinState} {pt : Port} (h : PinsWf pt.pins) (evs : List Event) :
    PinsWf (portAfter free pt evs).pins := by
  induction evs generalizing pt with
  | nil => exact h
  | cons e es ih => exact ih (apply_wf h e)

theorem portAfter_cons (free : PinState) (pt : Port) (ev : Event) (evs : List Event) :
    portAfter free pt (ev :: evs) = portAfter free (pt.apply free ev) evs := rfl

@[simp] theorem portAfter_nil (free : PinState) (pt : Port) : portAfter free pt [] = pt := rfl

/-! ### spread and gather (R18) -/

theorem testBit_ite_shiftOne (b : Bool) (p q : Pin) :
    (if b then 1 <<< p else 0).testBit q = (b && decide (q = p)) := by
  cases b
  · simp
  · simpa only [if_true, Bool.true_and] using testBit_shiftOne p q

theorem spread_testBit_outside {d : List Pin} (x : Byte) {p : Pin} (h : p ∉ d) : (spread d x).testBit p = false := by
  induction d generalizing x with
  | nil => simp [spread]
  | cons q d ih =>
    rw [List.mem_cons, not_or] at h
    rw [spread, Nat.testBit_or, testBit_ite_shiftOne, ih _ h.2]
    simp [h.1]

/-- Line i carries bit i. -/
theorem spread_testBit {d : List Pin} (hn : d.Nodup) (x : Byte) {i : Nat} {p : Pin} (h : d[i]? = some p) :
    (spread d x).testBit p = x.getLsbD i := by
  induction d generalizing x i with
  | nil => simp at h
  | cons q d ih =>
    rw [List.nodup_cons] at hn
    rw [spread, Nat.testBit_or, testBit_ite_shiftOne]
    cases i with
    | zero =>
      obtain rfl : q = p := by simpa using h
      rw [spread_testBit_outside _ hn.1]; simp
    | succ i =>
      have h' : d[i]? = some p := by simpa using h
      have hp : p ≠ q := fun e => hn.1 (by rw [← e]; exact List.mem_of_getElem? h')
      rw [ih hn.2 _ h', BitVec.getLsbD_ushiftRight, Nat.add_comm]
      simp [hp]

/-! ### The pins of a handle are apart (R8) -/

section Apart

variable {p : Params} {hs : Handle} (w : hs.Wf p)

include w

theorem Handle.Wf.apart :
    hs.rs ≠ hs.e ∧ hs.rs ∉ hs.d ∧ hs.e ∉ hs.d ∧ hs.d.Nodup ∧
      ∀ q, hs.rw = some q → q ≠ hs.rs ∧ q ≠ hs.e ∧ q ∉ hs.d := by
  have h := w.distinct
  unfold Handle.pins at h
  rw [List.nodup_cons, List.nodup_cons, List.nodup_append] at h
  obtain ⟨h1, h2, -, h4, h5⟩ := h
  simp only [List.mem_cons, List.mem_append, not_or] at h1 h2
  refine ⟨h1.1, h1.2.2, h2.2, h4, fun q hq => ⟨?_, ?_, ?_⟩⟩
  · rintro rfl; exact h1.2.1 (by simp [hq])
  · rintro rfl; exact h2.1 (by simp [hq])
  · intro hm; exact h5 q (by simp [hq]) q hm rfl

theorem Handle.Wf.mask_testBit (q : Pin) : hs.mask.testBit q = decide (q ∈ hs.d) := by
  rw [w.mask, testBit_maskOf]

end Apart

/-! ### What a transfer leaves on the pins -/

section Lines

variable {p : Params} {hs : Handle} (w : hs.Wf p) (free : PinState) (pt : Port)

include w

/-- Every pin after a write transfer (R140, R141, R76). -/
theorem writeEvents_get (x : Byte) (q : Pin) :
    pinGet q (portAfter free pt (writeEvents hs x)).pins =
      if q ∈ hs.d then
        ⟨if hs.wired then .out else (pinGet q pt.pins).dir,
          Level.ofBool ((spread hs.d (lowBits hs.w x)).testBit q)⟩
      else if q = hs.e ∨ hs.rw = some q then { pinGet q pt.pins with latch := .lo }
      else pinGet q pt.pins := by
  obtain ⟨-, -, hed, -, hq⟩ := w.apart
  unfold writeEvents
  by_cases hd : q ∈ hs.d
  · have he : q ≠ hs.e := fun e => hed (e ▸ hd)
    cases hrw : hs.rw with
    | none => simp [portAfter_cons, w.mask_testBit, Handle.wired, hrw, hd, he]
    | some r =>
      have hr : q ≠ r := fun e => (hq r hrw).2.2 (e ▸ hd)
      simp [portAfter_cons, w.mask_testBit, Handle.wired, hrw, hd, he, hr]
  · cases hrw : hs.rw with
    | none => by_cases he : q = hs.e <;> simp [portAfter_cons, w.mask_testBit, hd, he, hed, Level.ofBool]
    | some r =>
      have := (hq r hrw).2
      by_cases he : q = hs.e <;> by_cases hr : q = r <;>
        simp_all [portAfter_cons, w.mask_testBit, Level.ofBool, eq_comm]

/-- Every pin after a read transfer (R145, R146). -/
theorem readEvents_get {r : Pin} (hr : hs.rw = some r) (bs : List Bool) (q : Pin) :
    pinGet q (portAfter free pt (readEvents hs r bs)).pins =
      if q ∈ hs.d then { pinGet q pt.pins with dir := .inp }
      else if q = hs.e then { pinGet q pt.pins with latch := .lo }
      else if q = r then { pinGet q pt.pins with latch := .hi }
      else pinGet q pt.pins := by
  obtain ⟨-, -, hed, -, hq⟩ := w.apart
  have hq := hq r hr
  unfold readEvents
  rw [portAfter_append, portAfter_append, portAfter_gets]
  by_cases hd : q ∈ hs.d
  · have he : q ≠ hs.e := fun e => hed (e ▸ hd)
    have hr : q ≠ r := fun e => hq.2.2 (e ▸ hd)
    simp [portAfter_cons, w.mask_testBit, hd, he, hr]
  · by_cases he : q = hs.e <;> by_cases hr : q = r <;>
      simp_all [portAfter_cons, w.mask_testBit, Level.ofBool, eq_comm]

omit w

/-- The bus direction and the owned set after a write transfer. -/
theorem writeEvents_bus (x : Byte) :
    (portAfter free pt (writeEvents hs x)).busDir = (if hs.wired then .out else pt.busDir) ∧
      (portAfter free pt (writeEvents hs x)).owned = pt.owned := by
  unfold writeEvents
  cases hrw : hs.rw <;> simp [portAfter_cons, Handle.wired, hrw]

/-- The bus direction and the owned set after a read transfer. -/
theorem readEvents_bus (r : Pin) (bs : List Bool) :
    (portAfter free pt (readEvents hs r bs)).busDir = .inp ∧
      (portAfter free pt (readEvents hs r bs)).owned = pt.owned := by
  unfold readEvents
  rw [portAfter_append, portAfter_append, portAfter_gets]
  simp [portAfter_cons]

end Lines

/-! ### The lines between transfers (R49 to R52) -/

theorem level_of_get {pt pu : Port} {q : Pin} (h : pinGet q pu.pins = pinGet q pt.pins) : pu.level q = pt.level q := by
  unfold Port.level; rw [h]

/-- On a driven line the controller samples what is driven; the free value is left to lines at Z. -/
theorem sampled_of_level {s : State} {p : Pin} {b : Bool} (h : s.port.level p = Level.ofBool b) : sampled s p = b := by
  unfold sampled; rw [h]; cases b <;> rfl

/-- A pin that is driven is an output, and keeps being one when only its latch changes. -/
theorem level_latch {pt pu : Port} {q : Pin} {l : Level} (hl : pt.level q = .lo ∨ pt.level q = .hi)
    (h : pinGet q pu.pins = { pinGet q pt.pins with latch := l }) : pu.level q = l := by
  unfold Port.level at hl ⊢
  rw [h]
  cases hd : (pinGet q pt.pins).dir with
  | out => rfl
  | inp => rw [hd] at hl; simp at hl

section Ok

variable {p : Params} {hs : Handle} (w : hs.Wf p) (free : PinState) {pt : Port} (ok : LinesOk hs pt)

include w ok

/-- Driving RS keeps the lines as they should be. -/
theorem putRs_linesOk (b : Bool) :
    LinesOk hs (pt.apply free (.put hs.rs b)) ∧ (pt.apply free (.put hs.rs b)).level hs.rs = Level.ofBool b ∧
      (∀ q, q ≠ hs.rs → (pt.apply free (.put hs.rs b)).level q = pt.level q) := by
  obtain ⟨hre, hrd, -, -, hq⟩ := w.apart
  have other : ∀ q, q ≠ hs.rs → (pt.apply free (.put hs.rs b)).level q = pt.level q :=
    fun q h => level_of_get (by simp [h])
  have self : (pt.apply free (.put hs.rs b)).level hs.rs = Level.ofBool b :=
    level_latch ok.rsOut (by simp)
  refine ⟨⟨?_, ?_, ?_, ?_, ?_, ok.unwired⟩, self, other⟩
  · rw [other _ (Ne.symm hre)]; exact ok.eLow
  · rw [self]; cases b <;> simp [Level.ofBool]
  · intro q h; rw [other _ (hq q h).1]; exact ok.rwOut q h
  · intro q h
    have : q ≠ hs.rs := fun e => hrd (e ▸ h)
    simpa [this] using ok.data q h
  · intro q h; rw [other _ (hq q h).1]; exact ok.noContention q h

/-- What a write transfer leaves on the lines (R141, R51). -/
theorem writeEvents_linesOk (x : Byte) :
    LinesOk hs (portAfter free pt (writeEvents hs x)) ∧
      (portAfter free pt (writeEvents hs x)).level hs.rs = pt.level hs.rs ∧
      (∀ q, hs.rw = some q → (portAfter free pt (writeEvents hs x)).level q = .lo) ∧
      (∀ q, q ∉ hs.pins → (portAfter free pt (writeEvents hs x)).level q = pt.level q) := by
  obtain ⟨hre, hrd, hed, -, hq⟩ := w.apart
  have rs : (portAfter free pt (writeEvents hs x)).level hs.rs = pt.level hs.rs := by
    refine level_of_get ?_
    rw [writeEvents_get w, if_neg hrd, if_neg]
    rintro (h | h)
    · exact hre h
    · exact (hq _ h).1 rfl
  have rw : ∀ q, hs.rw = some q → (portAfter free pt (writeEvents hs x)).level q = .lo := by
    intro q h
    refine level_latch (ok.rwOut q h) ?_
    rw [writeEvents_get w, if_neg (hq q h).2.2, if_pos (.inr h)]
  have bus := (writeEvents_bus (hs := hs) free pt x).1
  refine ⟨⟨?_, ?_, fun q h => .inl (rw q h), ?_, fun q h hi => ?_, fun h => ?_⟩, rs, rw, ?_⟩
  · refine level_latch (.inl ok.eLow) ?_
    rw [writeEvents_get w, if_neg hed, if_pos (.inl rfl)]
  · rw [rs]; exact ok.rsOut
  · intro q h
    rw [writeEvents_get w, if_pos h, bus]
    cases hs.wired <;> simp [ok.data q h]
  · rw [rw q h] at hi; cases hi
  · rw [bus, ok.unwired h]; cases hs.wired <;> rfl
  · intro q h
    refine level_of_get ?_
    unfold Handle.pins at h
    simp only [List.mem_cons, List.mem_append, Option.mem_toList, not_or] at h
    rw [writeEvents_get w, if_neg h.2.2.2, if_neg]
    rintro (e | e)
    · exact h.2.1 e
    · exact h.2.2.1 e

/-- What a read transfer leaves on the lines (R145, R146, R51). -/
theorem readEvents_linesOk {r : Pin} (hr : hs.rw = some r) (bs : List Bool) :
    LinesOk hs (portAfter free pt (readEvents hs r bs)) ∧
      (portAfter free pt (readEvents hs r bs)).level hs.rs = pt.level hs.rs ∧
      (portAfter free pt (readEvents hs r bs)).level r = .hi ∧
      (∀ q, q ∉ hs.pins → (portAfter free pt (readEvents hs r bs)).level q = pt.level q) := by
  obtain ⟨hre, hrd, hed, -, hq⟩ := w.apart
  obtain ⟨q1, q2, q3⟩ := hq r hr
  have rs : (portAfter free pt (readEvents hs r bs)).level hs.rs = pt.level hs.rs := by
    refine level_of_get ?_
    rw [readEvents_get w free pt hr, if_neg hrd, if_neg hre, if_neg (Ne.symm q1)]
  have rw : (portAfter free pt (readEvents hs r bs)).level r = .hi := by
    refine level_latch (ok.rwOut r hr) ?_
    rw [readEvents_get w free pt hr, if_neg q3, if_neg q2, if_pos rfl]
  have bus := (readEvents_bus (hs := hs) free pt r bs).1
  refine ⟨⟨?_, ?_, ?_, ?_, fun _ _ _ => bus, fun h => ?_⟩, rs, rw, ?_⟩
  · refine level_latch (.inl ok.eLow) ?_
    rw [readEvents_get w free pt hr, if_neg hed, if_pos rfl]
  · rw [rs]; exact ok.rsOut
  · intro q h
    obtain rfl : r = q := by rw [hr] at h; exact Option.some.inj h
    exact .inr rw
  · intro q h
    rw [readEvents_get w free pt hr, if_pos h, bus]
  · rw [hr] at h; cases h
  · intro q h
    refine level_of_get ?_
    unfold Handle.pins at h
    simp only [List.mem_cons, List.mem_append, Option.mem_toList, not_or] at h
    rw [readEvents_get w free pt hr, if_neg h.2.2.2, if_neg h.2.1, if_neg]
    rintro rfl
    exact h.2.2.1 hr

/-- What a write frame leaves on the lines: RS as the frame sets it, RW low (R163, R51, R52). -/
theorem frameEvents_linesOk (rs : Bool) (x : Byte) :
    LinesOk hs (portAfter free pt (frameEvents hs rs x)) ∧
      (portAfter free pt (frameEvents hs rs x)).level hs.rs = Level.ofBool rs ∧
      (∀ q, hs.rw = some q → (portAfter free pt (frameEvents hs rs x)).level q = .lo) ∧
      (∀ q, q ∉ hs.pins → (portAfter free pt (frameEvents hs rs x)).level q = pt.level q) := by
  obtain ⟨ok1, r1, o1⟩ := putRs_linesOk w free ok rs
  have ne : ∀ q, q ∉ hs.pins → q ≠ hs.rs := fun q h e => h (by simp [e, Handle.pins])
  unfold frameEvents byteEvents
  rw [portAfter_cons]
  cases hs.w with
  | eight =>
    obtain ⟨ok2, r2, w2, o2⟩ := writeEvents_linesOk w free ok1 x
    exact ⟨ok2, r2.trans r1, w2, fun q h => (o2 q h).trans (o1 q (ne q h))⟩
  | four =>
    obtain ⟨ok2, r2, -, o2⟩ := writeEvents_linesOk w free ok1 (x >>> 4)
    obtain ⟨ok3, r3, w3, o3⟩ := writeEvents_linesOk w free ok2 (x &&& 0xF)
    dsimp only
    rw [portAfter_append]
    exact ⟨ok3, (r3.trans r2).trans r1, w3, fun q h => ((o3 q h).trans (o2 q h)).trans (o1 q (ne q h))⟩

/-- What a read frame leaves on the lines: RS as the frame sets it and, when RW is wired, RW high (R165, R168, R51). -/
theorem readFrameEvents_linesOk (rs : Bool) (bs : List Bool) :
    LinesOk hs (portAfter free pt (readFrameEvents hs rs bs)) ∧
      (portAfter free pt (readFrameEvents hs rs bs)).level hs.rs = Level.ofBool rs ∧
      (∀ q, hs.rw = some q → (portAfter free pt (readFrameEvents hs rs bs)).level q = .hi) ∧
      (∀ q, q ∉ hs.pins → (portAfter free pt (readFrameEvents hs rs bs)).level q = pt.level q) := by
  obtain ⟨ok1, r1, o1⟩ := putRs_linesOk w free ok rs
  have ne : ∀ q, q ∉ hs.pins → q ≠ hs.rs := fun q h e => h (by simp [e, Handle.pins])
  unfold readFrameEvents
  rw [portAfter_cons]
  cases hrw : hs.rw with
  | none => exact ⟨ok1, r1, fun q h => absurd h (by simp), fun q h => o1 q (ne q h)⟩
  | some r =>
    have uniq : ∀ q, some r = some q → r = q := fun q h => Option.some.inj h
    cases hs.w with
    | eight =>
      obtain ⟨ok2, r2, w2, o2⟩ := readEvents_linesOk w free ok1 hrw bs
      exact ⟨ok2, r2.trans r1, fun q h => uniq q h ▸ w2, fun q h => (o2 q h).trans (o1 q (ne q h))⟩
    | four =>
      obtain ⟨ok2, r2, -, o2⟩ := readEvents_linesOk w free ok1 hrw (bs.take 4)
      obtain ⟨ok3, r3, w3, o3⟩ := readEvents_linesOk w free ok2 hrw (bs.drop 4)
      dsimp only
      rw [portAfter_append]
      exact ⟨ok3, (r3.trans r2).trans r1, fun q h => uniq q h ▸ w3,
        fun q h => ((o3 q h).trans (o2 q h)).trans (o1 q (ne q h))⟩

omit w ok

theorem frameEvents_bus (rs : Bool) (x : Byte) (pt : Port) :
    (portAfter free pt (frameEvents hs rs x)).busDir = (if hs.wired then .out else pt.busDir) ∧
      (portAfter free pt (frameEvents hs rs x)).owned = pt.owned := by
  unfold frameEvents byteEvents
  rw [portAfter_cons]
  cases hs.w with
  | eight =>
    obtain ⟨a, b⟩ := writeEvents_bus (hs := hs) free (pt.apply free (.put hs.rs rs)) x
    exact ⟨a, b⟩
  | four =>
    dsimp only
    rw [portAfter_append]
    obtain ⟨a, b⟩ := writeEvents_bus (hs := hs) free (pt.apply free (.put hs.rs rs)) (x >>> 4)
    obtain ⟨c, d⟩ := writeEvents_bus (hs := hs) free
      (portAfter free (pt.apply free (.put hs.rs rs)) (writeEvents hs (x >>> 4))) (x &&& 0xF)
    refine ⟨?_, d.trans b⟩
    rw [c, a]
    cases hs.wired <;> simp

theorem readFrameEvents_bus (rs : Bool) (bs : List Bool) (pt : Port) :
    (portAfter free pt (readFrameEvents hs rs bs)).busDir = (if hs.wired then .inp else pt.busDir) ∧
      (portAfter free pt (readFrameEvents hs rs bs)).owned = pt.owned := by
  unfold readFrameEvents
  rw [portAfter_cons]
  cases hrw : hs.rw with
  | none => simp [Handle.wired, hrw]
  | some r =>
    cases hs.w with
    | eight =>
      obtain ⟨a, b⟩ := readEvents_bus (hs := hs) free (pt.apply free (.put hs.rs rs)) r bs
      exact ⟨by simpa [Handle.wired, hrw] using a, b⟩
    | four =>
      dsimp only
      rw [portAfter_append]
      obtain ⟨a, b⟩ := readEvents_bus (hs := hs) free (pt.apply free (.put hs.rs rs)) r (bs.take 4)
      obtain ⟨c, d⟩ := readEvents_bus (hs := hs) free
        (portAfter free (pt.apply free (.put hs.rs rs)) (readEvents hs r (bs.take 4))) r (bs.drop 4)
      exact ⟨by simpa [Handle.wired, hrw] using c, d.trans b⟩

end Ok

end Sys2Proof.Machine
end

