-- ==== Sys2Proof/Laws/Sequencer.lean ====
section
/-! SUPPORT. The channel, the items and the step: when each goes on, and to what state. -/

namespace Sys2Proof.Machine

/-! ### Instructions as frames -/

/-- What `decodeCommand` answers for a byte agrees with the byte. -/
def commandAgrees (x : Byte) : Bool :=
  match decodeCommand x with
  | .ok i => i.byte == x && polls i
  | .error e => e == .reservedFrame && x == 0

theorem commandAgrees_all (x : Byte) : commandAgrees x = true := by
  have h : ∀ hi lo : Fin 16, commandAgrees (BitVec.ofNat 8 (16 * hi + lo)) = true := by decide
  have hx := h ⟨x.toNat / 16, by omega⟩ ⟨x.toNat % 16, by omega⟩
  rwa [show 16 * (x.toNat / 16) + x.toNat % 16 = x.toNat by omega, BitVec.ofNat_toNat, BitVec.setWidth_eq] at hx

/-- Every command instruction polls and is the frame of the byte it is decoded from. -/
theorem exec_of_decodeCommand {x : Byte} {i : Instr} (h : decodeCommand x = .ok i) :
    polls i = true ∧ ∀ s, exec i s = sendFrame false x s := by
  have hb := commandAgrees_all x
  unfold commandAgrees at hb
  rw [h] at hb
  simp only [Bool.and_eq_true, beq_iff_eq] at hb
  refine ⟨hb.2, fun s => ?_⟩
  have hx := hb.1
  unfold decodeCommand at h
  repeat' split at h
  all_goals first
    | (cases h; exact congrArg (fun y => sendFrame false y s) hx)
    | cases h

/-- The only byte that is no command is 0x00. -/
theorem decodeCommand_error {x : Byte} {e : DecodeError} (h : decodeCommand x = .error e) :
    e = .reservedFrame ∧ x = 0 := by
  have hb := commandAgrees_all x
  unfold commandAgrees at hb
  rw [h] at hb
  simpa only [Bool.and_eq_true, beq_iff_eq] using hb

theorem frameCode_rs (rs rw : Bool) (b : Byte) : (frameCode rs rw b).getLsbD 9 = rs := by
  unfold frameCode; cases rs <;> cases rw <;> simp

theorem frameCode_rw (rs rw : Bool) (b : Byte) : (frameCode rs rw b).getLsbD 8 = rw := by
  unfold frameCode; cases rs <;> cases rw <;> simp

theorem frameCode_byte (rs rw : Bool) (b : Byte) : (frameCode rs rw b).extractLsb' 0 8 = b := by
  unfold frameCode
  ext i hi
  have : i < 10 := by omega
  cases rs <;> cases rw <;> simp [hi] <;> interval_cases i <;> simp

/-- Decoding a frame code by its parts. -/
theorem decodeFrame_frameCode (rs rw : Bool) (b : Byte) :
    decodeFrame (frameCode rs rw b) =
      match rs, rw with
      | true, true => .ok (.readData b)
      | true, false => .ok (.writeData b)
      | false, true => .ok (.readBusyFlagAddress (b.getLsbD 7) (b.extractLsb' 0 7))
      | false, false => decodeCommand b := by
  cases rs <;> cases rw <;> simp only [decodeFrame, frameCode_rs, frameCode_rw, frameCode_byte]

/-! ### The channel -/

/-- A write frame of any byte goes through the poll and is framed as given (R160, R162). -/
theorem runCode_write (rs : Bool) (x : Byte) (s : State) :
    runCode (.frame (frameCode rs false x)) s = gated (sendFrame rs x) s := by
  unfold runCode decode
  simp only [decodeFrame_frameCode]
  cases rs with
  | true => rfl
  | false =>
    dsimp only
    cases h : decodeCommand x with
    | ok i =>
      obtain ⟨hp, he⟩ := exec_of_decodeCommand h
      dsimp only
      unfold runInstr
      rw [hp, if_pos rfl, funext he]
    | error e =>
      obtain ⟨rfl, rfl⟩ := decodeCommand_error h
      rfl

/-- The poll's turn on a handle whose RW is not wired: nothing (R164). -/
theorem pollOnce_unwired {hs : Handle} (h : hs.wired = false) (s : State) : pollOnce hs s = (true, s) := by
  unfold pollOnce; simp [h]

/-- Everything one turn of the poll does when RW is wired (R164): the answered byte's bit 7 decides. -/
theorem pollOnce_spec {hs : Handle} {q : Pin} (h : hs.rw = some q) (hd : hs.d.length = hs.w.bits) (s : State) :
    ∃ bs, bs.length = 8 ∧ (pollOnce hs s).1 = !(answeredByte hs.w bs).getLsbD 7 ∧
      (pollOnce hs s).2.trace = s.trace ++ readFrameEvents hs false bs ++
        (if (answeredByte hs.w bs).getLsbD 7 then [.wait .backoff] else []) ∧
      SameSetup s (pollOnce hs s).2 ∧ (pollOnce hs s).2.lastRead = s.lastRead ∧
      (pollOnce hs s).2.outcome = s.outcome ∧
      (∀ as rest, s.oracle = as ++ rest → as.length = 8 → bs = as ∧ (pollOnce hs s).2.oracle = rest) := by
  obtain ⟨bs, h1, h2, h3, h4, h5, h6, -, -, -, h10⟩ := readWith_spec h hd false s
  have hw : hs.wired = true := by simp [Handle.wired, h]
  refine ⟨bs, h1, ?_⟩
  unfold pollOnce
  rw [if_pos hw]
  dsimp only
  rw [h2]
  cases hb : (answeredByte hs.w bs).getLsbD 7 with
  | true =>
    simp only [if_pos]
    exact ⟨rfl, by simp [h3], h4.trans (emit_sameSetup _ _), by simp [h5], by simp [h6],
      fun as rest ho hl => ⟨(h10 as rest ho hl).1, by simpa using (h10 as rest ho hl).2⟩⟩
  | false =>
    simp only [Bool.false_eq_true, if_false]
    exact ⟨rfl, by simp [h3],
      ⟨h4.params, h4.h, h4.todo, h4.reqPort, h4.script, h4.foreign, h4.addr, h4.result⟩, by simp [h5], by simp [h6],
      fun as rest ho hl => ⟨(h10 as rest ho hl).1, by simpa using (h10 as rest ho hl).2⟩⟩

/-! ### The step -/

/-- No request is presented while another runs. -/
abbrev NoOverlap (s : State) : Prop := ¬ (s.phase ≠ .idle ∧ s.reqPort.isSome = true)

/-- With an item to do, a step runs it. -/
theorem step_item {s : State} {it : Item} {rest : List Item} (h : s.todo = it :: rest) (hn : NoOverlap s) :
    step s = runItem it s := by
  unfold step; rw [if_neg hn, h]

/-- In phase Idle with nothing to do, a step accepts the request at the port. -/
theorem step_request {s : State} {r : Request} (hi : s.phase = .idle) (ht : s.todo = []) (hp : s.reqPort = some r) :
    step s = accept r { s with reqPort := none } := by
  unfold step; rw [if_neg (by simp [hi]), ht, hp]

theorem steps_succ (n : Nat) (s : State) : steps (n + 1) s = andThen (step s) (steps n) := rfl

theorem steps_succ_of {n : Nat} {s t : State} (h : step s = .next t) : steps (n + 1) s = steps n t := by
  rw [steps_succ, h]; rfl

/-- Runs put together. -/
theorem steps_add {m n : Nat} {s t : State} (h : steps m s = .next t) : steps (m + n) s = steps n t := by
  induction m generalizing s with
  | zero =>
    have : s = t := by simpa [steps] using h
    rw [this, Nat.zero_add]
  | succ m ih =>
    rw [steps_succ, andThen_eq_next] at h
    obtain ⟨u, hu, hm⟩ := h
    rw [show m + 1 + n = (m + n) + 1 by omega, steps_succ_of hu, ih hm]

/-! ### One item passed while the controller is not busy -/

/-- A step from `s` to `t` that did one item: the events it emitted, what is left to do, and how many "not busy" answers are
still lined up. -/
structure Passed (hs : Handle) (s t : State) (evs : List Event) (n : Nat) : Prop where
  trace : t.trace = s.trace ++ evs
  todo : t.todo = s.todo.tail
  phase : t.phase = if s.todo.tail = [] then .idle else s.phase.plus evs.length
  params : t.params = s.params
  reqPort : t.reqPort = s.reqPort
  script : t.script = s.script
  foreign : t.foreign = s.foreign
  quiet : Quiet hs n t

/-- A gated write frame passes at once while the controller is not busy (R160, R162, R164). -/
theorem gated_sendFrame_quiet {s : State} {hs : Handle} (hh : s.h = some hs) (hd : hs.d.length = hs.w.bits) {n : Nat}
    (hq : Quiet hs (n + 1) s) (rs : Bool) (x : Byte) :
    ∃ t, gated (sendFrame rs x) s = .next t ∧ Passed hs s t (sentEvents hs rs x) n ∧ t.h = s.h ∧ t.addr = s.addr ∧
      t.result = s.result ∧ t.lastRead = s.lastRead ∧ t.outcome = .normal := by
  unfold gated
  rw [hh]
  dsimp only
  cases hrw : hs.rw with
  | none =>
    have hw : hs.wired = false := by simp [Handle.wired, hrw]
    rw [pollOnce_unwired hw]
    simp only [if_pos, sendFrame_some hh, andThen_next]
    refine ⟨_, rfl, ⟨?_, ?_, ?_, ?_, ?_, ?_, ?_, ?_⟩, ?_, ?_, ?_, ?_, ?_⟩ <;>
      simp [sentEvents, hw, emitAll_phase, Quiet, hh]
  | some q =>
    have hw : hs.wired = true := by simp [Handle.wired, hrw]
    obtain ⟨rest, ho⟩ := hq hw
    obtain ⟨bs, h1, h2, h3, h4, h5, h6, h10⟩ := pollOnce_spec hrw hd s
    have ho' : s.oracle = notBusy ++ (List.replicate (8 * n) false ++ rest) := by
      rw [ho, show 8 * (n + 1) = 8 + 8 * n by omega, List.replicate_add, List.append_assoc]; rfl
    obtain ⟨rfl, hrest⟩ := h10 notBusy _ ho' rfl
    have hfree : (answeredByte hs.w notBusy).getLsbD 7 = false := by
      cases hs.w <;> decide
    rw [hfree] at h2 h3
    have hph : (pollOnce hs s).2.phase = s.phase.plus (readFrameEvents hs false notBusy).length := by
      obtain ⟨bs', h1', h2', -, -, -, -, -, h8', -, h10'⟩ := readWith_spec hrw hd false s
      obtain ⟨rfl, -⟩ := h10' notBusy _ ho' rfl
      unfold pollOnce
      rw [if_pos hw]
      dsimp only
      rw [h2', hfree]
      exact h8'
    have hh1 : (pollOnce hs s).2.h = some hs := by rw [h4.h, hh]
    rw [show pollOnce hs s = (true, (pollOnce hs s).2) from Prod.ext (by simpa using h2) rfl]
    simp only [if_pos, sendFrame_some hh1, andThen_next]
    refine ⟨_, rfl, ⟨?_, ?_, ?_, ?_, ?_, ?_, ?_, ?_⟩, ?_, ?_, ?_, ?_, ?_⟩
    · simp [sentEvents, hw, h3]
    · simp [h4.todo]
    · simp [h4.todo, emitAll_phase, hph, phase_plus_add, sentEvents, hw]
    · simp [h4.params]
    · simp [h4.reqPort]
    · simp [h4.script]
    · simp [h4.foreign]
    · intro _; exact ⟨rest, by simpa using hrest⟩
    · simp [hh1]
    · simp [h4.addr]
    · simp [h4.result]
    · simp [h5]
    · simp

end Sys2Proof.Machine
end

