-- ==== Sys2Proof/Laws/Exec.lean ====
section
/-! SUPPORT. The three shapes of an instruction's meaning, everything an instruction that goes on has done, and the
controller's memories under any event. -/

namespace Sys2Proof.Machine

/-! ### Shapes -/

/-- What an instruction is to the channel: a write frame, a read frame, or a raw nibble. -/
inductive Shape where
  | write (rs : Bool) (x : Byte)
  | read (rs : Bool)
  | nibble (v : Byte)
  deriving DecidableEq, Repr

/-- The shape of each instruction. -/
def shapeOf : Instr → Shape
  | .clearDisplay => .write false Instr.clearDisplay.byte
  | .returnHome x => .write false (Instr.returnHome x).byte
  | .entryModeSet id sh => .write false (Instr.entryModeSet id sh).byte
  | .displayControl d c b => .write false (Instr.displayControl d c b).byte
  | .cursorDisplayShift sc rl x => .write false (Instr.cursorDisplayShift sc rl x).byte
  | .functionSet dl n f x => .write false (Instr.functionSet dl n f x).byte
  | .setCgramAddress a => .write false (Instr.setCgramAddress a).byte
  | .setDdramAddress a => .write false (Instr.setDdramAddress a).byte
  | .readBusyFlagAddress _ _ => .read false
  | .writeData d => .write true d
  | .readData _ => .read true
  | .initNibble3 => .nibble 0x03
  | .initNibble2 => .nibble 0x02

/-- What a shape does. -/
def Shape.run : Shape → State → Out
  | .write rs x => sendFrame rs x
  | .read rs => readFrame rs
  | .nibble v => writeBits v .four

theorem exec_eq_shape (i : Instr) (s : State) : exec i s = (shapeOf i).run s := by cases i <;> rfl

/-! ### The controller's memories -/

/-- Both memories in canonical form. -/
abbrev CtlWf (c : Controller) : Prop := c.ddram.Wf ∧ c.cgram.Wf

theorem unknown_wf (n : Nat) : CtlWf (Controller.unknown n) := ⟨ram_unknown_wf _, ram_unknown_wf _⟩

theorem moveAc_mem (p : Params) (inc : Bool) (c : Controller) :
    (Controller.moveAc p inc c).ddram = c.ddram ∧ (Controller.moveAc p inc c).cgram = c.cgram := by
  unfold Controller.moveAc; split <;> exact ⟨rfl, rfl⟩

/-- Away from the listed ends of its memory in its line mode, the counter moves by one. -/
theorem moveAc_off_edge {p : Params} {inc : Bool} {c : Controller} (h : c.edgeAt inc ∉ p.acEdges) :
    Controller.moveAc p inc c = { c with ac := if inc then c.ac + 1 else c.ac - 1 } := by
  simp [Controller.moveAc, h]

theorem autoscroll_mem (c : Controller) :
    (Controller.autoscroll c).ddram = c.ddram ∧ (Controller.autoscroll c).cgram = c.cgram := by
  unfold Controller.autoscroll; split <;> exact ⟨rfl, rfl⟩

theorem store_wf (d : Byte) {c : Controller} (h : CtlWf c) : CtlWf (Controller.store d c) := by
  unfold Controller.store
  cases c.space with
  | ddram => exact ⟨ram_write_wf h.1, h.2⟩
  | cgram => exact ⟨h.1, ram_write_wf h.2⟩

theorem perform_wf (p : Params) (now : Nat) {c : Controller} (h : CtlWf c) (i : Instr) :
    CtlWf (Controller.perform p now c i) := by
  cases i with
  | clearDisplay => exact ⟨by simp [Controller.perform, Ram.Wf, CellsSorted], h.2⟩
  | cursorDisplayShift sc rl x =>
    cases sc
    · have := moveAc_mem p rl c
      exact ⟨by simpa only [Controller.perform, this.1] using h.1, by simpa only [Controller.perform, this.2] using h.2⟩
    · exact h
  | writeData d =>
    have hs := store_wf d h
    have a := autoscroll_mem (Controller.store d c)
    have m := moveAc_mem p c.entryInc (Controller.autoscroll (Controller.store d c))
    exact ⟨by simpa only [Controller.perform, m.1, a.1] using hs.1,
      by simpa only [Controller.perform, m.2, a.2] using hs.2⟩
  | readData d =>
    have := moveAc_mem p c.entryInc c
    exact ⟨by simpa only [Controller.perform, this.1] using h.1, by simpa only [Controller.perform, this.2] using h.2⟩
  | _ => exact h

theorem complete_wf (p : Params) (now : Nat) (rs rw : Bool) (b : Byte) {c : Controller} (h : CtlWf c) :
    CtlWf (Controller.complete p now rs rw b c) := by
  unfold Controller.complete
  split
  · exact perform_wf p now h _
  · exact unknown_wf _

theorem latch_wf (p : Params) (now : Nat) (w : Width) (rs rw : Bool) (lines : Byte) {c : Controller} (h : CtlWf c) :
    CtlWf (Controller.latch p now w rs rw lines c) := by
  unfold Controller.latch
  split
  · exact unknown_wf _
  · dsimp only
    split
    · exact complete_wf _ _ _ _ _ h
    · exact h
    · exact complete_wf _ _ _ _ _ h

theorem ctlAfter_wf (ev : Event) {s : State} (h : CtlWf s.ctl) : CtlWf (ctlAfter ev s) := by
  unfold ctlAfter
  split
  · split
    · exact latch_wf _ _ _ _ _ _ h
    · exact h
  · exact h

theorem emitAll_ctlWf (evs : List Event) {s : State} (h : CtlWf s.ctl) : CtlWf (emitAll evs s).ctl := by
  induction evs generalizing s with
  | nil => exact h
  | cons e es ih => exact ih (ctlAfter_wf e h)

theorem readLines_ctlWf (hs : Handle) {s : State} (h : CtlWf s.ctl) : CtlWf (readLines hs s).2.ctl := by
  cases hrw : hs.rw with
  | none => rw [readLines_unwired hrw]; exact h
  | some q =>
    rw [readLines_wired hrw]
    refine emitAll_ctlWf _ ?_
    rw [(sampleLines_frame _ _).2.2.2.2.2.2.2.2.2.2.2.2.1]
    exact emitAll_ctlWf _ h

theorem readWith_ctlWf (rs : Bool) (hs : Handle) {s : State} (h : CtlWf s.ctl) : CtlWf (readWith rs hs s).2.ctl := by
  unfold readWith readByte
  have h0 : CtlWf (emit (.put hs.rs rs) s).ctl := ctlAfter_wf _ h
  cases hs.w with
  | eight => exact readLines_ctlWf hs h0
  | four => exact readLines_ctlWf hs (readLines_ctlWf hs h0)

/-! ### Everything an operation of the block has done when it goes on -/

/-- From `s` to `t`, events `evs` were emitted and nothing but what they do happened to the port; the setup is the same, the
phase and the least time have gone on by the events, and the controller's memories are still in canonical form. -/
structure Did (s t : State) (evs : List Event) : Prop where
  trace : t.trace = s.trace ++ evs
  port : ∀ free, t.port = portAfter free s.port evs
  setup : SameSetup s t
  phase : t.phase = s.phase.plus evs.length
  clock : t.clock = s.clock + minDuration s.params evs
  ctl : CtlWf s.ctl → CtlWf t.ctl

theorem Did.refl (s : State) : Did s s [] :=
  ⟨by simp, fun _ => rfl, SameSetup.refl s, (phase_plus_zero _).symm, by simp [minDuration], id⟩

theorem Did.trans {s t u : State} {xs ys : List Event} (a : Did s t xs) (b : Did t u ys) : Did s u (xs ++ ys) where
  trace := by rw [b.trace, a.trace, List.append_assoc]
  port free := by rw [b.port free, a.port free, portAfter_append]
  setup := a.setup.trans b.setup
  phase := by rw [b.phase, a.phase, phase_plus_add, List.length_append]
  clock := by rw [b.clock, a.clock, a.setup.params, minDuration_append, Nat.add_assoc]
  ctl h := b.ctl (a.ctl h)

theorem emitAll_did {evs : List Event} (h : ∀ ev ∈ evs, ev.isRelease = false) (s : State) : Did s (emitAll evs s) evs :=
  ⟨by simp, fun free => emitAll_port h free s, emitAll_sameSetup evs s, emitAll_phase evs s, by simp,
    emitAll_ctlWf evs⟩

/-- Recording the outcome and the byte read is not an event. -/
theorem Did.record {s t : State} {evs : List Event} (d : Did s t evs) (o : OutcomeCode) (b : Byte) :
    Did s { t with outcome := o, lastRead := b } evs :=
  ⟨d.trace, d.port, ⟨d.setup.1, d.setup.2, d.setup.3, d.setup.4, d.setup.5, d.setup.6, d.setup.7, d.setup.8⟩, d.phase,
    d.clock, d.ctl⟩

theorem completed_did {s t : State} {evs : List Event} (d : Did s t evs) : Did s (completed t) evs :=
  d.record .normal t.lastRead

/-- A read frame, wired or not. -/
theorem readWith_did {hs : Handle} (hd : hs.d.length = hs.w.bits) (rs : Bool) (s : State) :
    ∃ bs, Did s (readWith rs hs s).2 (readFrameEvents hs rs bs) := by
  cases hrw : hs.rw with
  | none =>
    refine ⟨[], ?_⟩
    rw [readWith_unwired hrw]
    have : readFrameEvents hs rs [] = [.put hs.rs rs] := by simp [readFrameEvents, hrw]
    rw [this]
    exact emitAll_did (evs := [.put hs.rs rs]) (by simp [Event.isRelease]) s
  | some q =>
    obtain ⟨bs, -, -, h3, h4, -, -, h7, h8, h9, -⟩ := readWith_spec hrw hd rs s
    exact ⟨bs, h3, h9, h4, h8, h7, fun h => readWith_ctlWf rs hs h⟩

/-- The events of each shape. -/
def Shape.Emits (hs : Handle) : Shape → List Event → Prop
  | .write rs x, evs => evs = frameEvents hs rs x
  | .read rs, evs => ∃ bs, evs = readFrameEvents hs rs bs
  | .nibble v, evs => hs.w = .four ∧ evs = writeEvents hs v

/-- Everything an instruction on a handle has done when it goes on. -/
theorem exec_did {s t : State} {hs : Handle} {i : Instr} (h : s.h = some hs) (hd : hs.d.length = hs.w.bits)
    (hx : exec i s = .next t) : ∃ evs, (shapeOf i).Emits hs evs ∧ Did s t evs := by
  rw [exec_eq_shape] at hx
  cases hi : shapeOf i with
  | write rs x =>
    rw [hi, Shape.run, sendFrame_some h] at hx
    cases hx
    exact ⟨_, rfl, completed_did (emitAll_did (frameEvents_not_release hs rs x) s)⟩
  | read rs =>
    rw [hi, Shape.run, readFrame_some h] at hx
    cases hx
    obtain ⟨bs, d⟩ := readWith_did hd rs s
    exact ⟨_, ⟨bs, rfl⟩, d.record _ _⟩
  | nibble v =>
    rw [hi] at hx
    simp only [Shape.run, writeBits, h] at hx
    split at hx
    · rename_i hw
      cases hx
      exact ⟨_, ⟨hw.symm, rfl⟩, completed_did (emitAll_did (writeEvents_not_release hs v) s)⟩
    · cases hx

/-- One turn of the poll: nothing, a status read, or a status read and the backoff wait (R164). -/
theorem pollOnce_did {hs : Handle} (hd : hs.d.length = hs.w.bits) (s : State) :
    ∃ evs, Did s (pollOnce hs s).2 evs ∧
      (evs = [] ∨ ∃ bs, evs = readFrameEvents hs false bs ∨ evs = readFrameEvents hs false bs ++ [.wait .backoff]) := by
  unfold pollOnce
  split
  · obtain ⟨bs, d⟩ := readWith_did hd false s
    dsimp only
    split
    · exact ⟨_, d.trans (emitAll_did (evs := [.wait .backoff]) (by simp [Event.isRelease]) _), .inr ⟨bs, .inr rfl⟩⟩
    · refine ⟨_, ⟨d.trace, d.port, ⟨d.setup.1, d.setup.2, d.setup.3, d.setup.4, d.setup.5, d.setup.6, d.setup.7,
        d.setup.8⟩, d.phase, d.clock, d.ctl⟩, .inr ⟨bs, .inl rfl⟩⟩
  · exact ⟨[], Did.refl s, .inl rfl⟩

/-- The lines after the events of any shape (R49 to R52). -/
theorem shape_linesOk {p : Params} {hs : Handle} (w : hs.Wf p) {pt : Port} (ok : LinesOk hs pt) (free : PinState)
    {sh : Shape} {evs : List Event} (he : sh.Emits hs evs) :
    LinesOk hs (portAfter free pt evs) ∧ (portAfter free pt evs).owned = pt.owned ∧
      (∀ q, q ∉ hs.pins → (portAfter free pt evs).level q = pt.level q) := by
  cases sh with
  | write rs x =>
    obtain rfl := he
    obtain ⟨a, -, -, b⟩ := frameEvents_linesOk w free ok rs x
    exact ⟨a, (frameEvents_bus free rs x pt).2, b⟩
  | read rs =>
    obtain ⟨bs, rfl⟩ := he
    obtain ⟨a, -, -, b⟩ := readFrameEvents_linesOk w free ok rs bs
    exact ⟨a, (readFrameEvents_bus free rs bs pt).2, b⟩
  | nibble v =>
    obtain ⟨-, rfl⟩ := he
    obtain ⟨a, -, -, b⟩ := writeEvents_linesOk w free ok v
    exact ⟨a, (writeEvents_bus free pt v).2, b⟩

/-! ### Step (b) of init (R184) -/

theorem lineEvents_not_release (hs : Handle) : ∀ ev ∈ lineEvents hs, ev.isRelease = false := by
  intro ev
  unfold lineEvents
  cases hs.rw <;> simp <;> rintro (h | h | h | h | h | h | h | h | h | h | h | h) <;> simp_all [Event.isRelease]

/-- Step (b) takes every pin of the handle, and no other. -/
theorem lineEvents_owned {p : Params} {hs : Handle} (w : hs.Wf p) (free : PinState) (pt : Port) (q : Pin) :
    q ∈ (portAfter free pt (lineEvents hs)).owned ↔ q ∈ hs.pins ∨ q ∈ pt.owned := by
  unfold lineEvents Handle.pins
  cases hs.rw <;> simp [portAfter_cons, mem_owned_initLine, mem_owned_initMask, w.mask_testBit] <;> tauto

/-- Step (b) leaves the lines configured, whatever they were. -/
theorem lineEvents_linesOk {p : Params} {hs : Handle} (w : hs.Wf p) (free : PinState) (pt : Port) :
    LinesOk hs (portAfter free pt (lineEvents hs)) := by
  obtain ⟨hre, hrd, hed, -, hq⟩ := w.apart
  unfold lineEvents
  cases hrw : hs.rw with
  | none =>
    constructor <;> simp [portAfter_cons, Port.level, w.mask_testBit, hrw, hre, hrd, hed, Level.ofBool]
    intro q hq
    simp [hq]
  | some r =>
    obtain ⟨q1, q2, q3⟩ := hq r hrw
    constructor <;> simp [portAfter_cons, Port.level, w.mask_testBit, hrw, hre, hrd, hed, Level.ofBool, q3,
      q1.symm, q2.symm]
    intro q hq
    simp [hq]

end Sys2Proof.Machine
end

