-- ==== Sys2Proof/Laws/PerInstr.lean ====
section
/-! SUPPORT. For each instruction: its code stands in its row of spec/opcode_table.json, in the row's length and
with the row's match under its mask. -/

namespace Sys2Proof.Laws.TableRow

open Sys2Proof

/-- A row of spec/opcode_table.json: how many bits its code has, its mask and its match. -/
structure Row where
  bits : Nat
  mask : Nat
  bitsSet : Nat
  deriving DecidableEq, Repr

/-- The row of each instruction. -/
def row : Instr → Row
  | .clearDisplay => ⟨10, 0x3FF, 0x001⟩
  | .returnHome _ => ⟨10, 0x3FE, 0x002⟩
  | .entryModeSet _ _ => ⟨10, 0x3FC, 0x004⟩
  | .displayControl _ _ _ => ⟨10, 0x3F8, 0x008⟩
  | .cursorDisplayShift _ _ _ => ⟨10, 0x3F0, 0x010⟩
  | .functionSet _ _ _ _ => ⟨10, 0x3E0, 0x020⟩
  | .setCgramAddress _ => ⟨10, 0x3C0, 0x040⟩
  | .setDdramAddress _ => ⟨10, 0x380, 0x080⟩
  | .readBusyFlagAddress _ _ => ⟨10, 0x300, 0x100⟩
  | .writeData _ => ⟨10, 0x300, 0x200⟩
  | .readData _ => ⟨10, 0x300, 0x300⟩
  | .initNibble3 => ⟨6, 0x3F, 0x03⟩
  | .initNibble2 => ⟨6, 0x3F, 0x02⟩

/-- A wire code's number of bits and its value. -/
def codeOf : WireCode → Nat × Nat
  | .frame c => (10, c.toNat)
  | .nibble c => (6, c.toNat)

/-- The instruction's code is its row's: the row's length, and under the row's mask the row's match. -/
def fits (i : Instr) : Bool :=
  (codeOf (encode i)).1 == (row i).bits && (codeOf (encode i)).2 &&& (row i).mask == (row i).bitsSet

/-- Every instruction's code fits its row. -/
def Statement (i : Instr) : Prop := fits i = true

/-- A fact about every byte, checked nibble by nibble. -/
theorem forall_byte {P : Byte → Prop} (h : ∀ hi lo : Fin 16, P (BitVec.ofNat 8 (16 * hi + lo))) (x : Byte) : P x := by
  have hx := h ⟨x.toNat / 16, by omega⟩ ⟨x.toNat % 16, by omega⟩
  rwa [show 16 * (x.toNat / 16) + x.toNat % 16 = x.toNat by omega, BitVec.ofNat_toNat, BitVec.setWidth_eq] at hx

theorem clearDisplay : Statement .clearDisplay := by unfold Statement; decide

theorem returnHome (x : Bool) : Statement (.returnHome x) := by unfold Statement; cases x <;> decide

theorem entryModeSet (id sh : Bool) : Statement (.entryModeSet id sh) := by
  unfold Statement; cases id <;> cases sh <;> decide

theorem displayControl (d c b : Bool) : Statement (.displayControl d c b) := by
  unfold Statement; cases d <;> cases c <;> cases b <;> decide

theorem cursorDisplayShift (sc rl : Bool) (x : BitVec 2) : Statement (.cursorDisplayShift sc rl x) := by
  have : ∀ y : Fin 4, fits (.cursorDisplayShift sc rl ⟨y⟩) = true := by cases sc <;> cases rl <;> decide
  exact this x.toFin

theorem functionSet (dl n f : Bool) (x : BitVec 2) : Statement (.functionSet dl n f x) := by
  have : ∀ y : Fin 4, fits (.functionSet dl n f ⟨y⟩) = true := by cases dl <;> cases n <;> cases f <;> decide
  exact this x.toFin

theorem setCgramAddress (a : BitVec 6) : Statement (.setCgramAddress a) := by
  have : ∀ y : Fin 64, fits (.setCgramAddress ⟨y⟩) = true := by decide
  exact this a.toFin

theorem setDdramAddress (a : BitVec 7) : Statement (.setDdramAddress a) := by
  have : ∀ y : Fin 128, fits (.setDdramAddress ⟨y⟩) = true := by decide
  exact this a.toFin

theorem readBusyFlagAddress (bf : Bool) (ac : BitVec 7) : Statement (.readBusyFlagAddress bf ac) := by
  have : ∀ y : Fin 128, fits (.readBusyFlagAddress bf ⟨y⟩) = true := by cases bf <;> decide
  exact this ac.toFin

theorem writeData (d : Byte) : Statement (.writeData d) := by
  refine forall_byte (P := fun d => fits (.writeData d) = true) ?_ d
  decide

theorem readData (d : Byte) : Statement (.readData d) := by
  refine forall_byte (P := fun d => fits (.readData d) = true) ?_ d
  decide

theorem initNibble3 : Statement .initNibble3 := by unfold Statement; decide

theorem initNibble2 : Statement .initNibble2 := by unfold Statement; decide

end Sys2Proof.Laws.TableRow
end

