-- ==== Sys2Proof/Tests/Slice0.lean ====
section
/-! SUPPORT. Tests: expected results are those of spec/95_test_vectors.md and of the encodings of spec/30_encoding.md; and a
witness for the hypotheses of each statement. -/

namespace Sys2Proof.Tests

open Sys2Proof Sys2Proof.Machine

/-! ## Small states -/

/-- A handle after init: the flag bytes at init's defaults (R189, R190). -/
def handleOf (w : Width) (rs e : Pin) (rw : Option Pin) (d : List Pin) (cols rows : Byte) : Handle :=
  { setupHandle w rs e rw d cols rows .f5x8 with displayControl := 0x04, displayMode := 0x02 }

/-- Configurations A to E of spec/95_test_vectors.md. -/
def cfgA : Handle := handleOf .eight 8 9 none [0, 1, 2, 3, 4, 5, 6, 7] 16 2
def cfgB : Handle := handleOf .four 0 1 none [2, 3, 4, 5] 16 2
def cfgC : Handle := handleOf .four 0 2 (some 1) [4, 5, 6, 7] 16 2
def cfgD : Handle := handleOf .eight 0 2 (some 1) [6, 7, 8, 9, 10, 11, 12, 13] 20 4
def cfgE : Handle := handleOf .four 20 21 none [7, 3, 9, 0] 16 4

/-- A controller in step with a block of width `w`, its memories unknown. -/
def ctlOf (w : Width) : Controller where
  mode := w
  half := none
  ddram := Ram.unknown 0
  cgram := Ram.unknown 1
  ac := 0x05
  space := .ddram
  entryInc := true
  entryShift := false
  display := true
  cursor := false
  blink := false
  twoLine := true
  font10 := false
  shift := 0
  readyAt := 0
  draws := 0

/-- The reset port with the lines of `hs` configured (R184). -/
def portOf (hs : Handle) : Port := portAfter PinState.undriven State.reset.port (lineEvents hs)

/-- A block with handle `hs`, its lines configured (R184), idle; `orc` are the answers lined up. -/
def ready (hs : Handle) (orc : List Bool) : State :=
  { State.reset with
    h := some hs
    oracle := orc
    port := portOf hs
    ctl := ctlOf hs.w }

/-- The same with a request at the port. -/
def asked (hs : Handle) (orc : List Bool) (r : Request) : State := { ready hs orc with reqPort := some r }

/-- The same in the middle of a request, with items to do. -/
def doing (hs : Handle) (orc : List Bool) (todo : List Item) : State :=
  { ready hs orc with todo := todo, phase := .running .busyWait 0 }

/-- The reset state with an init request at the port. -/
def resetAsked (orc : List Bool) (r : Request) : State := { State.reset with reqPort := some r, oracle := orc }

/-- Eight answers of a busy status (BF = 1). -/
def busyA : List Bool := [false, false, false, false, false, false, false, true]

/-- What an outcome holds, through a view. -/
def see {α : Type} (o : Out) (f : State → α) : Option α :=
  match o with
  | .next t => some (f t)
  | .fault _ => none
  | .refused _ => none

/-- The refusal of an outcome, if it is one. -/
def refusal (o : Out) : Option Refusal :=
  match o with
  | .next _ => none
  | .fault _ => none
  | .refused r => some r

/-- The fault of an outcome, if it is one. -/
def fault (o : Out) : Option Fault :=
  match o with
  | .next _ => none
  | .fault f => some f
  | .refused _ => none

theorem cfgA_wf : cfgA.Wf Params.floors := by constructor <;> decide
theorem cfgB_wf : cfgB.Wf Params.floors := by constructor <;> decide
theorem cfgC_wf : cfgC.Wf Params.floors := by constructor <;> decide
theorem cfgD_wf : cfgD.Wf Params.floors := by constructor <;> decide
theorem cfgE_wf : cfgE.Wf Params.floors := by constructor <;> decide

theorem ready_port (hs : Handle) (orc : List Bool) : (ready hs orc).port = portOf hs := by simp only [ready]

theorem ready_linesOk {hs : Handle} (w : hs.Wf Params.floors) (orc : List Bool) : LinesOk hs (ready hs orc).port := by
  rw [ready_port]; unfold portOf; exact lineEvents_linesOk w _ _

theorem ready_inv {hs : Handle} (w : hs.Wf Params.floors) (orc : List Bool) : Inv (ready hs orc) where
  legal := by change Params.floors.Legal; decide
  pins := by
    rw [ready_port]; unfold portOf; exact portAfter_wf (by decide) _
  handle h e := by cases e; exact w
  unowned e := by cases e
  lines h e _ := by cases e; exact ready_linesOk w orc
  running h := absurd rfl h
  items it h := by cases h
  ddram := ram_unknown_wf 0
  cgram := ram_unknown_wf 1

/-! ## Well-formedness refuses (R122: don't-care bits 0; R112, R114: the read slots 0) -/

theorem test_wf_refuses_home_x : (Instr.returnHome true).wf = false := by decide
theorem test_wf_refuses_shift_x : (Instr.cursorDisplayShift true false 1).wf = false := by decide
theorem test_wf_refuses_function_x : (Instr.functionSet true true false 2).wf = false := by decide
theorem test_wf_refuses_status_bf : (Instr.readBusyFlagAddress true 0).wf = false := by decide
theorem test_wf_refuses_status_ac : (Instr.readBusyFlagAddress false 5).wf = false := by decide
theorem test_wf_refuses_data_slot : (Instr.readData 1).wf = false := by decide
theorem test_wf_accepts : (Instr.functionSet true true false 0).wf = true := by decide

/-! ## Decoding: words written out from R104 to R114 and R103 -/

theorem test_decode_clear : decodeTableWord 16 0b00_0000_0001 = some .clearDisplay := by decide
theorem test_decode_home : decodeTableWord 16 0b00_0000_0011 = some (.returnHome true) := by decide
theorem test_decode_entry : decodeTableWord 16 0b00_0000_0110 = some (.entryModeSet true false) := by decide
theorem test_decode_control : decodeTableWord 16 0b00_0000_1110 = some (.displayControl true true false) := by decide
theorem test_decode_shift : decodeTableWord 16 0b00_0001_1000 = some (.cursorDisplayShift true false 0) := by decide
theorem test_decode_function : decodeTableWord 16 0b00_0010_1100 = some (.functionSet false true true 0) := by decide
theorem test_decode_cgram : decodeTableWord 16 0b00_0100_1111 = some (.setCgramAddress 0x0F) := by decide
theorem test_decode_ddram : decodeTableWord 16 0b00_1100_0000 = some (.setDdramAddress 0x40) := by decide
theorem test_decode_status : decodeTableWord 16 0b01_1000_0101 = some (.readBusyFlagAddress true 0x05) := by decide
theorem test_decode_write : decodeTableWord 16 0b10_0100_0001 = some (.writeData 0x41) := by decide
theorem test_decode_read : decodeTableWord 16 0b11_0100_0001 = some (.readData 0x41) := by decide
theorem test_decode_nibble3 : decodeTableWord 8 0b00_0011 = some .initNibble3 := by decide
theorem test_decode_nibble2 : decodeTableWord 8 0b00_0010 = some .initNibble2 := by decide
theorem test_decode_zero : decodeWord 16 0 = .error .reservedFrame := by decide
theorem test_decode_other_nibble : decodeWord 8 0b00_0100 = .error .noSuchNibble := by decide

/-- Where the ranges of R115 meet: the least and the greatest byte of each. -/
theorem test_decode_ranges :
    [128, 255, 64, 127, 32, 63, 16, 31, 8, 15, 4, 7, 2, 3, 1].map (fun b => (decodeWord 16 b).toOption) =
      [some (.setDdramAddress 0), some (.setDdramAddress 127), some (.setCgramAddress 0), some (.setCgramAddress 63),
        some (.functionSet false false false 0), some (.functionSet true true true 3),
        some (.cursorDisplayShift false false 0), some (.cursorDisplayShift true true 3),
        some (.displayControl false false false), some (.displayControl true true true),
        some (.entryModeSet false false), some (.entryModeSet true true), some (.returnHome false),
        some (.returnHome true), some .clearDisplay] := by decide

/-! ## Transfers (V1 to V11) -/

theorem test_V1 : see (writeBits 0xA5 .eight (ready cfgA [])) State.trace =
    some [.putMask 0xFF 0xA5, .wait .setup, .put 9 true, .wait .pulse, .put 9 false, .wait .hold, .wait .settle] := by
  decide

theorem test_V3 : see (writeBits 0xFC .four (ready cfgB [])) State.trace =
    some [.putMask 0x3C 0x30, .wait .setup, .put 1 true, .wait .pulse, .put 1 false, .wait .hold, .wait .settle] := by
  decide

theorem test_V4 : see (writeBits 0x5 .four (ready cfgC [])) State.trace =
    some [.put 1 false, .setDirMask 0xF0 .out, .putMask 0xF0 0x50, .wait .setup, .put 2 true, .wait .pulse,
      .put 2 false, .wait .hold] := by decide

theorem test_V6 : see (readBits .four (ready cfgB [])) (fun t => (t.trace, t.lastRead)) = some ([], 0xF) := by decide
theorem test_V7 : see (readBits .eight (ready cfgA [])) (fun t => (t.trace, t.lastRead)) = some ([], 0xFF) := by decide

theorem test_V8 : see (readBits .four (ready cfgC [true, false, true, true])) (fun t => (t.trace, t.lastRead)) =
    some ([.setDirMask 0xF0 .inp, .put 1 true, .wait .setup, .put 2 true, .wait .pulse, .get 4 true, .get 5 false,
      .get 6 true, .get 7 true, .put 2 false, .wait .hold], 0xD) := by decide

set_option maxRecDepth 2000 in
theorem test_V8_port : see (readBits .four (ready cfgC [true, false, true, true]))
    (fun t => (t.port.busDir, t.port.level 1, t.port.level 2, t.port.level 4)) = some (.inp, .hi, .lo, .z) := by decide

theorem test_V10 : see (writeBits 0x5 .four (ready cfgE [])) (fun t => [7, 3, 9, 0].map t.port.level) =
    some [.hi, .lo, .hi, .lo] := by decide

theorem test_V11 : see (writeBits 0xA .four (ready cfgE [])) (fun t => t.trace.head?) =
    some (some (.putMask 0x289 0x009)) := by decide

theorem test_V12 : refusal (writeBits 0x5 .four (ready cfgA [])) = some .width := by decide

/-! ## Instructions (V20 to V33) -/

theorem test_V20 : see (exec (.functionSet false true false 0) (ready cfgB [])) State.trace =
    some [.put 0 false, .putMask 0x3C 0x08, .wait .setup, .put 1 true, .wait .pulse, .put 1 false, .wait .hold,
      .wait .settle, .putMask 0x3C 0x20, .wait .setup, .put 1 true, .wait .pulse, .put 1 false, .wait .hold,
      .wait .settle] := by decide

theorem test_V20_time : see (exec (.functionSet false true false 0) (ready cfgB [])) State.clock = some 206000 := by
  decide

theorem test_V21 : see (exec (.writeData 0x41) (ready cfgA [])) State.trace =
    some [.put 8 true, .putMask 0xFF 0x41, .wait .setup, .put 9 true, .wait .pulse, .put 9 false, .wait .hold,
      .wait .settle] := by decide

theorem test_V23 : see (exec (.readBusyFlagAddress false 0) (ready cfgD busyA)) (fun t => (t.trace, t.lastRead)) =
    some ([.put 0 false, .setDirMask 0x3FC0 .inp, .put 1 true, .wait .setup, .put 2 true, .wait .pulse, .get 6 false,
      .get 7 false, .get 8 false, .get 9 false, .get 10 false, .get 11 false, .get 12 false, .get 13 true,
      .put 2 false, .wait .hold], 0x80) := by decide

theorem test_V29 : see (exec (.readData 0) (ready cfgB [])) (fun t => (t.trace, t.lastRead)) =
    some ([.put 0 true], 0xFF) := by decide

/-- V30's data nibbles (0x4, 0x1). -/
theorem test_V30 : see (exec (.readData 0) (ready cfgC [false, false, true, false, true, false, false, false]))
    State.lastRead = some 0x41 := by decide

theorem test_clear_byte : see (exec .clearDisplay (ready cfgA [])) (fun t => t.trace[1]?) =
    some (some (.putMask 0xFF 0x01)) := by decide
theorem test_home_byte : see (exec (.returnHome false) (ready cfgA [])) (fun t => t.trace[1]?) =
    some (some (.putMask 0xFF 0x02)) := by decide
theorem test_entry_byte : see (exec (.entryModeSet true false) (ready cfgA [])) (fun t => t.trace[1]?) =
    some (some (.putMask 0xFF 0x06)) := by decide
theorem test_control_byte : see (exec (.displayControl true false false) (ready cfgA [])) (fun t => t.trace[1]?) =
    some (some (.putMask 0xFF 0x0C)) := by decide
theorem test_shift_byte : see (exec (.cursorDisplayShift true true 0) (ready cfgA [])) (fun t => t.trace[1]?) =
    some (some (.putMask 0xFF 0x1C)) := by decide
theorem test_cgram_byte : see (exec (.setCgramAddress 0x0F) (ready cfgA [])) (fun t => t.trace[1]?) =
    some (some (.putMask 0xFF 0x4F)) := by decide
theorem test_ddram_byte : see (exec (.setDdramAddress 0x40) (ready cfgA [])) (fun t => t.trace[1]?) =
    some (some (.putMask 0xFF 0xC0)) := by decide
theorem test_nibble3 : see (exec .initNibble3 (ready cfgB [])) (fun t => t.trace.head?) =
    some (some (.putMask 0x3C 0x0C)) := by decide
theorem test_nibble2 : see (exec .initNibble2 (ready cfgB [])) (fun t => t.trace.head?) =
    some (some (.putMask 0x3C 0x08)) := by decide

/-! ## Sequences (V36 to V75): the items of a request -/

theorem test_V40b : displayFunctionOf .eight 2 .f5x8 = 0x18 := by decide
theorem test_V40h : displayFunctionOf .four 2 .f5x10 = 0x0C := by decide
theorem test_V41a : rowTable 16 = #v[0x00, 0x40, 0x10, 0x50] := by decide
theorem test_V41e : rowTable 200 = #v[0x00, 0x40, 0xC8, 0x08] := by decide
theorem test_V44 : reqSetCursor cfgB 3 255 = reqSendCommand 0xC3 := by decide
theorem test_V45 : reqSetCursor cfgD 19 3 = reqSendCommand 0xE7 := by decide
theorem test_V47 : reqSetCursor (handleOf .four 0 1 none [2, 3, 4, 5] 40 1) 2 3 = reqSendCommand 0x82 := by decide
theorem test_V49 : reqSetCursor (handleOf .four 0 1 none [2, 3, 4, 5] 16 4) 0xB0 3 = reqSendCommand 0x80 := by decide
theorem test_V52 : reqWriteStringAt cfgB [0x41, 0x42] 2 1 =
    reqSendCommand 0xC2 ++ reqSendData 0x41 ++ reqSendData 0x42 := by decide
theorem test_V55 : cgramAddress 9 0 = 0x08 ∧ cgramAddress 9 7 = 0x0F := by decide
theorem test_V63 : reqDisplayOff { cfgB with displayControl := 0x07 } = .setControl 0x03 :: reqSendCommand 0x0B := by
  decide
theorem test_V69 : reqLeftToRight { cfgB with displayMode := 0x01 } = .setMode 0x03 :: reqSendCommand 0x07 := by decide
theorem test_V71 : reqScrollDisplayLeft = reqSendCommand 0x18 := by decide
theorem test_V72 : reqScrollDisplayRight = reqSendCommand 0x1C := by decide
theorem test_V73 : reqClear cfgB = reqSendCommand 0x01 ++ [.wait .long] := by decide
theorem test_V74 : reqHome cfgC = reqSendCommand 0x02 := by decide

/-! ## The step -/

/-- V57, V22: one turn of the poll on a busy answer; the item stays. -/
theorem test_V22_busy : see (step (doing cfgD busyA (reqSendData 0x41))) (fun t => (t.trace.getLast?, t.todo)) =
    some (some (.wait .backoff), reqSendData 0x41) := by decide

theorem test_V35 : refusal (step (asked cfgA [] (.init4 0 1 none #v[2, 3, 4, 5] 16 2 .f5x8))) = some .reinit := by
  decide
theorem test_V36 : refusal (step (resetAsked [true] (.init4 0 1 none #v[2, 3, 4, 5] 16 0 .f5x8))) = some .rows0 := by
  decide
theorem test_V37 : refusal (step (resetAsked [true] (.init4 0 1 none #v[2, 3, 1, 5] 16 2 .f5x8))) = some .pins := by
  decide
theorem test_V39 : see (step (resetAsked [] .deinit)) (fun t => (t.trace, t.outcome)) = some ([], .nullHandle) := by
  decide

/-- A word placed at reset runs; with no handle it is a no-op (R262). -/
theorem test_placed_at_reset : see (step (State.reset.withFetchWord 16 0x001)) (fun t => (t.trace, t.outcome, t.todo)) =
    some ([], .nullHandle, []) := by decide

/-- A word placed before a ready block is framed. -/
theorem test_placed_ready : see (step ((ready cfgA []).withFetchWord 16 0x001)) (fun t => t.trace[1]?) =
    some (some (.putMask 0xFF 0x01)) := by decide

/-- R103, R126: the raw nibble 0x3 before a block whose RS stands low is seen as a handshake transfer; R81, R102: a data
write as one byte, high half first. -/
theorem test_trace_nibble :
    see (exec .initNibble3 (ready cfgB []))
      (fun t => (decodeTrace cfgB (Watch.ofPort cfgB (portOf cfgB) 1) t.trace).toOption) =
    some (some [⟨true, .initNibble3⟩]) := by decide
theorem test_trace_write :
    see (exec (.writeData 0x41) (ready cfgB []))
      (fun t => (decodeTrace cfgB (Watch.ofPort cfgB (portOf cfgB) 0) t.trace).toOption) =
    some (some [⟨false, .writeData 0x41⟩]) := by decide

theorem test_placed_zero : fault (step (State.reset.withFetchWord 16 0)) = some .reservedFrame := by decide

/-! ## Witnesses: for each statement with hypotheses, operands and a state that meet them all -/

theorem witness_EncodeOfDecode : decode (.frame 0x3C0) = .ok (.readData 0xC0) := by decide

theorem witness_FrameNamedByHighestBit :
    128 ≤ (0x80 : Byte).toNat ∧ (64 ≤ (0x7F : Byte).toNat ∧ (0x7F : Byte).toNat < 128) ∧
    (32 ≤ (0x20 : Byte).toNat ∧ (0x20 : Byte).toNat < 64) ∧ (16 ≤ (0x1F : Byte).toNat ∧ (0x1F : Byte).toNat < 32) ∧
    (8 ≤ (0x08 : Byte).toNat ∧ (0x08 : Byte).toNat < 16) ∧ (4 ≤ (0x07 : Byte).toNat ∧ (0x07 : Byte).toNat < 8) ∧
    (2 ≤ (0x02 : Byte).toNat ∧ (0x02 : Byte).toNat < 4) ∧ (0x01 : Byte).toNat = 1 ∧ (0x00 : Byte).toNat = 0 := by
  decide

theorem witness_BitIOnLineI : cfgE.d.Nodup ∧ cfgE.d.length ≤ 8 ∧ 7 < 8 := by decide

theorem witness_WriteBitsEvents : (ready cfgA []).h = some cfgA ∧ (ready cfgC []).h = some cfgC := ⟨rfl, rfl⟩

theorem witness_WriteBitsLevels :
    (∃ t, (ready cfgA []).h = some cfgA ∧ cfgA.Wf (ready cfgA []).params ∧ LinesOk cfgA (ready cfgA []).port ∧
      writeBits 0xA5 cfgA.w (ready cfgA []) = .next t) ∧
    (∃ t, (ready cfgC []).h = some cfgC ∧ cfgC.Wf (ready cfgC []).params ∧ LinesOk cfgC (ready cfgC []).port ∧
      writeBits 0x5 cfgC.w (ready cfgC []) = .next t) :=
  ⟨⟨_, rfl, cfgA_wf, ready_linesOk cfgA_wf [], rfl⟩, ⟨_, rfl, cfgC_wf, ready_linesOk cfgC_wf [], rfl⟩⟩

theorem witness_ReadBitsWired :
    let s := ready cfgC [true, false, true, true]
    s.h = some cfgC ∧ cfgC.rw = some 1 ∧ cfgC.Wf s.params ∧ LinesOk cfgC s.port ∧
      s.oracle = [true, false, true, true] ++ [] ∧ [true, false, true, true].length = cfgC.w.bits :=
  ⟨rfl, rfl, cfgC_wf, ready_linesOk cfgC_wf _, rfl, rfl⟩

theorem witness_ReadBitsSentinel : (ready cfgB []).h = some cfgB ∧ cfgB.rw = none := ⟨rfl, rfl⟩

theorem witness_WrongWidthRefused :
    (ready cfgA []).h = some cfgA ∧ Width.four ≠ cfgA.w ∧
    Presented (.writeBits 0 .four) (asked cfgA [] (.writeBits 0 .four)) ∧
    Presented (.readBits .four) (asked cfgA [] (.readBits .four)) :=
  ⟨rfl, by decide, ⟨rfl, rfl, rfl⟩, ⟨rfl, rfl, rfl⟩⟩

theorem witness_WriteFramesComplete : (ready cfgB []).h = some cfgB ∧ (ready cfgD []).h = some cfgD := ⟨rfl, rfl⟩

theorem witness_ReadFramesComplete :
    (ready cfgC busyA).h = some cfgC ∧ cfgC.rw = some 1 ∧ cfgC.d.length = cfgC.w.bits ∧
      (ready cfgC busyA).oracle = busyA ++ [] ∧ busyA.length = 8 := ⟨rfl, rfl, rfl, rfl, rfl⟩

theorem witness_ReadFramesUnwired : (ready cfgE []).h = some cfgE ∧ cfgE.rw = none := ⟨rfl, rfl⟩

theorem witness_InitNibblesComplete :
    ((ready cfgC []).h = some cfgC ∧ cfgC.w = .four) ∧ ((ready cfgA []).h = some cfgA ∧ cfgA.w = .eight) :=
  ⟨⟨rfl, rfl⟩, ⟨rfl, rfl⟩⟩

theorem witness_NullHandleNoOp : State.reset.h = none := rfl

theorem witness_NullHandleNoOp_write :
    (∀ bf ac, Instr.clearDisplay ≠ .readBusyFlagAddress bf ac) ∧ (∀ d, Instr.clearDisplay ≠ .readData d) :=
  ⟨nofun, nofun⟩

/-- States and instructions for the statement that asks for a sound block and an instruction that goes on: a data write on
an unwired 8-bit bus, a data read on a wired 4-bit one, and a raw nibble. -/
theorem witness_LinesAfterInstr :
    (∃ t, (ready cfgA []).h = some cfgA ∧ cfgA.Wf (ready cfgA []).params ∧ LinesOk cfgA (ready cfgA []).port ∧
      exec (.writeData 0x41) (ready cfgA []) = .next t) ∧
    (∃ t, (ready cfgC busyA).h = some cfgC ∧ cfgC.Wf (ready cfgC busyA).params ∧ LinesOk cfgC (ready cfgC busyA).port ∧
      exec (.readData 0) (ready cfgC busyA) = .next t) ∧
    (∃ t, (ready cfgC []).h = some cfgC ∧ cfgC.Wf (ready cfgC []).params ∧ LinesOk cfgC (ready cfgC []).port ∧
      exec .initNibble3 (ready cfgC []) = .next t) :=
  ⟨⟨_, rfl, cfgA_wf, ready_linesOk cfgA_wf [], rfl⟩, ⟨_, rfl, cfgC_wf, ready_linesOk cfgC_wf _, rfl⟩,
    ⟨_, rfl, cfgC_wf, ready_linesOk cfgC_wf [], rfl⟩⟩

theorem witness_WireRoundTrip :
    (∃ t, (ready cfgC busyA).h = some cfgC ∧ cfgC.Wf (ready cfgC busyA).params ∧ cfgC.wired = true ∧
      exec (.readData 0) (ready cfgC busyA) = .next t) ∧
    (∃ t, (ready cfgB []).h = some cfgB ∧ cfgB.Wf (ready cfgB []).params ∧ (ready cfgB []).port.level cfgB.rs = .lo ∧
      exec .initNibble2 (ready cfgB []) = .next t) :=
  ⟨⟨_, rfl, cfgC_wf, rfl, rfl⟩, ⟨_, rfl, cfgB_wf, by decide, rfl⟩⟩

theorem witness_NoBusContention :
    ∃ t, (ready cfgC busyA).h = some cfgC ∧ cfgC.Wf (ready cfgC busyA).params ∧ LinesOk cfgC (ready cfgC busyA).port ∧
      exec (.readBusyFlagAddress false 0) (ready cfgC busyA) = .next t :=
  ⟨_, rfl, cfgC_wf, ready_linesOk cfgC_wf _, rfl⟩

/-- Timestamps 0.1 ms apart are admitted wherever no wait is longer than that. -/
theorem admits_even (evs : List Event) (h : ∀ ev ∈ evs, Params.floors.eventNs ev ≤ 100000) :
    Admits Params.floors evs (fun k => 100000 * (k : ℝ)) := by
  refine ⟨by simp, fun k ev hk => ?_⟩
  have hle : (Params.floors.eventNs ev : ℝ) ≤ 100000 := by exact_mod_cast h ev (List.mem_of_getElem? hk)
  push_cast
  linarith

theorem witness_WaitsAddUp :
    Admits Params.floors [.wait .setup, .wait .settle] (fun k => 100000 * (k : ℝ)) ∧ 0 ≤ 2 ∧
      2 ≤ [Event.wait .setup, .wait .settle].length := ⟨admits_even _ (by decide), by decide, by decide⟩

/-- On configuration D: a status read, the frame `C(0x01)`, a wait, a raw read and a raw write. -/
def piecesD : List Event :=
  [.read false notBusy, .write false 0x01, .wait .hold, .rawRead notBusy, .rawWrite 0x38].flatMap (Piece.events cfgD)

/-- The RS of the write frame (event 16) is after the rising edge of E in the read (event 4) and before the one in the frame
(event 21); the rising edge of the raw read is event 29, that of the raw write event 45. -/
theorem witness_SetupAndHold :
    cfgD.Wf Params.floors ∧ Admits Params.floors piecesD (fun k => 100000 * (k : ℝ)) ∧
      piecesD[16]? = some (.put cfgD.rs false) ∧ piecesD[4]? = some (.put cfgD.e true) ∧ 4 < 16 ∧
      piecesD[21]? = some (.put cfgD.e true) ∧ 16 < 21 ∧ piecesD[29]? = some (.put cfgD.e true) ∧
      piecesD[45]? = some (.put cfgD.e true) :=
  ⟨cfgD_wf, admits_even _ (by decide), by decide, by decide, by decide, by decide, by decide, by decide, by decide⟩

/-- The two frames `C(0x01)`, `D(0x41)` on configuration A, a raw transfer between them. -/
def piecesA : List Event := [.write false 0x01, .rawWrite 0x38, .write true 0x41].flatMap (Piece.events cfgA)

theorem witness_SettleSpacing :
    cfgA.Wf Params.floors ∧ cfgA.rw = none ∧ Admits Params.floors piecesA (fun k => 100000 * (k : ℝ)) ∧
      piecesA[5]? = some (.put cfgA.e false) ∧ 5 < 10 ∧ piecesA[10]? = some (.put cfgA.e true) ∧
      piecesA[18]? = some (.put cfgA.e true) :=
  ⟨cfgA_wf, rfl, admits_even _ (by decide), by decide, by decide, by decide, by decide⟩

theorem witness_ClockIsLeastTime : ∃ t, exec .clearDisplay (ready cfgB []) = .next t := ⟨_, rfl⟩

theorem witness_LeastDurations : cfgB.rw = none ∧ cfgC.rw ≠ none := by decide

theorem witness_StepRunsDecodedInstr :
    ((ready cfgC busyA).withFetchWord 16 0x001).todo = .word 16 0x001 :: [] ∧
      decodeTableWord 16 0x001 = some .clearDisplay ∧ NoOverlap ((ready cfgC busyA).withFetchWord 16 0x001) ∧
      polls .clearDisplay = true ∧ cfgC.rw ≠ none ∧ polls .initNibble3 = false ∧ cfgB.rw = none := by decide

theorem witness_PlacedWordIsFetched : decodeTableWord 8 0x03 = some .initNibble3 := by decide

/-- A busy and a not-busy answer before a waiting frame. -/
theorem witness_FrameWaitsForBusyFlag :
    let s := doing cfgD busyA [.code (.frame (frameCode true false 0x41))]
    let u := doing cfgD notBusy [.code (.frame (frameCode true false 0x41))]
    (s.h = some cfgD ∧ cfgD.rw = some 1 ∧ cfgD.d.length = cfgD.w.bits ∧
      s.todo = [.code (.frame (frameCode true false 0x41))] ∧ NoOverlap s ∧ s.oracle = busyA ++ [] ∧ busyA.length = 8 ∧
      (answeredByte cfgD.w busyA).getLsbD 7 = true) ∧
    (u.h = some cfgD ∧ NoOverlap u ∧ u.oracle = notBusy ++ [] ∧ (answeredByte cfgD.w notBusy).getLsbD 7 = false) := by
  decide

theorem witness_BusyPollHasNoBound :
    let s := doing cfgD (List.replicate (8 * 2) true) [.code (.frame (frameCode true false 0x41))]
    s.h = some cfgD ∧ cfgD.rw = some 1 ∧ cfgD.d.length = cfgD.w.bits ∧
      s.todo = [.code (.frame (frameCode true false 0x41))] ∧ NoOverlap s ∧
      s.oracle = List.replicate (8 * 2) true ++ [] := by decide

theorem quiet_replicate (hs : Handle) (n : Nat) (r : Request) :
    Quiet hs n (asked hs (List.replicate (8 * n) false) r) := fun _ => ⟨[], by rw [List.append_nil]; rfl⟩

theorem witness_ZeroByte :
    ((State.reset.withFetchWord 16 0).todo = [.word 16 0] ∧ NoOverlap (State.reset.withFetchWord 16 0)) ∧
    ((State.reset.withFetchWord 10 0).todo = [.word 10 0] ∧ NoOverlap (State.reset.withFetchWord 10 0)) ∧
    (let s := asked cfgC (List.replicate 8 false) (.sendCommand 0);
      s.h = some cfgC ∧ Presented (.sendCommand 0) s ∧ Quiet cfgC 1 s ∧ cfgC.d.length = cfgC.w.bits) :=
  ⟨by decide, by decide, rfl, ⟨rfl, rfl, rfl⟩, quiet_replicate cfgC 1 _, rfl⟩

theorem witness_OverlapRefused :
    let s := { doing cfgA [] [.wait .long] with reqPort := some Request.clear }
    s.phase = .running .busyWait 0 ∧ s.reqPort = some .clear := ⟨rfl, rfl⟩

theorem witness_NullHandleRequests :
    (resetAsked [] .readCommand).h = none ∧ Presented .readCommand (resetAsked [] .readCommand) ∧
      Request.newHandle .readCommand = none ∧ Request.returnsValue .home = false :=
  ⟨rfl, ⟨rfl, rfl, rfl⟩, rfl, rfl⟩

/-- One state for the statements about requests that send one frame: any request of theirs at the port, on a wired and on an
unwired handle. -/
theorem witness_oneFrame (r : Request) :
    (let s := asked cfgD (List.replicate 8 false) r;
      s.h = some cfgD ∧ cfgD.d.length = cfgD.w.bits ∧ Quiet cfgD 1 s ∧ Presented r s) ∧
    (let s := asked cfgB [] r;
      s.h = some cfgB ∧ cfgB.d.length = cfgB.w.bits ∧ Quiet cfgB 1 s ∧ Presented r s) :=
  ⟨⟨rfl, rfl, quiet_replicate cfgD 1 r, ⟨rfl, rfl, rfl⟩⟩, ⟨rfl, rfl, fun h => absurd h (by decide), ⟨rfl, rfl, rfl⟩⟩⟩

theorem witness_SingleFrameRequests :
    let s := asked cfgD (List.replicate 8 false) (.setCursor 19 3)
    s.h = some cfgD ∧ cfgD.d.length = cfgD.w.bits ∧ Quiet cfgD 1 s ∧ Presented (.setCursor 19 3) s :=
  (witness_oneFrame _).1

theorem witness_TogglesSendWholeByte :
    let s := asked cfgB [] .rightToLeft
    s.h = some cfgB ∧ cfgB.d.length = cfgB.w.bits ∧ Quiet cfgB 1 s ∧ Presented .rightToLeft s :=
  (witness_oneFrame _).2

theorem witness_ClearAndHome :
    let s := asked cfgB [] .home
    s.h = some cfgB ∧ cfgB.d.length = cfgB.w.bits ∧ Quiet cfgB 1 s ∧ Presented .home s := (witness_oneFrame _).2

theorem witness_TextRequests :
    let s := asked cfgD (List.replicate (8 * ([0x41, 0x42].length + 2)) false) (.writeStringAt [0x41, 0x42] 2 1)
    s.h = some cfgD ∧ cfgD.d.length = cfgD.w.bits ∧ Quiet cfgD ([(0x41 : Byte), 0x42].length + 2) s ∧
      Presented (.writeStringAt [0x41, 0x42] 2 1) s :=
  ⟨rfl, rfl, quiet_replicate cfgD 4 _, ⟨rfl, rfl, rfl⟩⟩

theorem witness_CreateCharFrames :
    let s := asked cfgD (List.replicate 8 false ++ busyA ++ (List.replicate (8 * 17) false ++ []))
      (.createChar 9 #v[1, 2, 3, 4, 5, 6, 7, 8])
    s.h = some cfgD ∧ cfgD.d.length = cfgD.w.bits ∧ Presented (.createChar 9 #v[1, 2, 3, 4, 5, 6, 7, 8]) s ∧
      busyA.length = 8 ∧ cfgD.rw ≠ none ∧
      s.oracle = List.replicate 8 false ++ busyA ++ (List.replicate (8 * 17) false ++ []) :=
  ⟨rfl, rfl, ⟨rfl, rfl, rfl⟩, rfl, by decide, rfl⟩

theorem witness_CreateCharFrames_unwired :
    let s := asked cfgB [] (.createChar 1 #v[1, 2, 3, 4, 5, 6, 7, 8])
    s.h = some cfgB ∧ cfgB.d.length = cfgB.w.bits ∧ Presented (.createChar 1 #v[1, 2, 3, 4, 5, 6, 7, 8]) s ∧
      cfgB.rw = none := ⟨rfl, rfl, ⟨rfl, rfl, rfl⟩, rfl⟩

theorem witness_ReadRequests :
    let s := asked cfgC (List.replicate 8 false ++ busyA ++ []) .readData
    s.h = some cfgC ∧ cfgC.d.length = cfgC.w.bits ∧ busyA.length = 8 ∧ cfgC.rw ≠ none ∧
      s.oracle = List.replicate 8 false ++ busyA ++ [] ∧ Presented .readData s :=
  ⟨rfl, rfl, rfl, by decide, rfl, ⟨rfl, rfl, rfl⟩⟩

theorem witness_RawTransferRequests :
    let s := asked cfgC [true, false, true, true] (.readBits cfgC.w)
    s.h = some cfgC ∧ [true, false, true, true].length = cfgC.d.length ∧ cfgC.rw = some 1 ∧
      s.oracle = [true, false, true, true] ++ [] ∧ Presented (.readBits cfgC.w) s :=
  ⟨rfl, rfl, rfl, rfl, ⟨rfl, rfl, rfl⟩⟩

/-- The init requests of the witnesses, and the handles they ask for. -/
def init4B (rows : Byte) : Request := .init4 0 1 none #v[2, 3, 4, 5] 16 rows .f5x8
def init8D : Request := .init8 0 2 (some 1) #v[6, 7, 8, 9, 10, 11, 12, 13] 20 4 .f5x8
def newB (rows : Byte) : Handle := setupHandle .four 0 1 none [2, 3, 4, 5] 16 rows .f5x8
def newD : Handle := setupHandle .eight 0 2 (some 1) [6, 7, 8, 9, 10, 11, 12, 13] 20 4 .f5x8

theorem initPresented_B (orc : List Bool) : InitPresented (resetAsked orc (init4B 2)) (init4B 2) (newB 2) :=
  ⟨⟨rfl, rfl, rfl⟩, rfl, rfl, by decide, by decide, by change ∀ p ∈ (newB 2).pins, p < Params.floors.npins; decide,
    fun _ _ => nofun⟩

theorem initPresented_D (orc : List Bool) : InitPresented (resetAsked orc init8D) init8D newD :=
  ⟨⟨rfl, rfl, rfl⟩, rfl, rfl, by decide, by decide, by change ∀ p ∈ newD.pins, p < Params.floors.npins; decide,
    fun _ _ => nofun⟩

/-- Each clause of InitRefusals: a handle there already; ROWS = 0; pin 1 twice; a pin that is not the block's. -/
theorem witness_InitRefusals :
    (Presented (init4B 2) (asked cfgA [] (init4B 2)) ∧ (asked cfgA [] (init4B 2)).h ≠ none) ∧
    ((init4B 0).newHandle = some (newB 0) ∧ (newB 0).numlines = 0 ∧ (resetAsked [] (init4B 0)).h = none) ∧
    (let hs := setupHandle .four 0 1 none [2, 3, 1, 5] 16 2 .f5x8;
      (Request.init4 0 1 none #v[2, 3, 1, 5] 16 2 .f5x8).newHandle = some hs ∧ hs.numlines ≠ 0 ∧
        ¬ (hs.pins.Nodup ∧ ∀ p ∈ hs.pins, p < Params.floors.npins)) ∧
    ((newB 2).numlines ≠ 0 ∧ (newB 2).pins.Nodup ∧ (∀ p ∈ (newB 2).pins, p < Params.floors.npins) ∧
      ∃ p ∈ (newB 2).pins, p ∈ { resetAsked [] (init4B 2) with foreign := [5] }.foreign) :=
  ⟨⟨⟨rfl, rfl, rfl⟩, nofun⟩, ⟨rfl, rfl, rfl⟩, ⟨rfl, by decide, by decide⟩, by decide, by decide, by decide, by decide⟩

theorem witness_AllocationFailure :
    InitPresented (resetAsked [false] (init4B 2)) (init4B 2) (newB 2) ∧
      (resetAsked [false] (init4B 2)).oracle = false :: [] := ⟨initPresented_B _, rfl⟩

theorem allocatesQuiet_replicate (hs : Handle) (n : Nat) (r : Request) :
    AllocatesQuiet hs n (resetAsked (true :: List.replicate (8 * n) false) r) :=
  ⟨_, rfl, fun _ => ⟨[], by rw [List.append_nil]⟩⟩

theorem witness_InitSequence :
    (InitPresented (resetAsked (true :: List.replicate (8 * 5) false) init8D) init8D newD ∧
      AllocatesQuiet newD 5 (resetAsked (true :: List.replicate (8 * 5) false) init8D)) ∧
    (InitPresented (resetAsked (true :: List.replicate (8 * 5) false) (init4B 2)) (init4B 2) (newB 2) ∧
      AllocatesQuiet (newB 2) 5 (resetAsked (true :: List.replicate (8 * 5) false) (init4B 2))) :=
  ⟨⟨initPresented_D _, allocatesQuiet_replicate newD 5 _⟩, ⟨initPresented_B _, allocatesQuiet_replicate (newB 2) 5 _⟩⟩

theorem witness_PortAfterInit :
    InitPresented (resetAsked (true :: List.replicate (8 * 5) false) init8D) init8D newD ∧
      AllocatesQuiet newD 5 (resetAsked (true :: List.replicate (8 * 5) false) init8D) := witness_InitSequence.1

theorem witness_InitTraceDecodes :
    InitPresented (resetAsked (true :: List.replicate (8 * 5) false) (init4B 2)) (init4B 2) (newB 2) ∧
      AllocatesQuiet (newB 2) 5 (resetAsked (true :: List.replicate (8 * 5) false) (init4B 2)) :=
  witness_InitSequence.2

theorem witness_DeinitSequence :
    let s := asked cfgD (List.replicate (8 * 3) false) .deinit
    s.h = some cfgD ∧ cfgD.d.length = cfgD.w.bits ∧ Quiet cfgD 3 s ∧ Presented .deinit s :=
  ⟨rfl, rfl, quiet_replicate cfgD 3 _, ⟨rfl, rfl, rfl⟩⟩

theorem witness_StepKeepsInv : ∃ t, Inv (ready cfgC []) ∧ step (ready cfgC []) = .next t :=
  ⟨_, ready_inv cfgC_wf [], rfl⟩

/-- A toggle's flag item, which changes the handle. -/
theorem witness_ConfigurationIsFixed :
    ∃ t ht, (doing cfgB [] [.setControl 0x06]).h = some cfgB ∧ step (doing cfgB [] [.setControl 0x06]) = .next t ∧
      t.h = some ht := ⟨_, _, rfl, rfl, rfl⟩

/-- A handle that comes into being, and one that ends. -/
theorem witness_HandleLifetime :
    (∃ t, step (resetAsked [true] (init4B 2)) = .next t ∧ (resetAsked [true] (init4B 2)).h = none ∧ t.h ≠ none) ∧
    (∃ t, step (doing cfgB [] [.releaseLines]) = .next t ∧ (doing cfgB [] [.releaseLines]).h ≠ none ∧ t.h = none) :=
  ⟨⟨_, rfl, rfl, nofun⟩, ⟨_, rfl, nofun, rfl⟩⟩

theorem witness_OnlyThePollRepeats :
    ∃ t, (doing cfgD busyA [.poll]).h = some cfgD ∧ cfgD.d.length = cfgD.w.bits ∧
      (doing cfgD busyA [.poll]).todo = .poll :: [] ∧ step (doing cfgD busyA [.poll]) = .next t ∧
      t.todo = (doing cfgD busyA [.poll]).todo := ⟨_, rfl, rfl, rfl, rfl, rfl⟩

theorem witness_OnlyOwnPins :
    (∃ t, step (resetAsked [] .home) = .next t ∧ (resetAsked [] .home).h = none) ∧
    (∃ t, step (doing cfgC [] [.releaseLines]) = .next t ∧ (doing cfgC [] [.releaseLines]).h = some cfgC ∧
      cfgC.Wf (doing cfgC [] [.releaseLines]).params ∧ 3 ∉ cfgC.pins) :=
  ⟨⟨_, rfl, rfl⟩, ⟨_, rfl, rfl, cfgC_wf, by decide⟩⟩

theorem witness_TraceOnlyGrows :
    ∃ t, step (doing cfgB [] [.wait .long, .wait .long]) = .next t ∧
      (doing cfgB [] [.wait .long, .wait .long]).phase = .running .busyWait 0 ∧
      (doing cfgB [] [.wait .long, .wait .long]).todo ≠ [] := ⟨_, rfl, rfl, nofun⟩

/-- A poll that stays, and an item that is done with another to come. -/
theorem witness_NoCancel :
    (∃ t, (doing cfgD busyA [.poll]).phase = .running .busyWait 0 ∧ (doing cfgD busyA [.poll]).todo = .poll :: [] ∧
      step (doing cfgD busyA [.poll]) = .next t ∧ t.todo = [.poll]) ∧
    (∃ t, (doing cfgD [] [.wait .long, .poll]).phase = .running .busyWait 0 ∧
      step (doing cfgD [] [.wait .long, .poll]) = .next t ∧ t.todo = [.poll]) :=
  ⟨⟨_, rfl, rfl, rfl, rfl⟩, ⟨_, rfl, rfl, rfl⟩⟩

/-- A controller that stands in 4-bit mode with a half latched, before an unwired 4-bit block. -/
theorem witness_HandshakeResolvesController :
    let s := { ready cfgB [] with ctl := { ctlOf .four with half := some 0x8 } }
    s.h = some cfgB ∧ cfgB.Wf s.params ∧ LinesOk cfgB s.port ∧ cfgB.w = .four ∧ s.port.level cfgB.rs = .lo ∧
      s.ctl.readyAt ≤ s.clock ∧ s.params.tExec ≤ s.params.tInitGap ∧
      s.params.tExecLong ≤ s.params.tInitGap :=
  ⟨rfl, cfgB_wf, ready_linesOk cfgB_wf [], rfl, by decide, by decide, by decide, by decide⟩

theorem witness_ClearOnController :
    let s := ready cfgB []
    s.h = some cfgB ∧ cfgB.Wf s.params ∧ LinesOk cfgB s.port ∧ s.ctl.mode = cfgB.w ∧ s.ctl.half = none ∧
      s.ctl.readyAt ≤ s.clock :=
  ⟨rfl, cfgB_wf, ready_linesOk cfgB_wf [], rfl, rfl, by decide⟩

/-- A deployment that waits 1.42 ms after clear and home. -/
theorem witness_CommandAfterClearTaken :
    let s := { ready cfgB [] with params := { Params.floors with tLong := 1420000 } };
    s.h = some cfgB ∧ cfgB.Wf s.params ∧ LinesOk cfgB s.port ∧ cfgB.rw = none ∧ s.ctl.mode = cfgB.w ∧
      s.ctl.half = none ∧ s.ctl.readyAt ≤ s.clock ∧ s.params.tExecLong ≤ s.params.tSettle + s.params.tLong :=
  ⟨rfl, by constructor <;> decide, ready_linesOk cfgB_wf [], rfl, rfl, rfl, by decide, by decide⟩

/-- A counter in DDRAM, and one in CGRAM. -/
theorem witness_WriteDataOnController :
    (let s := ready cfgD [];
      s.h = some cfgD ∧ cfgD.Wf s.params ∧ LinesOk cfgD s.port ∧ s.ctl.mode = cfgD.w ∧ s.ctl.half = none ∧
        s.ctl.readyAt ≤ s.clock ∧ s.ctl.space = .ddram ∧ s.ctl.edgeAt s.ctl.entryInc ∉ s.params.acEdges) ∧
    (let s := { ready cfgB [] with ctl := { ctlOf .four with space := .cgram } };
      s.h = some cfgB ∧ cfgB.Wf s.params ∧ LinesOk cfgB s.port ∧ s.ctl.mode = cfgB.w ∧ s.ctl.half = none ∧
        s.ctl.readyAt ≤ s.clock ∧ s.ctl.space = .cgram ∧ s.ctl.edgeAt s.ctl.entryInc ∉ s.params.acEdges) :=
  ⟨⟨rfl, cfgD_wf, ready_linesOk cfgD_wf [], rfl, rfl, by decide, rfl, by decide⟩,
    ⟨rfl, cfgB_wf, ready_linesOk cfgB_wf [], rfl, rfl, by decide, rfl, by decide⟩⟩

/-- Row 1 of a 20x4 display, from column 15, address 0x4F, forward; and the last two columns of one row, backward. -/
theorem witness_WriteDataWithinRow :
    (let s := { ready cfgD [] with ctl := { ctlOf .eight with ac := 0x4F } };
      s.h = some cfgD ∧ cfgD.Wf s.params ∧ LinesOk cfgD s.port ∧ s.ctl.mode = cfgD.w ∧ s.ctl.half = none ∧
        s.ctl.readyAt ≤ s.clock ∧ s.params.acEdges = Params.floors.acEdges ∧ s.ctl.space = .ddram ∧
        s.ctl.twoLine = decide (1 < cfgD.numlines.toNat) ∧
        cfgD.cols.toNat ≤ (if cfgD.numlines = 1 then 80 else if cfgD.numlines = 2 then 40 else 20) ∧
        (if s.ctl.entryInc then (16 : Byte).toNat = (15 : Byte).toNat + 1 else (16 : Byte).toNat + 1 = (15 : Byte).toNat) ∧
        s.ctl.ac = (ddramAddress cfgD 15 1).setWidth 7) ∧
    (let hs := handleOf .eight 8 9 none [0, 1, 2, 3, 4, 5, 6, 7] 80 1;
      let s := { ready hs [] with ctl := { ctlOf .eight with ac := 79, entryInc := false, twoLine := false } };
      s.h = some hs ∧ hs.Wf s.params ∧ LinesOk hs s.port ∧ s.ctl.mode = hs.w ∧ s.ctl.half = none ∧
        s.ctl.readyAt ≤ s.clock ∧ s.params.acEdges = Params.floors.acEdges ∧ s.ctl.space = .ddram ∧
        s.ctl.twoLine = decide (1 < hs.numlines.toNat) ∧
        hs.cols.toNat ≤ (if hs.numlines = 1 then 80 else if hs.numlines = 2 then 40 else 20) ∧
        (if s.ctl.entryInc then (78 : Byte).toNat = (79 : Byte).toNat + 1 else (78 : Byte).toNat + 1 = (79 : Byte).toNat) ∧
        s.ctl.ac = (ddramAddress hs 79 3).setWidth 7) :=
  have wf : (handleOf .eight 8 9 none [0, 1, 2, 3, 4, 5, 6, 7] 80 1).Wf Params.floors := by constructor <;> decide
  ⟨⟨rfl, cfgD_wf, ready_linesOk cfgD_wf [], rfl, rfl, by decide, rfl, rfl, by decide, by decide, by decide, by decide⟩,
    ⟨rfl, wf, ready_linesOk wf [], rfl, rfl, by decide, rfl, rfl, by decide, by decide, by decide, by decide⟩⟩

end Sys2Proof.Tests
end

section
/-! PROOF. The block never reads the attached controller: every operation takes states that agree in all but the controller
to states that agree in all but it, with the same outcome and the same value read (R7, R75). -/

namespace Sys2Proof.Machine

/-! ### Agreement in all but the controller -/

/-- The two states agree in all but the attached controller. -/
def SameBlock (s t : State) : Prop := ∃ c, t = { s with ctl := c }

/-- The two outcomes are of one kind, with one reason or with states that agree in all but the controller. -/
inductive SameOut : Out → Out → Prop where
  | next {s t : State} (h : SameBlock s t) : SameOut (.next s) (.next t)
  | fault (f : Fault) : SameOut (.fault f) (.fault f)
  | refused (r : Refusal) : SameOut (.refused r) (.refused r)

/-- An operation whose outcome the controller does not reach. -/
def Blind (f : State → Out) : Prop := ∀ ⦃s t : State⦄, SameBlock s t → SameOut (f s) (f t)

/-- A change of state that the controller does not reach. -/
def BlindUpdate (f : State → State) : Prop := ∀ ⦃s t : State⦄, SameBlock s t → SameBlock (f s) (f t)

/-- An operation that brings back a value, where the controller reaches neither the value nor the change of state. -/
def BlindRead {α : Type} (f : State → α × State) : Prop :=
  ∀ ⦃s t : State⦄, SameBlock s t → (f t).1 = (f s).1 ∧ SameBlock (f s).2 (f t).2

theorem SameBlock.h_eq {s t : State} (a : SameBlock s t) : t.h = s.h := by
  obtain ⟨c, rfl⟩ := a; rfl

theorem BlindUpdate.blind {f : State → State} (hf : BlindUpdate f) : Blind fun s => .next (f s) :=
  fun _ _ a => .next (hf a)

/-- A change of state that leaves the controller alone is blind when putting another controller before it is the same as
putting it after. -/
theorem BlindUpdate.of_comm {f : State → State} (hf : ∀ s c, f { s with ctl := c } = { f s with ctl := c }) :
    BlindUpdate f := by
  rintro s _ ⟨c, rfl⟩; exact ⟨c, hf s c⟩

/-- A blind operation carries on a blind outcome. -/
theorem SameOut.andThen {o p : Out} (h : SameOut o p) {f : State → Out} (hf : Blind f) :
    SameOut (Machine.andThen o f) (Machine.andThen p f) := by
  cases h with
  | next a => exact hf a
  | fault r => exact .fault r
  | refused r => exact .refused r

/-- What is done by the handle is blind when it is so with no handle and with each handle. -/
theorem blind_of_handle {f : State → Out}
    (hnone : ∀ {s t : State}, s.h = none → t.h = none → SameBlock s t → SameOut (f s) (f t))
    (hsome : ∀ {s t : State} (hs : Handle), s.h = some hs → t.h = some hs → SameBlock s t → SameOut (f s) (f t)) :
    Blind f := by
  intro s t a
  cases hh : s.h with
  | none => exact hnone hh (a.h_eq.trans hh) a
  | some hs => exact hsome hs hh (a.h_eq.trans hh) a

/-! ### Changes of state -/

theorem emit_blind (ev : Event) : BlindUpdate (emit ev) := by
  rintro s _ ⟨c, rfl⟩; exact ⟨ctlAfter ev { s with ctl := c }, rfl⟩

theorem emitAll_blind (evs : List Event) : BlindUpdate (emitAll evs) := by
  intro s t a
  induction evs generalizing s t with
  | nil => exact a
  | cons ev evs ih => exact ih (emit_blind ev a)

theorem nullHandle_blind : BlindUpdate nullHandle := .of_comm fun _ _ => rfl

theorem nullRead_blind : BlindUpdate nullRead := .of_comm fun _ _ => rfl

theorem completed_blind : BlindUpdate completed := .of_comm fun _ _ => rfl

theorem completedRead_blind (hs : Handle) (b : Byte) : BlindUpdate (completedRead hs b) := .of_comm fun _ _ => rfl

theorem ctlReady_blind : BlindUpdate ctlReady := by
  rintro s _ ⟨c, rfl⟩; exact ⟨{ c with readyAt := s.clock }, rfl⟩

theorem retire_blind : BlindUpdate retire := .of_comm fun _ _ => rfl

theorem start_blind (r : Request) (prog : List Item) : BlindUpdate (start r prog) := .of_comm fun _ _ => rfl

theorem nullRequest_blind (r : Request) : BlindUpdate (nullRequest r) :=
  .of_comm fun _ _ => by unfold nullRequest; split <;> rfl

theorem releaseAll_blind (hs : Handle) : BlindUpdate (releaseAll hs) := by
  intro s t a
  obtain ⟨c, h⟩ := emitAll_blind (hs.pins.map Event.release) a
  exact ⟨c, by unfold releaseAll; rw [h]⟩

/-! ### Reads -/

theorem draw_blind : BlindRead draw := by
  rintro s _ ⟨c, rfl⟩
  unfold draw
  dsimp only
  split <;> exact ⟨rfl, c, rfl⟩

theorem sampleLines_blind (ps : List Pin) : BlindRead (sampleLines ps) := by
  intro s t a
  induction ps generalizing s t with
  | nil => exact ⟨rfl, a⟩
  | cons p ps ih =>
    obtain ⟨hb, ad⟩ := draw_blind a
    rw [sampleLines_cons, sampleLines_cons, hb]
    obtain ⟨hbs, as⟩ := ih (emit_blind (.get p (draw s).1) ad)
    exact ⟨congrArg (List.cons (draw s).1) hbs, as⟩

theorem readLines_blind (hs : Handle) : BlindRead (readLines hs) := by
  intro s t a
  cases h : hs.rw with
  | none => rw [readLines_unwired h, readLines_unwired h]; exact ⟨rfl, a⟩
  | some q =>
    rw [readLines_wired h, readLines_wired h]
    obtain ⟨hbs, as⟩ := sampleLines_blind hs.d (emitAll_blind _ a)
    exact ⟨congrArg gather hbs, emitAll_blind _ as⟩

theorem readByte_blind (hs : Handle) : BlindRead (readByte hs) := by
  intro s t a
  unfold readByte
  obtain ⟨hhi, ahi⟩ := readLines_blind hs a
  cases hs.w with
  | eight => exact ⟨hhi, ahi⟩
  | four =>
    obtain ⟨hlo, alo⟩ := readLines_blind hs ahi
    dsimp only
    rw [hhi, hlo]
    exact ⟨rfl, alo⟩

theorem readWith_blind (rs : Bool) (hs : Handle) : BlindRead (readWith rs hs) :=
  fun _ _ a => readByte_blind hs (emit_blind _ a)

theorem pollOnce_blind (hs : Handle) : BlindRead (pollOnce hs) := by
  intro s t a
  obtain ⟨hb, ar⟩ := readWith_blind false hs a
  unfold pollOnce
  dsimp only
  rw [hb]
  split
  · split
    · exact ⟨rfl, emit_blind _ ar⟩
    · exact ⟨rfl, ctlReady_blind ar⟩
  · exact ⟨rfl, a⟩

/-! ### Transfers and instructions -/

theorem sendFrame_blind (rs : Bool) (x : Byte) : Blind (sendFrame rs x) := by
  refine blind_of_handle (fun hss hst a => ?_) (fun hs hss hst a => ?_)
  · rw [sendFrame_none hss, sendFrame_none hst]; exact .next (nullHandle_blind a)
  · rw [sendFrame_some hss, sendFrame_some hst]; exact .next (completed_blind (emitAll_blind _ a))

theorem readFrame_blind (rs : Bool) : Blind (readFrame rs) := by
  refine blind_of_handle (fun hss hst a => ?_) (fun hs hss hst a => ?_)
  · rw [readFrame_none hss, readFrame_none hst]; exact .next (nullRead_blind a)
  · obtain ⟨hb, ar⟩ := readWith_blind rs hs a
    rw [readFrame_some hss, readFrame_some hst, hb]; exact .next (completedRead_blind hs _ ar)

theorem writeBits_blind (x : Byte) (w : Width) : Blind (writeBits x w) := by
  refine blind_of_handle (fun hss hst a => ?_) (fun hs hss hst a => ?_) <;> simp only [writeBits, hss, hst]
  · exact .next (nullHandle_blind a)
  · split
    · exact .next (completed_blind (emitAll_blind _ a))
    · exact .refused .width

theorem readBits_blind (w : Width) : Blind (readBits w) := by
  refine blind_of_handle (fun hss hst a => ?_) (fun hs hss hst a => ?_) <;> simp only [readBits, hss, hst]
  · exact .next (nullRead_blind a)
  · obtain ⟨hb, ar⟩ := readLines_blind hs a
    rw [hb]
    split
    · exact .next (completedRead_blind hs _ ar)
    · exact .refused .width

theorem exec_blind (i : Instr) : Blind (exec i) := by
  intro s t a
  rw [exec_eq_shape, exec_eq_shape]
  cases shapeOf i with
  | write rs x => exact sendFrame_blind rs x a
  | read rs => exact readFrame_blind rs a
  | nibble v => exact writeBits_blind v .four a

/-! ### The items of a sequence -/

/-- An item that is done once its action goes on. -/
theorem andThen_retire_blind {act : State → Out} (hact : Blind act) :
    Blind fun s => andThen (act s) fun t => .next (retire t) :=
  fun _ _ a => (hact a).andThen retire_blind.blind

theorem gated_blind {act : State → Out} (hact : Blind act) : Blind (gated act) := by
  refine blind_of_handle (fun hss hst a => ?_) (fun hs hss hst a => ?_) <;> simp only [gated, hss, hst]
  · exact andThen_retire_blind hact a
  · obtain ⟨hfree, ap⟩ := pollOnce_blind hs a
    rw [hfree]
    split
    · exact andThen_retire_blind hact ap
    · exact .next ap

theorem runInstr_blind (i : Instr) : Blind (runInstr i) := by
  intro s t a
  unfold runInstr
  split
  · exact gated_blind (exec_blind i) a
  · exact andThen_retire_blind (exec_blind i) a

theorem runCode_blind (c : WireCode) : Blind (runCode c) := by
  intro s t a
  unfold runCode
  split
  · exact runInstr_blind _ a
  · exact gated_blind (sendFrame_blind false 0x00) a
  · exact .refused .badWord

theorem runWord_blind (nbits w : Nat) : Blind (runWord nbits w) := by
  intro s t a
  unfold runWord
  split
  · exact runInstr_blind _ a
  · exact .fault .reservedFrame
  · exact .refused .badWord

theorem runPoll_blind : Blind runPoll := gated_blind completed_blind.blind

theorem onHandle_blind {f : Handle → State → State} (hf : ∀ hs, BlindUpdate (f hs)) : Blind (onHandle f) := by
  refine blind_of_handle (fun hss hst a => ?_) (fun hs hss hst a => ?_) <;> simp only [onHandle, hss, hst]
  · exact .next (retire_blind (nullHandle_blind a))
  · exact .next (retire_blind (hf hs a))

theorem runItem_blind (it : Item) : Blind (runItem it) := by
  cases it with
  | word nbits w => exact runWord_blind nbits w
  | code c => exact runCode_blind c
  | poll => exact runPoll_blind
  | rawWrite x w => exact andThen_retire_blind (writeBits_blind x w)
  | rawRead w => exact andThen_retire_blind (readBits_blind w)
  | wait d => exact fun _ _ a => .next (retire_blind (emit_blind _ a))
  | configureLines => exact onHandle_blind fun hs => emitAll_blind (lineEvents hs)
  | setControl v => exact onHandle_blind fun _ => .of_comm fun _ _ => rfl
  | setMode v => exact onHandle_blind fun _ => .of_comm fun _ _ => rfl
  | latchAddr => exact onHandle_blind fun _ => .of_comm fun _ _ => rfl
  | restoreAddr => rintro _ _ ⟨c, rfl⟩; exact runCode_blind _ ⟨c, rfl⟩
  | returnRead => rintro _ _ ⟨c, rfl⟩; exact .next ⟨c, rfl⟩
  | returnHandle => rintro _ _ ⟨c, rfl⟩; exact .next ⟨c, rfl⟩
  | releaseLines => exact onHandle_blind releaseAll_blind

/-! ### Requests and the step -/

theorem refusalOf_blind (r : Request) {s t : State} (a : SameBlock s t) : refusalOf r t = refusalOf r s := by
  obtain ⟨c, rfl⟩ := a; rfl

theorem beginInit_blind (r : Request) (hs : Handle) : BlindUpdate (beginInit r hs) := by
  intro s t a
  obtain ⟨hok, c, hd⟩ := draw_blind a
  unfold beginInit
  dsimp only
  rw [hok, hd]
  split <;> exact ⟨c, rfl⟩

theorem accept_blind (r : Request) : Blind (accept r) := by
  intro s t a
  unfold accept
  rw [refusalOf_blind r a, a.h_eq]
  split
  · exact .refused _
  · split
    · exact .next (beginInit_blind r _ a)
    · exact .next (nullRequest_blind r a)
    · exact .next (start_blind r _ a)

theorem step_blind : Blind step := by
  rintro s _ ⟨c, rfl⟩
  unfold step
  dsimp only
  split
  · exact .refused .overlap
  · split
    · exact runItem_blind _ ⟨c, rfl⟩
    · exact accept_blind _ ⟨c, rfl⟩
    · exact accept_blind _ ⟨c, rfl⟩
    · exact .next ⟨c, rfl⟩

/-- Settles O53: each operation is blind to the controller, from the events up to the step. -/
theorem controllerNeverReachesBlock : Obligations.ControllerNeverReachesBlock := by
  intro s c
  have hout : SameOut (step s) (step { s with ctl := c }) := step_blind ⟨c, rfl⟩
  generalize step s = o, step { s with ctl := c } = p at hout ⊢
  cases hout with
  | next a => obtain ⟨c', rfl⟩ := a; exact ⟨c', rfl⟩
  | fault f => rfl
  | refused r => rfl

end Sys2Proof.Machine
end

section
/-! PROOF. What `spread` and `gather` of R18 do bit by bit. -/

namespace Sys2Proof.Machine

/-- Bit p of a spread value is set exactly when p is the line of a set bit. -/
theorem spread_testBit_iff {d : List Pin} (hn : d.Nodup) (x : Byte) (p : Pin) :
    (spread d x).testBit p = true ↔ ∃ i, d[i]? = some p ∧ x.getLsbD i = true := by
  constructor
  · intro h
    have hp : p ∈ d := by
      by_contra hp
      rw [spread_testBit_outside x hp] at h
      cases h
    obtain ⟨i, hi⟩ := List.mem_iff_getElem?.1 hp
    exact ⟨i, hi, spread_testBit hn x hi ▸ h⟩
  · rintro ⟨i, hi, hx⟩
    rw [spread_testBit hn x hi, hx]

theorem gather_cons_getLsbD_zero (b : Bool) (bs : List Bool) : (gather (b :: bs)).getLsbD 0 = b := by
  cases b <;> simp [gather, flag]

theorem gather_cons_getLsbD_succ (b : Bool) (bs : List Bool) {i : Nat} (h : i + 1 < 8) :
    (gather (b :: bs)).getLsbD (i + 1) = (gather bs).getLsbD i := by
  have hi : i < 8 := by omega
  cases b <;> simp [gather, flag, h, BitVec.getLsbD_eq_getElem hi]

theorem gather_getLsbD (bs : List Bool) {i : Nat} (h : i < 8) : (gather bs).getLsbD i = bs.getD i false := by
  induction bs generalizing i with
  | nil => simp [gather]
  | cons b bs ih =>
    cases i with
    | zero => rw [gather_cons_getLsbD_zero, List.getD_cons_zero]
    | succ i => rw [gather_cons_getLsbD_succ b bs h, List.getD_cons_succ, ih (by omega)]

/-- Settles O5: `spread` and `gather` each by induction on their list; `spread` needs only that the pins are distinct. -/
theorem bitIOnLineI : Obligations.BitIOnLineI :=
  ⟨fun _ x p hn _ => spread_testBit_iff hn x p, fun bs _ h => gather_getLsbD bs h⟩

end Sys2Proof.Machine
end

section
/-! PROOF. What init refuses, and under which name (R265, R268). -/

namespace Sys2Proof.Machine

/-- A presented init request that meets a refusal is refused under its name (R268). -/
theorem step_init_refused {s : State} {r : Request} {hs : Handle} {why : Refusal} (hp : Presented r s)
    (hr : r.newHandle = some hs) (hw : initRefusal hs s = some why) : step s = .refused why := by
  obtain ⟨hphase, htodo, hport⟩ := hp
  have href : refusalOf r { s with reqPort := none } = some why := by
    rw [← hw, refusalOf, hr]; rfl
  rw [step_request hphase htodo hport, accept, href]

/-- Settles O41: each clause meets its own test of `initRefusal`, the tests before it having passed. -/
theorem initRefusals : Obligations.InitRefusals := by
  intro s r hs hp hr
  refine ⟨fun hh => ?_, fun hh h0 => ?_, fun hh h0 hpins => ?_, fun hh h0 hnodup hrange hshared => ?_⟩ <;>
    apply step_init_refused hp hr
  · simp [initRefusal, Option.isSome_iff_ne_none, hh]
  · simp [initRefusal, hh, h0]
  · rw [initRefusal, hh, if_neg (by simp), if_neg h0, if_pos hpins]
  · rw [initRefusal, hh, if_neg (by simp), if_neg h0, if_neg (not_not_intro ⟨hnodup, hrange⟩), if_pos hshared]

end Sys2Proof.Machine
end

section
/-! PROOF. What a step can do, said once (R55, R56): the events of the bus, what each item does when it goes on, and what
accepting a request does. -/

namespace Sys2Proof.Machine

/-! ### Events of the bus -/

/-- What frames, transfers, polls and waits on a handle are made of; on a null handle only waits are left. -/
inductive Drives (h : Option Handle) : List Event → Prop where
  | nil : Drives h []
  | wait (d : Delay) : Drives h [.wait d]
  | rs {hs : Handle} (hh : h = some hs) (b : Bool) : Drives h [.put hs.rs b]
  | write {hs : Handle} (hh : h = some hs) (x : Byte) : Drives h (writeEvents hs x)
  | read {hs : Handle} {q : Pin} (hh : h = some hs) (hq : hs.rw = some q) (bs : List Bool) : Drives h (readEvents hs q bs)
  | append {xs ys : List Event} (hx : Drives h xs) (hy : Drives h ys) : Drives h (xs ++ ys)

namespace Drives

/-- A write frame is RS and one or two transfers (R163). -/
theorem frame {h : Option Handle} {hs : Handle} (hh : h = some hs) (b : Bool) (x : Byte) :
    Drives h (frameEvents hs b x) := by
  have hbyte : Drives h (byteEvents hs x) := by
    unfold byteEvents
    cases hs.w with
    | eight => exact write hh x
    | four => exact append (write hh _) (write hh _)
  exact append (rs hh b) hbyte

variable {evs : List Event}

theorem port_none (d : Drives none evs) (free : PinState) (pt : Port) : portAfter free pt evs = pt := by
  induction d generalizing pt with
  | nil => rfl
  | wait d => rfl
  | rs hh b => cases hh
  | write hh x => cases hh
  | read hh hq bs => cases hh
  | append hx hy ihx ihy => rw [portAfter_append, ihx, ihy]

variable {h : Option Handle} {hs : Handle} (hh : h = some hs) (d : Drives h evs) (free : PinState)

include hh d

theorem owned (pt : Port) : (portAfter free pt evs).owned = pt.owned := by
  subst hh
  induction d generalizing pt with
  | nil => rfl
  | wait d => rfl
  | rs hh b => rfl
  | write hh x => exact (writeEvents_bus free pt x).2
  | read hh hq bs => exact (readEvents_bus free pt _ bs).2
  | append hx hy ihx ihy => rw [portAfter_append, ihy, ihx]

/-- The lines stay as they should be (R49 to R52). -/
theorem linesOk {p : Params} (w : hs.Wf p) {pt : Port} (ok : LinesOk hs pt) : LinesOk hs (portAfter free pt evs) := by
  subst hh
  induction d generalizing pt with
  | nil => exact ok
  | wait d => exact ok
  | rs hh b => cases hh; exact (putRs_linesOk w free ok b).1
  | write hh x => cases hh; exact (writeEvents_linesOk w free ok x).1
  | read hh hq bs => cases hh; exact (readEvents_linesOk w free ok hq bs).1
  | append hx hy ihx ihy => rw [portAfter_append]; exact ihy (ihx ok)

/-- No pin outside the handle is touched (R76). -/
theorem get_outside {p : Params} (w : hs.Wf p) {q : Pin} (hq : q ∉ hs.pins) (pt : Port) :
    pinGet q (portAfter free pt evs).pins = pinGet q pt.pins := by
  have hout := hq
  simp only [Handle.pins, List.mem_cons, List.mem_append, Option.mem_toList, not_or] at hout
  obtain ⟨hrs, he, hrw, hd⟩ := hout
  subst hh
  induction d generalizing pt with
  | nil => rfl
  | wait d => rfl
  | rs hh b => cases hh; simp [portAfter_cons, hrs]
  | write hh x => cases hh; rw [writeEvents_get w, if_neg hd, if_neg (not_or.2 ⟨he, hrw⟩)]
  | read hh hr bs =>
    cases hh
    rw [readEvents_get w free pt hr, if_neg hd, if_neg he, if_neg]
    rintro rfl
    exact hrw hr
  | append hx hy ihx ihy => rw [portAfter_append, ihy, ihx]

end Drives

/-! ### Operations of the bus -/

/-- From `s` to `t` nothing has happened but events of the bus. -/
def OnBus (s t : State) : Prop := ∃ evs, Drives s.h evs ∧ Did s t evs

theorem OnBus.refl (s : State) : OnBus s s := ⟨[], .nil, .refl s⟩

theorem OnBus.trans {s t u : State} (a : OnBus s t) (b : OnBus t u) : OnBus s u := by
  obtain ⟨xs, hx, dx⟩ := a
  obtain ⟨ys, hy, dy⟩ := b
  exact ⟨xs ++ ys, hx.append (dx.setup.h ▸ hy), dx.trans dy⟩

theorem OnBus.h_eq {s t : State} (a : OnBus s t) : t.h = s.h := by
  obtain ⟨_, -, d⟩ := a; exact d.setup.h

/-- Recording the outcome, the byte read and the free values taken, and the controller's being ready, is no event. -/
theorem OnBus.record {s t : State} (a : OnBus s t) (o : OutcomeCode) (b : Byte) (n : Nat) {c : Controller}
    (hc : CtlWf t.ctl → CtlWf c) : OnBus s { t with outcome := o, lastRead := b, drawn := n, ctl := c } := by
  obtain ⟨evs, hd, d⟩ := a
  have k := d.setup
  exact ⟨evs, hd, d.trace, d.port, ⟨k.params, k.h, k.todo, k.reqPort, k.script, k.foreign, k.addr, k.result⟩, d.phase,
    d.clock, fun h => hc (d.ctl h)⟩

theorem emitAll_onBus {s : State} {evs : List Event} (hd : Drives s.h evs) (hr : ∀ ev ∈ evs, ev.isRelease = false) :
    OnBus s (emitAll evs s) := ⟨evs, hd, emitAll_did hr s⟩

theorem readLines_onBus {hs : Handle} {s : State} (hh : s.h = some hs) : OnBus s (readLines hs s).2 := by
  cases hrw : hs.rw with
  | none => rw [readLines_unwired hrw]; exact .refl s
  | some q =>
    obtain ⟨bs, -, -, htrace, hsetup, -, -, hclock, hphase, hport, -⟩ := readLines_spec hrw s
    exact ⟨_, .read hh hrw bs, htrace, hport, hsetup, hphase, hclock, readLines_ctlWf hs⟩

theorem readWith_onBus {hs : Handle} {s : State} (hh : s.h = some hs) (rs : Bool) : OnBus s (readWith rs hs s).2 := by
  have h0 : OnBus s (emit (.put hs.rs rs) s) := emitAll_onBus (.rs hh rs) (by simp [Event.isRelease])
  have h1 := readLines_onBus (s := emit (.put hs.rs rs) s) hh
  unfold readWith readByte
  cases hs.w with
  | eight => exact h0.trans h1
  | four => exact (h0.trans h1).trans (readLines_onBus (h1.h_eq.trans hh))

theorem pollOnce_onBus {hs : Handle} {s : State} (hh : s.h = some hs) : OnBus s (pollOnce hs s).2 := by
  have h1 := readWith_onBus hh false
  unfold pollOnce
  dsimp only
  split
  · split
    · exact h1.trans (emitAll_onBus (.wait .backoff) (by simp [Event.isRelease]))
    · exact h1.record _ _ _ (c := { (readWith false hs s).2.ctl with readyAt := _ }) id
  · exact .refl s

/-- An operation of the bus. -/
def Acts (f : State → Out) : Prop := ∀ ⦃s t : State⦄, f s = .next t → OnBus s t

theorem nullHandle_onBus (s : State) : OnBus s (nullHandle s) := (OnBus.refl s).record .nullHandle s.lastRead s.drawn id

theorem nullRead_onBus (s : State) : OnBus s (nullRead s) := (OnBus.refl s).record _ _ _ id

theorem completed_onBus {s t : State} (a : OnBus s t) : OnBus s (completed t) := a.record .normal t.lastRead t.drawn id

theorem completedRead_onBus {s t : State} (a : OnBus s t) (hs : Handle) (b : Byte) : OnBus s (completedRead hs b t) :=
  a.record _ b t.drawn id

theorem sendFrame_acts (rs : Bool) (x : Byte) : Acts (sendFrame rs x) := by
  intro s t h
  cases hh : s.h with
  | none => rw [sendFrame_none hh] at h; cases h; exact nullHandle_onBus s
  | some hs =>
    rw [sendFrame_some hh] at h
    cases h
    exact completed_onBus (emitAll_onBus (.frame hh rs x) (frameEvents_not_release hs rs x))

theorem readFrame_acts (rs : Bool) : Acts (readFrame rs) := by
  intro s t h
  cases hh : s.h with
  | none => rw [readFrame_none hh] at h; cases h; exact nullRead_onBus s
  | some hs => rw [readFrame_some hh] at h; cases h; exact completedRead_onBus (readWith_onBus hh rs) hs _

theorem writeBits_acts (x : Byte) (w : Width) : Acts (writeBits x w) := by
  intro s t h
  unfold writeBits at h
  split at h
  · cases h; exact nullHandle_onBus s
  · rename_i hs hh
    split at h
    · cases h; exact completed_onBus (emitAll_onBus (.write hh x) (writeEvents_not_release hs x))
    · cases h

theorem readBits_acts (w : Width) : Acts (readBits w) := by
  intro s t h
  unfold readBits at h
  split at h
  · cases h; exact nullRead_onBus s
  · rename_i hs hh
    split at h
    · cases h; exact completedRead_onBus (readLines_onBus hh) hs _
    · cases h

theorem exec_acts (i : Instr) : Acts (exec i) := by
  intro s t h
  rw [exec_eq_shape] at h
  cases hi : shapeOf i with
  | write rs x => rw [hi] at h; exact sendFrame_acts rs x h
  | read rs => rw [hi] at h; exact readFrame_acts rs h
  | nibble v => rw [hi] at h; exact writeBits_acts v .four h

/-! ### Items -/

/-- What item `it`, run in `s`, has done when it goes on to `t`. -/
inductive ItemRan (it : Item) (s t : State) : Prop where
  /-- something on the bus, and the item is done -/
  | bus {u : State} (hu : OnBus s u) (ht : t = retire u)
  /-- one turn of the busy poll, answered busy: the item stays (R57) -/
  | polled {hs : Handle} (hh : s.h = some hs) (hbusy : (pollOnce hs s).1 = false) (ht : t = (pollOnce hs s).2)
  /-- createChar's address or the result was noted down -/
  | noted (a : BitVec 7) (r : Result) (ht : t = retire { s with addr := a, result := r })
  | configured {hs : Handle} (hh : s.h = some hs) (ht : t = retire (emitAll (lineEvents hs) s))
  | control {hs : Handle} (hh : s.h = some hs) (v : Byte) (hit : it = .setControl v)
      (ht : t = retire { s with h := some { hs with displayControl := v } })
  | mode {hs : Handle} (hh : s.h = some hs) (v : Byte) (hit : it = .setMode v)
      (ht : t = retire { s with h := some { hs with displayMode := v } })
  | released {hs : Handle} (hh : s.h = some hs) (hit : it = .releaseLines) (ht : t = retire (releaseAll hs s))

section Items

variable {it : Item} {s t : State}

theorem retired_ran {act : State → Out} (hact : Acts act)
    (h : (andThen (act s) fun u => .next (retire u)) = .next t) : ItemRan it s t := by
  obtain ⟨u, hu, ht⟩ := andThen_eq_next.1 h
  cases ht
  exact .bus (hact hu) rfl

theorem gated_ran {act : State → Out} (hact : Acts act) (h : gated act s = .next t) : ItemRan it s t := by
  unfold gated at h
  split at h
  · exact retired_ran hact h
  · rename_i hs hh
    dsimp only at h
    split at h
    · obtain ⟨u, hu, ht⟩ := andThen_eq_next.1 h
      cases ht
      exact .bus ((pollOnce_onBus hh).trans (hact hu)) rfl
    · rename_i hbusy
      cases h
      exact .polled hh (by simpa using hbusy) rfl

theorem runInstr_ran {i : Instr} (h : runInstr i s = .next t) : ItemRan it s t := by
  unfold runInstr at h
  split at h
  · exact gated_ran (exec_acts i) h
  · exact retired_ran (exec_acts i) h

theorem runCode_ran {c : WireCode} (h : runCode c s = .next t) : ItemRan it s t := by
  unfold runCode at h
  split at h
  · exact runInstr_ran h
  · exact gated_ran (sendFrame_acts false 0x00) h
  · cases h

theorem runWord_ran {nbits w : Nat} (h : runWord nbits w s = .next t) : ItemRan it s t := by
  unfold runWord at h
  split at h
  · exact runInstr_ran h
  · cases h
  · cases h

/-- An item that acts on the handle: on a null handle it is done at once. -/
theorem onHandle_ran {f : Handle → State → State} (hf : ∀ hs, s.h = some hs → ItemRan it s (retire (f hs s)))
    (h : onHandle f s = .next t) : ItemRan it s t := by
  unfold onHandle at h
  split at h
  · cases h; exact .bus (nullHandle_onBus s) rfl
  · rename_i hs hh
    cases h
    exact hf hs hh

theorem runPoll_ran (h : runPoll s = .next t) : ItemRan it s t :=
  gated_ran (act := fun u => .next (completed u)) (fun u _ hu => by cases hu; exact completed_onBus (.refl u)) h

theorem runItem_ran (h : runItem it s = .next t) : ItemRan it s t := by
  unfold runItem at h
  cases it with
  | word nbits w => exact runWord_ran h
  | code c => exact runCode_ran h
  | poll => exact runPoll_ran h
  | rawWrite x w => exact retired_ran (writeBits_acts x w) h
  | rawRead w => exact retired_ran (readBits_acts w) h
  | wait d => cases h; exact .bus (emitAll_onBus (.wait d) (by simp [Event.isRelease])) rfl
  | configureLines => exact onHandle_ran (fun hs hh => .configured hh rfl) h
  | setControl v => exact onHandle_ran (fun hs hh => .control hh v rfl rfl) h
  | setMode v => exact onHandle_ran (fun hs hh => .mode hh v rfl rfl) h
  | latchAddr => exact onHandle_ran (fun hs hh => .noted (addrToRestore hs s) s.result rfl) h
  | restoreAddr => exact runCode_ran h
  | returnRead => cases h; exact .noted s.addr _ rfl
  | returnHandle => cases h; exact .noted s.addr _ rfl
  | releaseLines => exact onHandle_ran (fun hs hh => .released hh rfl rfl) h

end Items

/-! ### Requests and the step -/

/-- What accepting request `r` in `s` has done when it goes on to `t` (R56, R262, R268). -/
inductive Accepted (r : Request) (s t : State) : Prop where
  | init {hs : Handle} (hr : r.newHandle = some hs) (hok : initRefusal hs s = none) (ht : t = beginInit r hs s)
  | null (hr : r.newHandle = none) (hh : s.h = none) (ht : t = nullRequest r s)
  | begun {hs : Handle} (hr : r.newHandle = none) (hh : s.h = some hs) (ht : t = start r (program hs r) s)

theorem accept_accepted {r : Request} {s t : State} (h : accept r s = .next t) : Accepted r s t := by
  unfold accept at h
  split at h
  · cases h
  · rename_i hok
    split at h
    · rename_i hs hr
      cases h
      exact .init hr (by simpa [refusalOf, hr] using hok) rfl
    · rename_i hr hh; cases h; exact .null hr hh rfl
    · rename_i hs hr hh; cases h; exact .begun hr hh rfl

/-- Everything a step that goes on can have done: an item, a request at the port or next in the script, or nothing. -/
inductive Stepped (s t : State) : Prop where
  | item {it : Item} {rest : List Item} (htodo : s.todo = it :: rest) (ran : ItemRan it s t)
  | request {r : Request} {p : Option Request} {l : List Request} (htodo : s.todo = [])
      (hr : s.reqPort = some r ∨ s.script.head? = some r) (acc : Accepted r { s with reqPort := p, script := l } t)
  | idle (htodo : s.todo = []) (ht : t = s)

theorem step_stepped {s t : State} (h : step s = .next t) : Stepped s t := by
  unfold step at h
  split at h
  · cases h
  · split at h
    · rename_i htodo; exact .item htodo (runItem_ran h)
    · rename_i htodo hr; exact .request htodo (.inl hr) (accept_accepted h)
    · rename_i htodo _ hr; exact .request htodo (.inr (by rw [hr]; rfl)) (accept_accepted h)
    · rename_i htodo _ _; cases h; exact .idle htodo rfl

end Sys2Proof.Machine
end

section
/-! PROOF. Every step keeps the invariant. -/

namespace Sys2Proof.Machine

/-! ### The part of the invariant that does not speak of the sequence -/

/-- `Inv` without the sequencer's part. -/
structure Sound (s : State) : Prop where
  legal : s.params.Legal
  pins : PinsWf s.port.pins
  handle : ∀ hs, s.h = some hs → hs.Wf s.params
  unowned : s.h = none → s.port.owned = []
  lines : ∀ hs, s.h = some hs → (∀ q ∈ hs.pins, q ∈ s.port.owned) → LinesOk hs s.port
  ctl : CtlWf s.ctl

/-- Items all of which keep the reserved bits 0 (R45). -/
def ItemsOk (todo : List Item) : Prop := ∀ it ∈ todo, it.Ok

@[simp] theorem itemsOk_nil : ItemsOk [] := nofun

@[simp] theorem itemsOk_cons {it : Item} {todo : List Item} : ItemsOk (it :: todo) ↔ it.Ok ∧ ItemsOk todo :=
  List.forall_mem_cons

@[simp] theorem itemsOk_append {xs ys : List Item} : ItemsOk (xs ++ ys) ↔ ItemsOk xs ∧ ItemsOk ys :=
  List.forall_mem_append

theorem itemsOk_flatMap {α : Type} {f : α → List Item} (h : ∀ a, ItemsOk (f a)) (l : List α) :
    ItemsOk (l.flatMap f) := by
  intro it hit
  obtain ⟨a, -, ha⟩ := List.mem_flatMap.1 hit
  exact h a it ha

theorem inv_iff {s : State} : Inv s ↔ Sound s ∧ (s.phase ≠ .idle → s.todo ≠ []) ∧ ItemsOk s.todo :=
  ⟨fun i => ⟨⟨i.legal, i.pins, i.handle, i.unowned, i.lines, i.ddram, i.cgram⟩, i.running, i.items⟩,
    fun ⟨h, hr, hi⟩ => ⟨h.legal, h.pins, h.handle, h.unowned, h.lines, hr, hi, h.ctl.1, h.ctl.2⟩⟩

theorem Sound.of_same {s t : State} (h : Sound s) (hp : t.params = s.params) (hh : t.h = s.h) (hport : t.port = s.port)
    (hc : t.ctl = s.ctl) : Sound t := by
  constructor
  · rw [hp]; exact h.legal
  · rw [hport]; exact h.pins
  · rw [hh, hp]; exact h.handle
  · rw [hh, hport]; exact h.unowned
  · rw [hh, hport]; exact h.lines
  · rw [hc]; exact h.ctl

/-- A request goes on running only while something is left to do (R55). -/
theorem Sound.retire {s : State} (h : Sound s) (hi : ItemsOk s.todo) : Inv (retire s) := by
  refine inv_iff.2 ⟨h.of_same rfl rfl rfl rfl, fun hp ht => hp ?_, fun it hit => ?_⟩
  · exact if_pos ht
  · exact hi it (List.mem_of_mem_tail hit)

theorem Sound.start {s : State} (h : Sound s) (r : Request) {prog : List Item} (hi : ItemsOk prog) :
    Inv (start r prog s) := by
  exact inv_iff.2 ⟨h.of_same rfl rfl rfl rfl, fun hp ht => hp (if_pos ht), hi⟩

/-! ### Items -/

theorem emitAll_pinsWf {s : State} (h : PinsWf s.port.pins) (evs : List Event) : PinsWf (emitAll evs s).port.pins := by
  induction evs generalizing s with
  | nil => exact h
  | cons ev evs ih => exact ih (apply_wf h ev)

theorem OnBus.sound {s t : State} (a : OnBus s t) (h : Sound s) : Sound t := by
  obtain ⟨evs, hd, d⟩ := a
  have hport := d.port PinState.undriven
  refine ⟨?_, ?_, fun hs hh => ?_, fun hh => ?_, fun hs hh ho => ?_, d.ctl h.ctl⟩
  · rw [d.setup.params]; exact h.legal
  · rw [hport]; exact portAfter_wf h.pins evs
  · rw [d.setup.params]; exact h.handle hs (d.setup.h ▸ hh)
  · rw [d.setup.h] at hh
    rw [hh] at hd
    rw [hport, hd.port_none]
    exact h.unowned hh
  · rw [d.setup.h] at hh
    rw [hport, hd.owned hh] at ho
    rw [hport]
    exact hd.linesOk hh _ (h.handle hs hh) (h.lines hs hh ho)

theorem Sound.configured {s : State} {hs : Handle} (h : Sound s) (hh : s.h = some hs) :
    Sound (emitAll (lineEvents hs) s) := by
  have hsame : (emitAll (lineEvents hs) s).h = some hs := (emitAll_h _ s).trans hh
  refine ⟨?_, emitAll_pinsWf h.pins _, fun k hk => ?_, fun hn => ?_, fun k hk _ => ?_, emitAll_ctlWf _ h.ctl⟩
  · rw [emitAll_params]; exact h.legal
  · rw [emitAll_params]; exact h.handle k (by rwa [emitAll_h] at hk)
  · rw [hsame] at hn; cases hn
  · rw [hsame] at hk
    cases hk
    rw [emitAll_port (lineEvents_not_release hs) PinState.undriven]
    exact lineEvents_linesOk (h.handle hs hh) _ _

theorem Sound.released {s : State} (h : Sound s) (hs : Handle) : Sound (releaseAll hs s) :=
  ⟨(emitAll_params _ s).symm ▸ h.legal, emitAll_pinsWf h.pins _, nofun, fun _ => rfl, nofun, emitAll_ctlWf _ h.ctl⟩

/-- A new handle on the same pins, so on the same lines. -/
theorem Sound.withFlags {s : State} {hs : Handle} (h : Sound s) (hh : s.h = some hs) {c m : Byte}
    (hc : c &&& 0xF8 = 0) (hm : m &&& 0xFC = 0) :
    Sound { s with h := some { hs with displayControl := c, displayMode := m } } := by
  have w := h.handle hs hh
  refine ⟨h.legal, h.pins, fun k hk => ?_, nofun, fun k hk ho => ?_, h.ctl⟩ <;> cases hk
  · exact ⟨w.width, w.mask, w.distinct, w.inRange, w.rows, w.offsets, w.functionReserved, w.functionDL, w.functionN,
      hc, hm⟩
  · have ok := h.lines hs hh ho
    exact ⟨ok.eLow, ok.rsOut, ok.rwOut, ok.data, ok.noContention, ok.unwired⟩

theorem ItemRan.keeps_inv {it : Item} {rest : List Item} {s t : State} (i : Inv s) (htodo : s.todo = it :: rest)
    (ran : ItemRan it s t) : Inv t := by
  obtain ⟨h, -, hi⟩ := inv_iff.1 i
  have hit : it.Ok := hi it (by simp [htodo])
  cases ran with
  | bus hu ht =>
    obtain ⟨evs, -, d⟩ := id hu
    exact ht ▸ (hu.sound h).retire (d.setup.todo.symm ▸ hi)
  | polled hh _ ht =>
    have hu := pollOnce_onBus hh
    obtain ⟨evs, -, d⟩ := id hu
    refine ht ▸ inv_iff.2 ⟨hu.sound h, fun _ => ?_, d.setup.todo.symm ▸ hi⟩
    rw [d.setup.todo, htodo]
    simp
  | noted a r ht =>
    have hu : Sound { s with addr := a, result := r } := h.of_same rfl rfl rfl rfl
    exact ht ▸ hu.retire hi
  | configured hh ht => exact ht ▸ (h.configured hh).retire ((emitAll_todo _ s).symm ▸ hi)
  | control hh v hv ht =>
    subst hv
    exact ht ▸ (h.withFlags hh hit (h.handle _ hh).modeReserved).retire hi
  | mode hh v hv ht =>
    subst hv
    exact ht ▸ (h.withFlags hh (h.handle _ hh).controlReserved hit).retire hi
  | released hh _ ht => exact ht ▸ (h.released _).retire ((emitAll_todo _ s).symm ▸ hi)

/-! ### Requests -/

/-- Both forms of a toggle keep reserved bits 0 (R45, R230). -/
theorem setBits_reserved {g m k : Byte} (hg : g &&& k = 0) (hm : m &&& k = 0) : setBits g m &&& k = 0 := by
  rw [setBits, BitVec.and_or_distrib_right, hg, hm]
  rfl

theorem clearBits_reserved {g k : Byte} (m : Byte) (hg : g &&& k = 0) : clearBits g m &&& k = 0 := by
  rw [clearBits, BitVec.and_assoc, BitVec.and_comm (~~~m), ← BitVec.and_assoc, hg]
  exact BitVec.zero_and

theorem sendCommand_ok (x : Byte) : ItemsOk (reqSendCommand x) := by simp [reqSendCommand, Item.Ok]

theorem sendData_ok (x : Byte) : ItemsOk (reqSendData x) := by simp [reqSendData, Item.Ok]

theorem seqControl_ok {g : Byte} (hg : g &&& 0xF8 = 0) : ItemsOk (seqControl g) :=
  itemsOk_cons.2 ⟨hg, sendCommand_ok _⟩

theorem seqMode_ok {g : Byte} (hg : g &&& 0xFC = 0) : ItemsOk (seqMode g) := itemsOk_cons.2 ⟨hg, sendCommand_ok _⟩

theorem seqLongWait_ok (hs : Handle) : ItemsOk (seqLongWait hs) := by unfold seqLongWait; split <;> simp [Item.Ok]

theorem reqClear_ok (hs : Handle) : ItemsOk (reqClear hs) := itemsOk_append.2 ⟨sendCommand_ok _, seqLongWait_ok hs⟩

theorem reqHome_ok (hs : Handle) : ItemsOk (reqHome hs) := itemsOk_append.2 ⟨sendCommand_ok _, seqLongWait_ok hs⟩

theorem seqHandshake_ok (hs : Handle) : ItemsOk (seqHandshake hs) := by
  unfold seqHandshake
  cases hs.w with
  | eight => simp [List.replicate, Item.Ok]
  | four => exact itemsOk_flatMap (fun _ => by simp [Item.Ok]) _

theorem seqInit_ok (hs : Handle) : ItemsOk (seqInit hs) := by
  simp [seqInit, Item.Ok, seqHandshake_ok, sendCommand_ok, reqClear_ok, reqHome_ok,
    seqControl_ok (g := displayControlInit) rfl, seqMode_ok (g := displayModeInit) rfl]

theorem reqCreateChar_ok (hs : Handle) (index : Byte) (pattern : Vector Byte 8) :
    ItemsOk (reqCreateChar hs index pattern) := by
  have hrow : ∀ row, ItemsOk (seqGlyphRow index pattern row) := fun row =>
    itemsOk_append.2 ⟨sendCommand_ok _, sendData_ok _⟩
  have hread : ItemsOk (if hs.wired then .poll :: seqReadStatus else []) := by
    split <;> simp [seqReadStatus, Item.Ok]
  simp [reqCreateChar, Item.Ok, itemsOk_flatMap hrow, hread]

theorem program_ok {p : Params} {hs : Handle} (w : hs.Wf p) (r : Request) : ItemsOk (program hs r) := by
  have hc := w.controlReserved
  have hm := w.modeReserved
  cases r with
  | writeBits x w => simp [program, reqWriteBits, Item.Ok]
  | readBits w => simp [program, reqReadBits, Item.Ok]
  | sendCommand x => exact sendCommand_ok x
  | sendData x => exact sendData_ok x
  | busyWait => simp [program, reqBusyWait, Item.Ok]
  | readCommand => simp [program, reqReadCommand, seqReadStatus, Item.Ok]
  | readData => simp [program, reqReadData, Item.Ok]
  | init8 rs e rw d cols rows font => exact seqInit_ok hs
  | init4 rs e rw d cols rows font => exact seqInit_ok hs
  | deinit =>
    simp [program, reqDeinit, Item.Ok, reqClear_ok, reqHome_ok, reqDisplayOff, seqControl_ok (clearBits_reserved _ hc)]
  | setCursor col row => exact sendCommand_ok _
  | writeChar c => exact sendData_ok c
  | writeString str => exact itemsOk_flatMap sendData_ok str
  | writeCharAt c col row => exact itemsOk_append.2 ⟨sendCommand_ok _, sendData_ok c⟩
  | writeStringAt str col row => exact itemsOk_append.2 ⟨sendCommand_ok _, itemsOk_flatMap sendData_ok str⟩
  | createChar index pattern => exact reqCreateChar_ok hs index pattern
  | clear => exact reqClear_ok hs
  | home => exact reqHome_ok hs
  | displayOn | cursorOn | blinkOn => exact seqControl_ok (setBits_reserved hc rfl)
  | displayOff | cursorOff | blinkOff => exact seqControl_ok (clearBits_reserved _ hc)
  | leftToRight | autoscrollOn => exact seqMode_ok (setBits_reserved hm rfl)
  | rightToLeft | autoscrollOff => exact seqMode_ok (clearBits_reserved _ hm)
  | scrollDisplayLeft | scrollDisplayRight => exact sendCommand_ok _

/-- displayFunction at init, on its own bits (R39, R40). -/
theorem displayFunctionOf_bits (w : Width) (rows : Byte) (font : Font) :
    displayFunctionOf w rows font &&& 0xE3 = 0 ∧ hasBit (displayFunctionOf w rows font) 0x10 = decide (w = .eight) ∧
      hasBit (displayFunctionOf w rows font) 0x08 = decide (1 < rows.toNat) := by
  unfold displayFunctionOf
  generalize decide (1 < rows.toNat) = n
  cases w <;> cases font <;> cases n <;> decide

/-- The handle of init is sound when its pins and its rows are (R182). -/
theorem setupHandle_wf {p : Params} {w : Width} {rs e : Pin} {rw : Option Pin} {d : List Pin} {cols rows : Byte}
    {font : Font} (hd : d.length = w.bits) (hdist : (setupHandle w rs e rw d cols rows font).pins.Nodup)
    (hrange : ∀ q ∈ (setupHandle w rs e rw d cols rows font).pins, q < p.npins) (hrows : rows ≠ 0) :
    (setupHandle w rs e rw d cols rows font).Wf p := by
  obtain ⟨h1, h2, h3⟩ := displayFunctionOf_bits w rows font
  exact ⟨hd, rfl, hdist, hrange, hrows, rfl, h1, h2, h3, BitVec.zero_and, BitVec.zero_and⟩

/-- What init has checked before the allocation (R8, R13, R99, R194). -/
theorem initRefusal_none {hs : Handle} {s : State} (h : initRefusal hs s = none) :
    s.h = none ∧ hs.numlines ≠ 0 ∧ hs.pins.Nodup ∧ ∀ p ∈ hs.pins, p < s.params.npins := by
  unfold initRefusal at h
  split at h
  · cases h
  · split at h
    · cases h
    · split at h
      · cases h
      · rename_i hh hrows hpins
        obtain ⟨hdist, hrange⟩ := not_not.1 hpins
        exact ⟨by simpa using hh, hrows, hdist, hrange⟩

theorem newHandle_wf {r : Request} {hs : Handle} {s : State} (hr : r.newHandle = some hs)
    (hok : initRefusal hs s = none) : hs.Wf s.params := by
  obtain ⟨-, hrows, hdist, hrange⟩ := initRefusal_none hok
  cases r with
  | init8 rs e rw d cols rows font => cases hr; exact setupHandle_wf (Vector.length_toList) hdist hrange hrows
  | init4 rs e rw d cols rows font => cases hr; exact setupHandle_wf (Vector.length_toList) hdist hrange hrows
  | _ => cases hr

theorem Sound.withDraw {s : State} (h : Sound s) : Sound (draw s).2 :=
  h.of_same (draw_params s) (draw_h s) (draw_port s) (draw_ctl s)

/-- With a new handle on pins none of which is owned yet, nothing is said of the lines. -/
theorem Sound.allocated {s : State} (h : Sound s) (hh : s.h = none) {hs : Handle} (w : hs.Wf s.params) :
    Sound { s with h := some hs } := by
  refine ⟨h.legal, h.pins, fun k hk => ?_, nofun, fun k hk ho => ?_, h.ctl⟩ <;> cases hk
  · exact w
  · have := ho hs.rs List.mem_cons_self
    dsimp only at this
    rw [h.unowned hh] at this
    cases this

theorem Accepted.keeps_inv {r : Request} {s t : State} (i : Inv s) (acc : Accepted r s t) : Inv t := by
  obtain ⟨h, hrun, hi⟩ := inv_iff.1 i
  cases acc with
  | @init hs hr hok ht =>
    obtain ⟨hh, -⟩ := initRefusal_none hok
    have w := newHandle_wf hr hok
    have hdraw := h.withDraw
    subst ht
    unfold beginInit
    dsimp only
    split
    · have halloc := hdraw.allocated (hs := hs) (by rw [draw_h, hh]) (by rwa [draw_params])
      exact halloc.start r (program_ok w r)
    · exact inv_iff.2 ⟨hdraw.of_same rfl rfl rfl rfl, by simpa using hrun, by simpa using hi⟩
  | null hr hh ht =>
    subst ht
    unfold nullRequest
    split <;> exact inv_iff.2 ⟨h.of_same rfl rfl rfl rfl, hrun, hi⟩
  | begun hr hh ht => exact ht ▸ h.start r (program_ok (h.handle _ hh) r)

/-- Settles O48: an item keeps what `Sound` says and leaves the sequence to `retire`; a request begins a sound sequence. -/
theorem stepKeepsInv : Obligations.StepKeepsInv := by
  intro s t i h
  cases step_stepped h with
  | item htodo ran => exact ran.keeps_inv i htodo
  | request _ _ acc =>
    obtain ⟨h, hrun, hi⟩ := inv_iff.1 i
    refine acc.keeps_inv ?_
    exact inv_iff.2 ⟨h.of_same rfl rfl rfl rfl, hrun, hi⟩
  | idle _ ht => exact ht ▸ i

end Sys2Proof.Machine
end

section
/-! PROOF. What follows from the cases of a step: the trace and the pace of the sequencer, the handle, and the pins. -/

namespace Sys2Proof.Machine

/-! ### Trace and pace -/

/-- From `s` to `t` events `evs` were emitted and time went on by them, in the phase too unless the request has ended; the
parameters and the other handles' pins are as before. -/
structure Paced (s t : State) (evs : List Event) : Prop where
  trace : t.trace = s.trace ++ evs
  clock : t.clock = s.clock + minDuration s.params evs
  params : t.params = s.params
  foreign : t.foreign = s.foreign
  todo : t.todo = s.todo
  phase : t.phase = s.phase.plus evs.length

theorem Did.paced {s t : State} {evs : List Event} (d : Did s t evs) : Paced s t evs :=
  ⟨d.trace, d.clock, d.setup.params, d.setup.foreign, d.setup.todo, d.phase⟩

theorem Paced.refl (s : State) : Paced s s [] := (Did.refl s).paced

/-- Changes to the handle, the port, the address, the result and the free values are no events. -/
theorem Paced.record {s t : State} {evs : List Event} (p : Paced s t evs) (h : Option Handle) (pt : Port) (a : BitVec 7)
    (r : Result) (n : Nat) : Paced s { t with h := h, port := pt, addr := a, result := r, drawn := n } evs :=
  ⟨p.trace, p.clock, p.params, p.foreign, p.todo, p.phase⟩

theorem emitAll_paced (evs : List Event) (s : State) : Paced s (emitAll evs s) evs :=
  ⟨emitAll_trace .., emitAll_clock .., emitAll_params .., emitAll_foreign .., emitAll_todo .., emitAll_phase ..⟩

/-- An item that goes on is done and retired, or is a poll that stays where it stands. -/
theorem ItemRan.paced {it : Item} {s t : State} (ran : ItemRan it s t) :
    ∃ u evs, Paced s u evs ∧
      (t = retire u ∨ t = u ∧ ∃ hs, s.h = some hs ∧ (pollOnce hs s).1 = false ∧ t = (pollOnce hs s).2) := by
  cases ran with
  | bus hu ht => obtain ⟨evs, -, d⟩ := hu; exact ⟨_, evs, d.paced, .inl ht⟩
  | polled hh hbusy ht =>
    obtain ⟨evs, -, d⟩ := pollOnce_onBus hh
    exact ⟨_, evs, d.paced, .inr ⟨ht, _, hh, hbusy, ht⟩⟩
  | noted a r ht => exact ⟨_, [], (Paced.refl s).record s.h s.port a r s.drawn, .inl ht⟩
  | configured hh ht => exact ⟨_, _, emitAll_paced _ s, .inl ht⟩
  | control hh v _ ht | mode hh v _ ht => exact ⟨_, [], (Paced.refl s).record _ s.port s.addr s.result s.drawn, .inl ht⟩
  | @released hs hh _ ht =>
    exact ⟨_, _, (emitAll_paced (hs.pins.map Event.release) s).record _ _ _ _ _, .inl ht⟩

/-- Accepting a request emits nothing, and takes no time (R268). -/
theorem Accepted.quiet {r : Request} {s t : State} (acc : Accepted r s t) :
    t.trace = s.trace ∧ t.clock = s.clock ∧ t.params = s.params ∧ t.foreign = s.foreign ∧ t.port = s.port := by
  cases acc with
  | init hr hok ht => subst ht; unfold beginInit; dsimp only; split <;> simp
  | null hr hh ht => subst ht; unfold nullRequest; split <;> simp
  | begun hr hh ht => subst ht; simp

/-- Settles O51: an item is paced by its events, a request emits none. -/
theorem traceOnlyGrows : Obligations.TraceOnlyGrows := by
  intro s t h
  cases step_stepped h with
  | item htodo ran =>
    obtain ⟨u, evs, p, hend⟩ := ran.paced
    have hclock : s.clock ≤ u.clock := p.clock ▸ Nat.le_add_right _ _
    have hphase : ∀ r k, s.phase = .running r k → u.phase = .running r (k + evs.length) := fun r k hr => by
      rw [p.phase, hr]; rfl
    rcases hend with rfl | ⟨rfl, -⟩
    · refine ⟨evs, p.trace, hclock, p.params, p.foreign, fun r k hr _ => ?_⟩
      rw [retire_phase]
      split
      · exact .inl rfl
      · exact .inr (hphase r k hr)
    · exact ⟨evs, p.trace, hclock, p.params, p.foreign, fun r k hr _ => .inr (hphase r k hr)⟩
  | request htodo _ acc =>
    obtain ⟨htrace, hclock, hparams, hforeign, -⟩ := acc.quiet
    exact ⟨[], by rw [htrace, List.append_nil], hclock.ge, hparams, hforeign, fun _ _ _ hne => absurd htodo hne⟩
  | idle htodo ht =>
    subst ht
    exact ⟨[], (List.append_nil _).symm, le_rfl, rfl, rfl, fun _ _ _ hne => absurd htodo hne⟩

/-- Settles O54: an item that goes on stays or is retired. -/
theorem noCancel : Obligations.NoCancel := by
  intro s t r k it rest hphase htodo h
  cases step_stepped h with
  | item _ ran =>
    obtain ⟨u, evs, p, hend⟩ := ran.paced
    have hu : u.phase = .running r (k + evs.length) := by rw [p.phase, hphase]; rfl
    rcases hend with rfl | ⟨rfl, -⟩
    · have htail : u.todo.tail = rest := by rw [p.todo, htodo]; rfl
      have hend : (retire u).phase = if rest = [] then .idle else u.phase := by rw [retire_phase, htail]
      exact .inr ⟨htail, fun hne => ⟨_, (hend.trans (if_neg hne)).trans hu⟩, fun he => hend.trans (if_pos he)⟩
    · exact .inl ⟨p.todo, _, hu⟩
  | request hnil => rw [htodo] at hnil; cases hnil
  | idle hnil => rw [htodo] at hnil; cases hnil

/-- Settles O29: a retired item is gone from the sequence, so one that stays is a poll answered busy. -/
theorem onlyThePollRepeats : Obligations.OnlyThePollRepeats := by
  intro s t hs it rest hh hd htodo h hstay
  cases step_stepped h with
  | item _ ran =>
    obtain ⟨u, evs, p, rfl | ⟨-, hs', hh', hbusy, rfl⟩⟩ := ran.paced
    · rw [retire_todo, p.todo, htodo] at hstay
      exact absurd hstay (List.cons_ne_self it rest).symm
    · obtain rfl : hs' = hs := Option.some.inj (hh'.symm.trans hh)
      cases hrw : hs'.rw with
      | none => rw [pollOnce_unwired (by simp [Handle.wired, hrw])] at hbusy; cases hbusy
      | some q =>
        obtain ⟨bs, hlen, hfree, htrace, hsetup, -⟩ := pollOnce_spec hrw hd s
        have hbit : (answeredByte hs'.w bs).getLsbD 7 = true := by simpa [hbusy] using hfree
        exact ⟨q, bs, rfl, hlen, hbit, hsetup.h, by rw [htrace, if_pos hbit]⟩
  | request hnil => rw [htodo] at hnil; cases hnil
  | idle hnil => rw [htodo] at hnil; cases hnil

/-! ### The handle -/

/-- An item keeps the handle but for its two flag bytes, or is the release item, which ends it. -/
theorem ItemRan.handle {it : Item} {s t : State} (ran : ItemRan it s t) :
    t.h = s.h ∨ (∃ hs c m, s.h = some hs ∧ t.h = some { hs with displayControl := c, displayMode := m }) ∨
      (it = .releaseLines ∧ t.h = none) := by
  cases ran with
  | bus hu ht => subst ht; exact .inl hu.h_eq
  | polled hh _ ht => subst ht; exact .inl (pollOnce_onBus hh).h_eq
  | noted a r ht => exact .inl (ht ▸ rfl)
  | configured hh ht => exact .inl (by rw [ht, retire_h, emitAll_h])
  | control hh v _ ht => subst ht; exact .inr (.inl ⟨_, v, _, hh, rfl⟩)
  | mode hh v _ ht => subst ht; exact .inr (.inl ⟨_, _, v, hh, rfl⟩)
  | released _ hit ht => subst ht; exact .inr (.inr ⟨hit, rfl⟩)

/-- Only init changes whether there is a handle, and it starts from none (R194). -/
theorem Accepted.handle {r : Request} {s t : State} (acc : Accepted r s t) :
    t.h = s.h ∨ (r.newHandle ≠ none ∧ s.h = none) := by
  cases acc with
  | init hr hok ht => exact .inr ⟨by simp [hr], (initRefusal_none hok).1⟩
  | null hr hh ht => subst ht; unfold nullRequest; split <;> exact .inl rfl
  | begun hr hh ht => exact .inl (ht ▸ rfl)

/-- Settles O49: only the flag items touch a handle that stays; init is refused where there is one. -/
theorem configurationIsFixed : Obligations.ConfigurationIsFixed := by
  intro s t hs ht hh h hht
  have same : t.h = s.h → ht = { hs with displayControl := ht.displayControl, displayMode := ht.displayMode } :=
    fun he => by
      obtain rfl : ht = hs := Option.some.inj (hht.symm.trans (he.trans hh))
      rfl
  cases step_stepped h with
  | item _ ran =>
    rcases ran.handle with he | ⟨hs', c, m, hh', hflags⟩ | ⟨-, hnone⟩
    · exact same he
    · obtain rfl : hs' = hs := Option.some.inj (hh'.symm.trans hh)
      obtain rfl := Option.some.inj (hht.symm.trans hflags)
      rfl
    · rw [hnone] at hht; cases hht
  | request _ _ acc =>
    rcases acc.handle with he | ⟨-, hnone⟩
    · exact same he
    · dsimp only at hnone; rw [hh] at hnone; cases hnone
  | idle _ he => exact same (he ▸ rfl)

/-- Settles O50: a handle appears only in accepting an init request, and disappears only in the release item. -/
theorem handleLifetime : Obligations.HandleLifetime := by
  intro s t h
  cases step_stepped h with
  | item htodo ran =>
    rcases ran.handle with he | ⟨hs, c, m, hh, hflags⟩ | ⟨rfl, hnone⟩
    · exact ⟨fun hs ht => absurd (he.trans hs) ht, fun hs ht => absurd (he.symm.trans ht) hs⟩
    · rw [hh, hflags]
      exact ⟨nofun, nofun⟩
    · exact ⟨fun _ ht => absurd hnone ht, fun _ _ => by rw [htodo]; rfl⟩
  | request htodo hr acc =>
    rcases acc.handle with he | ⟨hnew, hnone⟩
    · exact ⟨fun hs ht => absurd (he.trans hs) ht, fun hs ht => absurd (he.symm.trans ht) hs⟩
    · exact ⟨fun _ _ => ⟨htodo, _, hr, hnew⟩, fun hs => absurd hnone hs⟩
  | idle _ he => exact ⟨fun hs ht => absurd (he ▸ hs) ht, fun hs ht => absurd (he ▸ ht) hs⟩

/-! ### The pins -/

theorem lineEvents_get_outside {p : Params} {hs : Handle} (w : hs.Wf p) {q : Pin} (hq : q ∉ hs.pins) (free : PinState)
    (pt : Port) : pinGet q (portAfter free pt (lineEvents hs)).pins = pinGet q pt.pins := by
  simp only [Handle.pins, List.mem_cons, List.mem_append, Option.mem_toList, not_or] at hq
  obtain ⟨hrs, he, hrw, hd⟩ := hq
  unfold lineEvents
  cases hr : hs.rw with
  | none => simp [portAfter_cons, w.mask_testBit, hrs, he, hd]
  | some r =>
    have : q ≠ r := fun e => hrw (e ▸ hr)
    simp [portAfter_cons, w.mask_testBit, hrs, he, hd, this]

theorem releases_get_outside {ps : List Pin} {q : Pin} (hq : q ∉ ps) (s : State) :
    pinGet q (emitAll (ps.map Event.release) s).port.pins = pinGet q s.port.pins := by
  induction ps generalizing s with
  | nil => rfl
  | cons p ps ih =>
    rw [List.mem_cons, not_or] at hq
    rw [List.map_cons, emitAll_cons, ih hq.2, emit_port, get_release, if_neg hq.1]

/-- An item touches no pin outside the handle. -/
theorem ItemRan.get_outside {it : Item} {s t : State} (ran : ItemRan it s t) {hs : Handle} (hh : s.h = some hs)
    (w : hs.Wf s.params) {q : Pin} (hq : q ∉ hs.pins) : pinGet q t.port.pins = pinGet q s.port.pins := by
  have bus : ∀ {u}, OnBus s u → pinGet q u.port.pins = pinGet q s.port.pins := fun ⟨evs, hd, d⟩ => by
    rw [d.port PinState.undriven, hd.get_outside hh _ w hq]
  have only : ∀ {k}, s.h = some k → k = hs := fun hk => Option.some.inj (hk.symm.trans hh)
  cases ran with
  | bus hu ht => have hb := bus hu; exact ht ▸ hb
  | polled hk _ ht => have hb := bus (pollOnce_onBus hk); exact ht ▸ hb
  | noted a r ht => exact ht ▸ rfl
  | configured hk ht =>
    obtain rfl := only hk
    rw [ht, retire_port, emitAll_port (lineEvents_not_release _) PinState.undriven, lineEvents_get_outside w hq]
  | control hk v _ ht => exact ht ▸ rfl
  | mode hk v _ ht => exact ht ▸ rfl
  | released hk _ ht =>
    obtain rfl := only hk
    exact ht ▸ releases_get_outside hq s

/-- With no handle an item changes no pin. -/
theorem ItemRan.port_none {it : Item} {s t : State} (ran : ItemRan it s t) (hh : s.h = none) : t.port = s.port := by
  cases ran with
  | bus hu ht =>
    obtain ⟨evs, hd, d⟩ := hu
    rw [hh] at hd
    rw [ht, retire_port, d.port PinState.undriven, hd.port_none]
  | noted a r ht => exact ht ▸ rfl
  | polled hk | configured hk | control hk | mode hk | released hk => rw [hh] at hk; cases hk

/-- Settles O52: every item stays within the handle's pins, and a request changes none. -/
theorem onlyOwnPins : Obligations.OnlyOwnPins := by
  intro s t h
  cases step_stepped h with
  | item _ ran => exact ⟨ran.port_none, fun hs hh w p hp => ran.get_outside hh w hp⟩
  | request _ _ acc =>
    obtain ⟨-, -, -, -, hport⟩ := acc.quiet
    exact ⟨fun _ => hport, fun _ _ _ _ _ => by rw [hport]⟩
  | idle _ ht => exact ⟨fun _ => ht ▸ rfl, fun _ _ _ _ _ => ht ▸ rfl⟩

end Sys2Proof.Machine
end

section
/-! PROOF. What an instruction puts on the wires, and what an observer of the wires makes of it (R60, R81, R126). -/

namespace Sys2Proof.Machine

/-! ### One transfer seen on the wires -/

theorem lowBits_getLsbD (w : Width) (x : Byte) (i : Nat) :
    (lowBits w x).getLsbD i = (decide (i < w.bits) && x.getLsbD i) := by
  cases w with
  | four =>
    have hmask : ∀ j : Nat, j < 8 → (0x0F : Byte).getLsbD j = decide (j < 4) := by decide
    by_cases hi : i < 8
    · rw [lowBits, BitVec.getLsbD_and, hmask i hi, Bool.and_comm]; rfl
    · rw [BitVec.getLsbD_of_ge _ _ (by omega), BitVec.getLsbD_of_ge _ _ (by omega), Bool.and_false]
  | eight =>
    by_cases hi : i < 8
    · simp [lowBits, Width.bits, hi]
    · rw [BitVec.getLsbD_of_ge _ _ (by omega), BitVec.getLsbD_of_ge _ _ (by omega), Bool.and_false]

/-- The data lines of a handle carry the low W bits (R81). -/
theorem gather_spread {p : Params} {hs : Handle} (w : hs.Wf p) (x : Byte) :
    gather (hs.d.map (spread hs.d (lowBits hs.w x)).testBit) = lowBits hs.w x := by
  obtain ⟨-, -, -, hn, -⟩ := w.apart
  refine BitVec.eq_of_getLsbD_eq fun i hi => ?_
  rw [gather_getLsbD _ hi, List.getD_eq_getElem?_getD, List.getElem?_map]
  cases hd : hs.d[i]? with
  | none =>
    have : ¬ i < hs.w.bits := by rw [← w.width]; exact not_lt.2 (List.getElem?_eq_none_iff.1 hd)
    simp [lowBits_getLsbD, this]
  | some p => exact spread_testBit hn _ hd

/-- A value of at most four lines is a nibble. -/
theorem gather_nibble {bs : List Bool} (h : bs.length ≤ 4) : gather bs &&& 15#8 = gather bs := by
  change lowBits .four (gather bs) = gather bs
  refine BitVec.eq_of_getLsbD_eq fun i hi => ?_
  rw [lowBits_getLsbD, gather_getLsbD _ hi]
  by_cases h4 : i < 4
  · simp [Width.bits, h4]
  · rw [List.getD_eq_default _ _ (by omega), Bool.and_false]

section Watch

variable {p : Params} {hs : Handle} (w : hs.Wf p)

include w

/-- A write transfer seen: RW low, and the low W bits on the lines (R100, R140). -/
theorem watch_writeEvents (x : Byte) {o : Watch} (hrw : hs.rw = none → o.rw = false) :
    (writeEvents hs x).foldl (Watch.see hs) o =
      { o with
        rw := false, lines := spread hs.d (lowBits hs.w x), eHigh := false, gets := [], toCome := o.toCome - 1
        seen := o.seen ++ [⟨o.rs, false, lowBits hs.w x, o.toCome != 0⟩] } := by
  obtain ⟨-, -, -, -, hq⟩ := w.apart
  unfold writeEvents
  cases hr : hs.rw with
  | none => simp [Watch.see, Watch.finish, Watch.transfer, gather_spread w, hrw hr]
  | some q =>
    obtain ⟨hqrs, hqe, -⟩ := hq q hr
    simp [Watch.see, Watch.finish, Watch.transfer, gather_spread w, hr, hqrs, hqe]

omit w in
theorem watch_gets {ps : List Pin} {bs : List Bool} (hl : bs.length = ps.length) (o : Watch) :
    (List.zipWith Event.get ps bs).foldl (Watch.see hs) o = { o with gets := o.gets ++ bs } := by
  induction ps generalizing bs o with
  | nil => rw [List.length_eq_zero_iff.1 hl]; simp
  | cons p ps ih =>
    cases bs with
    | nil => cases hl
    | cons b bs =>
      rw [List.zipWith_cons_cons, List.foldl_cons, ih (by simpa using hl)]
      simp [Watch.see]

/-- A read transfer seen: RW high, and the answers (R100, R145). It is no handshake transfer. -/
theorem watch_readEvents {q : Pin} (hr : hs.rw = some q) {bs : List Bool} (hl : bs.length = hs.d.length) (o : Watch) :
    (readEvents hs q bs).foldl (Watch.see hs) o =
      { o with
        rw := true, eHigh := false, gets := bs, seen := o.seen ++ [⟨o.rs, true, gather bs, false⟩] } := by
  obtain ⟨-, -, -, -, hq⟩ := w.apart
  obtain ⟨hqrs, hqe, -⟩ := hq q hr
  unfold readEvents
  rw [List.foldl_append, List.foldl_append, watch_gets hl]
  simp [Watch.see, Watch.finish, Watch.transfer, hr, hqrs, hqe]

end Watch

/-! ### Frames and raw nibbles seen on the wires -/

/-- A trace whose transfers make one code decodes to the code's instruction. -/
theorem decodeTrace_one {hs : Handle} {o : Watch} {evs : List Event} {c : Bool × WireCode} {i : Instr}
    (hc : traceCodes hs.w (transfersOf hs o evs) = .ok [c]) (hi : decode c.2 = .ok i) :
    decodeTrace hs o evs = .ok [⟨c.1, i⟩] := by
  unfold decodeTrace
  rw [hc]
  simp [Except.bind, decodeTagged, hi, Except.map]

/-- The halves of a byte, put together (R82). -/
theorem byte_of_halves (b : Byte) : (lowBits .four (b >>> 4) <<< 4) ||| (lowBits .four (b &&& 15#8) &&& 15#8) = b := by
  revert b
  exact Laws.TableRow.forall_byte (by decide)

section Seen

variable {p : Params} {hs : Handle} (w : hs.Wf p) (pt : Port)

include w

/-- A write frame seen is the frame code of its byte (R101, R102). -/
theorem traceCodes_frameEvents (rs : Bool) (x : Byte) :
    traceCodes hs.w (transfersOf hs (Watch.ofPort hs pt 0) (frameEvents hs rs x)) =
      .ok [(false, .frame (frameCode rs false x))] := by
  obtain ⟨hre, -⟩ := w.apart
  have hunw : hs.rw = none → (Watch.ofPort hs pt 0).rw = false := fun h => by simp [Watch.ofPort, h]
  have hrs : Watch.see hs (Watch.ofPort hs pt 0) (.put hs.rs rs) = { Watch.ofPort hs pt 0 with rs := rs } := by
    simp [Watch.see, hre]
  unfold transfersOf frameEvents byteEvents
  rw [List.foldl_cons, hrs]
  cases hw : hs.w with
  | eight =>
    dsimp only
    rw [watch_writeEvents w _ (by exact hunw), hw]
    simp [Watch.ofPort, traceCodes, lowBits, Except.map]
  | four =>
    dsimp only
    rw [List.foldl_append, watch_writeEvents w (x >>> 4) (by exact hunw),
      watch_writeEvents w (x &&& 0xF) (fun _ => rfl), hw]
    simp [Watch.ofPort, traceCodes, Except.map, byte_of_halves]

/-- A read frame seen is the frame code of the byte that came back (R112, R114). -/
theorem traceCodes_readFrameEvents {q : Pin} (hr : hs.rw = some q) (rs : Bool) {bs : List Bool} (hl : bs.length = 8) :
    traceCodes hs.w (transfersOf hs (Watch.ofPort hs pt 0) (readFrameEvents hs rs bs)) =
      .ok [(false, .frame (frameCode rs true (answeredByte hs.w bs)))] := by
  obtain ⟨hre, -⟩ := w.apart
  have hrs : Watch.see hs (Watch.ofPort hs pt 0) (.put hs.rs rs) = { Watch.ofPort hs pt 0 with rs := rs } := by
    simp [Watch.see, hre]
  have hd := w.width
  unfold transfersOf readFrameEvents
  rw [List.foldl_cons, hrs]
  cases hw : hs.w with
  | eight =>
    rw [hr]
    dsimp only
    rw [watch_readEvents w hr (by rw [hl, hd, hw]; rfl)]
    simp [Watch.ofPort, traceCodes, answeredByte, Except.map]
  | four =>
    rw [hr]
    dsimp only
    have htake : (bs.take 4).length = hs.d.length := by rw [List.length_take, hl, hd, hw]; rfl
    have hdrop : (bs.drop 4).length = hs.d.length := by rw [List.length_drop, hl, hd, hw]; rfl
    rw [List.foldl_append, watch_readEvents w hr htake, watch_readEvents w hr hdrop]
    have hlo : gather (bs.drop 4) &&& 15#8 = gather (bs.drop 4) := gather_nibble (by rw [List.length_drop, hl])
    simp [Watch.ofPort, traceCodes, answeredByte, Except.map, hlo]

/-- A raw nibble seen with RS low while a handshake write is to come is its nibble code (R103, R187). -/
theorem traceCodes_nibble (hw : hs.w = .four) (hrs : pt.level hs.rs = .lo) (v : Byte) :
    traceCodes hs.w (transfersOf hs (Watch.ofPort hs pt 1) (writeEvents hs v)) =
      .ok [(true, .nibble ((v &&& 0x0F).setWidth 6))] := by
  have hunw : hs.rw = none → (Watch.ofPort hs pt 1).rw = false := fun h => by simp [Watch.ofPort, h]
  unfold transfersOf
  rw [watch_writeEvents w _ hunw, hw]
  simp [Watch.ofPort, traceCodes, rawCode, Except.map, hrs, lowBits, BitVec.and_assoc]

end Seen

/-! ### Every instruction -/

/-- Every command's byte names the command (R104 to R111, R115). -/
theorem decodeCommand_of_shape {i : Instr} {x : Byte} (h : shapeOf i = .write false x) : decodeCommand x = .ok i := by
  cases i with
  | clearDisplay => cases h; decide
  | returnHome x => cases h; revert x; decide
  | entryModeSet id sh => cases h; revert id sh; decide
  | displayControl d c b => cases h; revert d c b; decide
  | cursorDisplayShift sc rl x =>
    cases h
    have : ∀ sc rl, ∀ y : Fin 4,
        decodeCommand (Instr.cursorDisplayShift sc rl ⟨y⟩).byte = .ok (.cursorDisplayShift sc rl ⟨y⟩) := by decide
    exact this sc rl x.toFin
  | functionSet dl n f x =>
    cases h
    have : ∀ dl n f, ∀ y : Fin 4,
        decodeCommand (Instr.functionSet dl n f ⟨y⟩).byte = .ok (.functionSet dl n f ⟨y⟩) := by decide
    exact this dl n f x.toFin
  | setCgramAddress a =>
    cases h
    have : ∀ y : Fin 64, decodeCommand (Instr.setCgramAddress ⟨y⟩).byte = .ok (.setCgramAddress ⟨y⟩) := by decide
    exact this a.toFin
  | setDdramAddress a =>
    cases h
    have : ∀ y : Fin 128, decodeCommand (Instr.setDdramAddress ⟨y⟩).byte = .ok (.setDdramAddress ⟨y⟩) := by decide
    exact this a.toFin
  | readBusyFlagAddress bf ac => cases h
  | writeData d => cases h
  | readData d => cases h
  | initNibble3 => cases h
  | initNibble2 => cases h

/-- What the trace decoder makes of the events of a shape, sent before a port `pt`; `back` is the byte that came back. -/
def Shape.Seen (hs : Handle) (pt : Port) (evs : List Event) (back : Byte) : Shape → Prop
  | .write rs x => ∀ i, decode (.frame (frameCode rs false x)) = .ok i →
      decodeTrace hs (Watch.ofPort hs pt 0) evs = .ok [⟨false, i⟩]
  | .read rs => hs.wired = true → ∀ i, decode (.frame (frameCode rs true back)) = .ok i →
      decodeTrace hs (Watch.ofPort hs pt 0) evs = .ok [⟨false, i⟩]
  | .nibble v => pt.level hs.rs = .lo → ∀ i, decode (.nibble ((v &&& 0x0F).setWidth 6)) = .ok i →
      decodeTrace hs (Watch.ofPort hs pt 1) evs = .ok [⟨true, i⟩]

theorem exec_seen {s t : State} {hs : Handle} {i : Instr} (hh : s.h = some hs) (w : hs.Wf s.params)
    (hx : exec i s = .next t) : (shapeOf i).Seen hs s.port (t.trace.drop s.trace.length) t.lastRead := by
  rw [exec_eq_shape] at hx
  cases hi : shapeOf i with
  | write rs x =>
    rw [hi, Shape.run, sendFrame_some hh] at hx
    cases hx
    rw [completed_trace, emitAll_trace, List.drop_left]
    exact fun i => decodeTrace_one (traceCodes_frameEvents w _ rs x)
  | read rs =>
    rw [hi, Shape.run, readFrame_some hh] at hx
    cases hx
    intro hwired i
    obtain ⟨q, hq⟩ := Option.isSome_iff_exists.1 hwired
    obtain ⟨bs, hl, hback, htrace, -⟩ := readWith_spec hq w.width rs s
    rw [completedRead_trace, completedRead_lastRead, htrace, List.drop_left, hback]
    exact decodeTrace_one (traceCodes_readFrameEvents w _ hq rs hl)
  | nibble v =>
    obtain ⟨evs, hemits, d⟩ := exec_did hh w.width ((exec_eq_shape i s).trans hx)
    rw [hi] at hemits
    obtain ⟨hw, rfl⟩ := hemits
    rw [d.trace, List.drop_left]
    exact fun hrs i => decodeTrace_one (traceCodes_nibble w _ hw hrs v)

/-- Settles O18: each shape's transfers make the code of its byte, and that code decodes to the instruction. -/
theorem wireRoundTrip : Obligations.WireRoundTrip := by
  intro s t hs i hh w hx
  have hseen := exec_seen hh w hx
  have command : ∀ x, shapeOf i = .write false x → decode (.frame (frameCode false false x)) = .ok i := fun x h => by
    rw [decode, decodeFrame_frameCode]; exact decodeCommand_of_shape h
  cases i with
  | readBusyFlagAddress bf ac =>
    refine fun hwired => hseen hwired _ ?_
    rw [decode, decodeFrame_frameCode, BitVec.setWidth_eq_extractLsb' (by decide)]
  | readData d =>
    refine fun hwired => hseen hwired _ ?_
    rw [decode, decodeFrame_frameCode]
  | writeData d =>
    refine hseen _ ?_
    rw [decode, decodeFrame_frameCode]
  | initNibble3 => exact fun hrs => hseen hrs _ (by decide)
  | initNibble2 => exact fun hrs => hseen hrs _ (by decide)
  | clearDisplay | returnHome _ | entryModeSet _ _ | displayControl _ _ _ | cursorDisplayShift _ _ _
  | functionSet _ _ _ _ | setCgramAddress _ | setDdramAddress _ => exact hseen _ (command _ rfl)

end Sys2Proof.Machine
end

section
/-! PROOF. The lines after an instruction (R50 to R53, R76). -/

namespace Sys2Proof.Machine

/-- The levels of RS and RW and the direction of the bus that a shape leaves, from port `pt` to port `pu`. -/
def Shape.Leaves (hs : Handle) (pt pu : Port) : Shape → Prop
  | .write rs _ =>
    pu.level hs.rs = Level.ofBool rs ∧ (∀ q, hs.rw = some q → pu.level q = .lo) ∧ pu.busDir = .out
  | .read rs => pu.level hs.rs = Level.ofBool rs ∧ ∀ q, hs.rw = some q → pu.level q = .hi ∧ pu.busDir = .inp
  | .nibble _ =>
    pu.level hs.rs = pt.level hs.rs ∧ (∀ q, hs.rw = some q → pu.level q = .lo) ∧ pu.busDir = .out

/-- After a write the bus is OUT: set so when RW is wired, and so for ever when it is not (R51). -/
theorem busDir_after_write {hs : Handle} {pt : Port} (ok : LinesOk hs pt) :
    (if hs.wired then .out else pt.busDir) = Dir.out := by
  cases hrw : hs.rw with
  | none => rw [ok.unwired hrw, ite_self]
  | some q => simp [Handle.wired, hrw]

theorem shape_leaves {p : Params} {hs : Handle} (w : hs.Wf p) {pt : Port} (ok : LinesOk hs pt) (free : PinState)
    {sh : Shape} {evs : List Event} (he : sh.Emits hs evs) : sh.Leaves hs pt (portAfter free pt evs) := by
  cases sh with
  | write rs x =>
    obtain rfl := he
    obtain ⟨-, hrs, hrw, -⟩ := frameEvents_linesOk w free ok rs x
    exact ⟨hrs, hrw, (frameEvents_bus free rs x pt).1.trans (busDir_after_write ok)⟩
  | read rs =>
    obtain ⟨bs, rfl⟩ := he
    obtain ⟨-, hrs, hrw, -⟩ := readFrameEvents_linesOk w free ok rs bs
    refine ⟨hrs, fun q hq => ⟨hrw q hq, ?_⟩⟩
    rw [(readFrameEvents_bus free rs bs pt).1, if_pos (by simp [Handle.wired, hq])]
  | nibble v =>
    obtain ⟨-, rfl⟩ := he
    obtain ⟨-, hrs, hrw, -⟩ := writeEvents_linesOk w free ok v
    exact ⟨hrs, hrw, (writeEvents_bus free pt v).1.trans (busDir_after_write ok)⟩

/-- Settles O17: what an instruction leaves on the lines is what its shape leaves. -/
theorem linesAfterInstr : Obligations.LinesAfterInstr := by
  intro s t hs i hh w ok hx
  obtain ⟨evs, he, d⟩ := exec_did hh w.width hx
  obtain ⟨hok, howned, hout⟩ := shape_linesOk w ok PinState.undriven he
  have hleaves := shape_leaves w ok PinState.undriven he
  rw [← d.port] at hok howned hout hleaves
  refine ⟨hok, howned, hout, ?_⟩
  cases i <;> exact hleaves

end Sys2Proof.Machine
end

section
/-! PROOF. The busy poll has no bound (R57, R169, R266). -/

namespace Sys2Proof.Machine

theorem runItem_code (c : WireCode) (s : State) : runItem (.code c) s = runCode c s := rfl

/-- Eight answers "busy". -/
theorem answeredByte_busy (w : Width) : (answeredByte w (List.replicate 8 true)).getLsbD 7 = true := by
  cases w <;> decide

theorem pollOnce_noOverlap {s : State} {hs : Handle} (hh : s.h = some hs) (hn : NoOverlap s) :
    NoOverlap (pollOnce hs s).2 := by
  obtain ⟨evs, -, d⟩ := pollOnce_onBus hh
  rw [NoOverlap, d.phase, d.setup.reqPort]
  cases hp : s.phase with
  | idle => simp [Phase.plus]
  | running r k => simpa [NoOverlap, hp, Phase.plus] using hn

/-- A busy answer before a waiting write frame: the step emits the status read and the backoff wait, and the frame waits on
(R164). -/
theorem step_frame_busy {s : State} {hs : Handle} {q : Pin} {rs : Bool} {x : Byte} {items : List Item}
    {rest : List Bool} (hh : s.h = some hs) (hrw : hs.rw = some q) (hd : hs.d.length = hs.w.bits)
    (htodo : s.todo = .code (.frame (frameCode rs false x)) :: items) (hn : NoOverlap s)
    (ho : s.oracle = List.replicate 8 true ++ rest) :
    ∃ t, step s = .next t ∧ t.todo = s.todo ∧ t.h = s.h ∧ t.oracle = rest ∧ NoOverlap t ∧
      t.trace = s.trace ++ (readFrameEvents hs false (List.replicate 8 true) ++ [.wait .backoff]) := by
  obtain ⟨bs, -, hfree, htrace, hsetup, -, -, hanswers⟩ := pollOnce_spec hrw hd s
  obtain ⟨rfl, horacle⟩ := hanswers _ _ ho rfl
  rw [answeredByte_busy] at hfree htrace
  refine ⟨(pollOnce hs s).2, ?_, hsetup.todo, hsetup.h, horacle, pollOnce_noOverlap hh hn, ?_⟩
  · rw [step_item htodo hn, runItem_code, runCode_write, gated, hh]
    dsimp only
    rw [hfree]
    rfl
  · rw [htrace, List.append_assoc]; rfl

/-- Settles O28: by induction on the number of busy answers. -/
theorem busyPollHasNoBound : Obligations.BusyPollHasNoBound := by
  intro n
  induction n with
  | zero => intro s hs q rs x items rest _ _ _ _ _ ho; exact ⟨s, rfl, rfl, rfl, by simpa using ho, by simp⟩
  | succ n ih =>
    intro s hs q rs x items rest hh hrw hd htodo hn ho
    rw [show 8 * (n + 1) = 8 + 8 * n by omega, List.replicate_add, List.append_assoc] at ho
    obtain ⟨u, hstep, hutodo, huh, huoracle, hun, hutrace⟩ := step_frame_busy hh hrw hd htodo hn ho
    obtain ⟨t, hsteps, httodo, hth, htoracle, httrace⟩ :=
      ih u hs q rs x items rest (huh.trans hh) hrw hd (hutodo.trans htodo) hun huoracle
    refine ⟨t, (steps_succ_of hstep).trans hsteps, httodo.trans hutodo, hth.trans huh, htoracle, ?_⟩
    rw [httrace, hutrace, List.append_assoc, List.replicate_succ (n := n), List.flatten_cons]

end Sys2Proof.Machine
end

section
/-! PROOF. What the step takes first, and the handle an init request makes. -/

namespace Sys2Proof.Machine

/-- Settles O31: the overlap is looked for before anything else. -/
theorem overlapRefused : Obligations.OverlapRefused := by
  intro s r a k hphase hport
  unfold step
  rw [if_pos ⟨by rw [hphase]; exact nofun, by rw [hport]; rfl⟩]

theorem decodeWord_of_table {nbits w : Nat} {i : Instr} (h : decodeTableWord nbits w = some i) :
    decodeWord nbits w = .ok i := by
  unfold decodeTableWord at h
  cases hd : decodeWord nbits w with
  | ok j => rw [hd] at h; exact congrArg Except.ok (Option.some.inj h)
  | error e => rw [hd] at h; cases h

/-- Settles O26: the placed word stands at the head, and the port is clear. -/
theorem placedWordIsFetched : Obligations.PlacedWordIsFetched := by
  intro s nbits w i hi
  rw [step_item (withFetchWord_todo s nbits w) (by simp [NoOverlap]), runItem, runWord, decodeWord_of_table hi]

/-- displayFunction at init, bit by bit as a sum (R39, R40). -/
theorem displayFunctionOf_eq_sum (w : Width) (rows : Byte) (font : Font) :
    displayFunctionOf w rows font = BitVec.ofNat 8 ((if w = .eight then 0x10 else 0) +
      (if 1 < rows.toNat then 0x08 else 0) + (if font = .f5x10 then 0x04 else 0)) := by
  unfold displayFunctionOf
  by_cases hn : 1 < rows.toNat <;> simp only [hn] <;> cases w <;> cases font <;> rfl

/-- Settles O40: both requests ask for `setupHandle` of their operands. -/
theorem handleOfInit : Obligations.HandleOfInit := by
  intro rs e rw d8 d4 cols rows font
  have mask : ∀ (d : List Pin) p, (maskOf d).testBit p = true ↔ p ∈ d := fun d p => by simp [testBit_maskOf]
  have offsets : (rowTable cols).toList.map BitVec.toNat = [0x00, 0x40, cols.toNat, (0x40 + cols.toNat) % 256] := by
    simp [rowTable]
  have flags := fun w => displayFunctionOf_eq_sum w rows font
  exact ⟨⟨_, rfl, rfl, rfl, rfl, rfl, rfl, rfl, rfl, mask _, offsets, flags .eight, rfl, rfl⟩,
    ⟨_, rfl, rfl, rfl, rfl, rfl, rfl, rfl, rfl, mask _, offsets, flags .four, rfl, rfl⟩⟩

end Sys2Proof.Machine
end

section
/-! PROOF. The attached controller under a write transfer: what it latches, and when (R60; log 19). -/

namespace Sys2Proof.Machine

/-- Only a falling E makes the controller take anything. -/
theorem emitAll_ctl_of_no_fall {hs : Handle} {evs : List Event} (hev : ∀ ev ∈ evs, ev ≠ .put hs.e false) {s : State}
    (hh : s.h = some hs) : (emitAll evs s).ctl = s.ctl := by
  have one : ∀ {ev : Event} {u : State}, ev ≠ .put hs.e false → u.h = some hs → ctlAfter ev u = u.ctl :=
    fun {ev u} hne hu => by
      unfold ctlAfter
      split
      · rename_i k p hk
        obtain rfl : k = hs := Option.some.inj (hk.symm.trans hu)
        exact if_neg fun h => hne (by rw [h.1])
      · rfl
  induction evs generalizing s with
  | nil => rfl
  | cons ev evs ih =>
    have hrest := ih (fun e he => hev e (List.mem_cons_of_mem _ he)) (s := emit ev s) hh
    rw [emitAll_cons, hrest, emit_ctl, one (hev ev List.mem_cons_self) hh]

/-- A write transfer up to the pulse of E, which it leaves high (R140). -/
def raiseEvents (hs : Handle) (x : Byte) : List Event :=
  (match hs.rw with
    | some p => [.put p false, .setDirMask hs.mask .out]
    | none => []) ++
  [.putMask hs.mask (spread hs.d (lowBits hs.w x)), .wait .setup, .put hs.e true, .wait .pulse]

/-- What follows the pulse of E. -/
def settleEvents (hs : Handle) : List Event :=
  .wait .hold :: match hs.rw with
    | some _ => []
    | none => [.wait .settle]

theorem writeEvents_eq_raise_fall (hs : Handle) (x : Byte) :
    writeEvents hs x = raiseEvents hs x ++ ([.put hs.e false] ++ settleEvents hs) := by
  unfold writeEvents raiseEvents settleEvents
  cases hs.rw <;> rfl

theorem minDuration_raiseEvents (p : Params) (hs : Handle) (x : Byte) :
    minDuration p (raiseEvents hs x) = p.tAS + p.tPW := by
  unfold raiseEvents
  cases hs.rw <;> simp [minDuration, Params.eventNs, Params.ns]

theorem minDuration_writeEvents (p : Params) (hs : Handle) (x : Byte) :
    p.tAS + p.tPW + p.tH ≤ minDuration p (writeEvents hs x) := by
  unfold writeEvents
  cases hs.rw <;> simp [minDuration, Params.eventNs, Params.ns] <;> omega

theorem raiseEvents_not_release (hs : Handle) (x : Byte) : ∀ ev ∈ raiseEvents hs x, ev.isRelease = false :=
  fun ev hev => writeEvents_not_release hs x ev (by
    rw [writeEvents_eq_raise_fall]; exact List.mem_append_left _ hev)

section Raised

variable {p : Params} {hs : Handle} (w : hs.Wf p) {pt : Port} (ok : LinesOk hs pt) (free : PinState) (x : Byte)

include w

/-- Before E falls no event of a write transfer is a fall of E. -/
theorem raiseEvents_no_fall : ∀ ev ∈ raiseEvents hs x, ev ≠ .put hs.e false := by
  obtain ⟨-, -, -, -, hq⟩ := w.apart
  unfold raiseEvents
  cases hr : hs.rw with
  | none => simp
  | some q => simp [(hq q hr).2.1]

/-- Every pin while E is high. -/
theorem raiseEvents_get (q : Pin) :
    pinGet q (portAfter free pt (raiseEvents hs x)).pins =
      if q ∈ hs.d then
        ⟨if hs.wired then .out else (pinGet q pt.pins).dir,
          Level.ofBool ((spread hs.d (lowBits hs.w x)).testBit q)⟩
      else if q = hs.e then { pinGet q pt.pins with latch := .hi }
      else if hs.rw = some q then { pinGet q pt.pins with latch := .lo }
      else pinGet q pt.pins := by
  obtain ⟨-, -, hed, -, hq⟩ := w.apart
  unfold raiseEvents
  by_cases hd : q ∈ hs.d
  · have he : q ≠ hs.e := fun e => hed (e ▸ hd)
    cases hrw : hs.rw with
    | none => simp [portAfter_cons, w.mask_testBit, Handle.wired, hrw, hd, he]
    | some r =>
      have hr : q ≠ r := fun e => (hq r hrw).2.2 (e ▸ hd)
      simp [portAfter_cons, w.mask_testBit, Handle.wired, hrw, hd, he, hr]
  · cases hrw : hs.rw with
    | none => by_cases he : q = hs.e <;> simp [portAfter_cons, w.mask_testBit, hd, he, hed, Level.ofBool]
    | some r =>
      have := (hq r hrw).2
      by_cases he : q = hs.e <;> by_cases hr : q = r <;>
        simp_all [portAfter_cons, w.mask_testBit, Level.ofBool, eq_comm]

include ok

theorem raiseEvents_level_e : (portAfter free pt (raiseEvents hs x)).level hs.e = .hi := by
  obtain ⟨-, -, hed, -, -⟩ := w.apart
  refine level_latch (.inl ok.eLow) ?_
  rw [raiseEvents_get w, if_neg hed, if_pos rfl]

theorem raiseEvents_level_rw {q : Pin} (hr : hs.rw = some q) :
    (portAfter free pt (raiseEvents hs x)).level q = .lo := by
  obtain ⟨-, -, -, -, hq⟩ := w.apart
  obtain ⟨-, hqe, hqd⟩ := hq q hr
  refine level_latch (ok.rwOut q hr) ?_
  rw [raiseEvents_get w, if_neg hqd, if_neg hqe, if_pos hr]

omit ok in
theorem raiseEvents_level_rs : (portAfter free pt (raiseEvents hs x)).level hs.rs = pt.level hs.rs := by
  obtain ⟨hre, hrd, -, -, hq⟩ := w.apart
  refine level_of_get ?_
  rw [raiseEvents_get w, if_neg hrd, if_neg hre, if_neg]
  exact fun h => (hq _ h).1 rfl

theorem raiseEvents_level_data {q : Pin} (hd : q ∈ hs.d) :
    (portAfter free pt (raiseEvents hs x)).level q =
      Level.ofBool ((spread hs.d (lowBits hs.w x)).testBit q) := by
  unfold Port.level
  rw [raiseEvents_get w, if_pos hd]
  dsimp only
  rw [ok.data q hd, busDir_after_write ok]

end Raised

/-- A falling E with RW low or not wired, as the controller takes it (R60). -/
theorem ctlAfter_fall {s : State} {hs : Handle} (hh : s.h = some hs) (he : s.port.level hs.e = .hi)
    (hrw : ∀ q, hs.rw = some q → sampled s q = false) :
    ctlAfter (.put hs.e false) s =
      s.ctl.latch s.params s.clock hs.w (sampled s hs.rs) false (gather (hs.d.map (sampled s))) := by
  unfold ctlAfter
  rw [hh]
  dsimp only
  rw [if_pos ⟨rfl, he⟩]
  cases hr : hs.rw with
  | none => rfl
  | some q => dsimp only; rw [hrw q hr]

/-- What a write transfer does to the controller: it latches the low W bits, RW low and RS as it stands, at the time the
pulse of E ends (R60, R140). -/
theorem writeEvents_ctl {s : State} {hs : Handle} (hh : s.h = some hs) (w : hs.Wf s.params) (ok : LinesOk hs s.port)
    {rs : Bool} (hrs : s.port.level hs.rs = Level.ofBool rs) (x : Byte) :
    (emitAll (writeEvents hs x) s).ctl =
      s.ctl.latch s.params (s.clock + (s.params.tAS + s.params.tPW)) hs.w rs false (lowBits hs.w x) := by
  have hu : (emitAll (raiseEvents hs x) s).h = some hs := (emitAll_h _ s).trans hh
  have hctl := emitAll_ctl_of_no_fall (raiseEvents_no_fall w x) hh
  have hclock := (emitAll_clock (raiseEvents hs x) s).trans
    (congrArg (s.clock + ·) (minDuration_raiseEvents s.params hs x))
  have hparams := emitAll_params (raiseEvents hs x) s
  have hport := emitAll_port (raiseEvents_not_release hs x) PinState.undriven s
  rw [writeEvents_eq_raise_fall, emitAll_append, emitAll_append]
  generalize emitAll (raiseEvents hs x) s = u at hu hctl hclock hparams hport ⊢
  have he : u.port.level hs.e = .hi := hport ▸ raiseEvents_level_e w ok _ x
  have hsrs : sampled u hs.rs = rs := sampled_of_level (hport ▸ (raiseEvents_level_rs w _ x).trans hrs)
  have hsrw : ∀ q, hs.rw = some q → sampled u q = false := fun q hr =>
    sampled_of_level (b := false) (hport ▸ raiseEvents_level_rw w ok _ x hr)
  have hlines : gather (hs.d.map (sampled u)) = lowBits hs.w x := by
    rw [← gather_spread w x]
    refine congrArg gather (List.map_congr_left fun q hq => sampled_of_level ?_)
    rw [hport]
    exact raiseEvents_level_data w ok _ x hq
  have hquiet : ∀ ev ∈ settleEvents hs, ev ≠ .put hs.e false := by
    unfold settleEvents
    cases hs.rw <;> simp
  rw [emitAll_ctl_of_no_fall hquiet (s := emitAll [.put hs.e false] u) hu, emitAll_cons, emitAll_nil, emit_ctl,
    ctlAfter_fall hu he hsrw, hsrs, hlines, hctl, hclock, hparams]

end Sys2Proof.Machine
end

section
/-! PROOF. The 4-bit handshake resolves every power-on state of the controller (R59, R186; log 19). -/

namespace Sys2Proof.Machine

/-- Interface mode and nibble phase. -/
def interfaceOf (c : Controller) : Width × Option (BitVec 4) := (c.mode, c.half)

/-- The interface after an instruction: only Function Set touches it (R109). -/
theorem perform_interface (p : Params) (now : Nat) (c : Controller) (i : Instr) :
    interfaceOf (Controller.perform p now c i) =
      match i with
      | .functionSet dl _ _ _ => (if dl then .eight else .four, none)
      | _ => interfaceOf c := by
  have move : ∀ inc (c : Controller), interfaceOf (Controller.moveAc p inc c) = interfaceOf c := fun inc c => by
    unfold Controller.moveAc; split <;> rfl
  have scroll : ∀ c : Controller, interfaceOf (Controller.autoscroll c) = interfaceOf c := fun c => by
    unfold Controller.autoscroll; split <;> rfl
  have store : ∀ d (c : Controller), interfaceOf (Controller.store d c) = interfaceOf c := fun d c => by
    unfold Controller.store; split <;> rfl
  cases i with
  | cursorDisplayShift sc rl x =>
    cases sc with
    | true => rfl
    | false => exact move rl c
  | writeData d => exact (move _ _).trans ((scroll _).trans (store d c))
  | readData d => exact move _ c
  | _ => rfl

/-- When the controller is surely done with an instruction: no later than its own time and the time before it. -/
theorem perform_readyAt {p : Params} {now bound : Nat} {c : Controller} (hc : c.readyAt ≤ bound)
    (hshort : Controller.doneAt p now p.tExec ≤ bound) (hlong : Controller.doneAt p now p.tExecLong ≤ bound)
    (i : Instr) : (Controller.perform p now c i).readyAt ≤ bound := by
  cases i with
  | clearDisplay => exact hlong
  | returnHome x => exact hlong
  | cursorDisplayShift sc rl x => cases sc <;> exact hshort
  | readBusyFlagAddress bf ac => exact hc
  | initNibble3 => exact hc
  | initNibble2 => exact hc
  | entryModeSet _ _ | displayControl _ _ _ | functionSet _ _ _ _ | setCgramAddress _ | setDdramAddress _ | writeData _
  | readData _ => exact hshort

/-- The interface after command byte `b`. -/
def commandNext (b : Byte) (st : Width × Option (BitVec 4)) : Width × Option (BitVec 4) :=
  match decodeCommand b with
  | .ok (.functionSet dl _ _ _) => (if dl then .eight else .four, none)
  | _ => st

/-- A command byte but 0x00 is an instruction, and is performed (R115). -/
theorem complete_command {p : Params} {now bound : Nat} {c : Controller} {b : Byte} (hb : b ≠ 0) (hc : c.readyAt ≤ bound)
    (hshort : Controller.doneAt p now p.tExec ≤ bound) (hlong : Controller.doneAt p now p.tExecLong ≤ bound) :
    interfaceOf (Controller.complete p now false false b c) = commandNext b (interfaceOf c) ∧
      (Controller.complete p now false false b c).readyAt ≤ bound := by
  unfold Controller.complete commandNext
  rw [decodeFrame_frameCode]
  dsimp only
  cases hd : decodeCommand b with
  | ok i =>
    refine ⟨(perform_interface p now c i).trans ?_, perform_readyAt hc hshort hlong i⟩
    cases i <;> rfl
  | error e => exact absurd (decodeCommand_error hd).2 hb

/-- The interface after nibble `v`, one of the handshake's: in 8-bit mode a Function Set whose DL is its bit 0, whatever
DB3..DB0 hold; in 4-bit mode a half. -/
def nibbleNext (v : BitVec 4) : Width × Option (BitVec 4) → Width × Option (BitVec 4)
  | (.eight, _) => (if v.getLsbD 0 then .eight else .four, none)
  | (.four, none) => (.four, some v)
  | (.four, some hi) => commandNext (byteOfNibbles hi v) (.four, none)

/-- Whatever the interface, the four nibbles of the handshake leave 4-bit mode at a byte boundary (R186, G10). -/
theorem nibbleNext_handshake (st : Width × Option (BitVec 4)) :
    nibbleNext 2 (nibbleNext 3 (nibbleNext 3 (nibbleNext 3 st))) = (.four, none) := by
  obtain ⟨m, half⟩ := st
  cases m with
  | eight => rfl
  | four =>
    cases half with
    | none => decide
    | some hi => revert hi; decide

/-- A byte whose high half is a handshake nibble is a Function Set, whatever its low half. -/
theorem decodeCommand_handshake {v : BitVec 4} (hv : v = 3 ∨ v = 2) (lo : BitVec 4) :
    decodeCommand (byteOfNibbles v lo) =
      .ok (.functionSet (v.getLsbD 0) (lo.getLsbD 3) (lo.getLsbD 2) (lo.extractLsb' 0 2)) := by
  rcases hv with rfl | rfl <;> revert lo <;> decide

theorem byteOfNibbles_high (hi lo : BitVec 4) : (byteOfNibbles hi lo).extractLsb' 4 4 = hi := by
  revert hi lo; decide

/-- A byte with a handshake nibble as a half is not 0x00. -/
theorem byteOfNibbles_ne_zero {v : BitVec 4} (hv : v = 3 ∨ v = 2) (u : BitVec 4) :
    byteOfNibbles v u ≠ 0 ∧ byteOfNibbles u v ≠ 0 := by
  rcases hv with rfl | rfl <;> revert u <;> decide

/-- A handshake nibble latched by a controller that is ready. -/
theorem latch_nibble {p : Params} {now bound : Nat} {c : Controller} {lines : Byte} {v : BitVec 4} (hv : v = 3 ∨ v = 2)
    (hlines : lines.extractLsb' 0 4 = v) (hready : c.readyAt + p.tAS + p.tPW ≤ now) (hc : c.readyAt ≤ bound)
    (hshort : Controller.doneAt p now p.tExec ≤ bound) (hlong : Controller.doneAt p now p.tExecLong ≤ bound) :
    interfaceOf (Controller.latch p now .four false false lines c) = nibbleNext v (interfaceOf c) ∧
      (Controller.latch p now .four false false lines c).readyAt ≤ bound := by
  unfold Controller.latch
  rw [if_neg (by simp [hready])]
  dsimp only [Controller.seen]
  rw [hlines, byteOfNibbles_high]
  split
  · rename_i hmode
    have hdone := complete_command (p := p) (c := { c with draws := c.draws + 1 })
      (byteOfNibbles_ne_zero hv (Config.freeNibble c.draws)).1 hc hshort hlong
    rw [commandNext, decodeCommand_handshake hv] at hdone
    rw [show interfaceOf c = (.eight, c.half) by rw [interfaceOf, hmode]]
    exact hdone
  · rename_i hmode hhalf
    rw [show interfaceOf c = (.four, none) by rw [interfaceOf, hmode, hhalf]]
    exact ⟨by rw [interfaceOf, hmode]; rfl, hc⟩
  · rename_i hi hmode hhalf
    have hdone := complete_command (p := p) (c := { c with draws := c.draws + 1, half := none })
      (byteOfNibbles_ne_zero hv hi).2 hc hshort hlong
    have hfour : interfaceOf { c with draws := c.draws + 1, half := none } = (.four, none) := by rw [interfaceOf, hmode]
    rw [hfour] at hdone
    rw [show interfaceOf c = (.four, some hi) by rw [interfaceOf, hmode, hhalf]]
    exact hdone

/-- A 4-bit block in the middle of the handshake, RS low, before a controller that is ready and that no execution time
keeps busy over a gap. -/
structure Shaking (hs : Handle) (s : State) : Prop where
  h : s.h = some hs
  wf : hs.Wf s.params
  lines : LinesOk hs s.port
  width : hs.w = .four
  rsLow : s.port.level hs.rs = .lo
  ready : s.ctl.readyAt ≤ s.clock
  short : s.params.tExec ≤ s.params.tInitGap
  long : s.params.tExecLong ≤ s.params.tInitGap

/-- One nibble of the handshake and its gap (R186). -/
def nibbleEvents (hs : Handle) (x : Byte) : List Event := writeEvents hs x ++ [.wait .initGap]

theorem nibbleEvents_port (hs : Handle) (x : Byte) (s : State) :
    (emitAll (nibbleEvents hs x) s).port = portAfter PinState.undriven s.port (writeEvents hs x) := by
  rw [nibbleEvents, emitAll_append]
  exact emitAll_port (writeEvents_not_release hs x) PinState.undriven s

/-- The gap begins after the hold of the nibble's transfer. -/
theorem nibbleEvents_clock (hs : Handle) (x : Byte) (s : State) :
    s.clock + (s.params.tAS + s.params.tPW) + s.params.tH + s.params.tInitGap ≤
      (emitAll (nibbleEvents hs x) s).clock := by
  have hgap : minDuration s.params [.wait .initGap] = s.params.tInitGap := Nat.add_zero _
  have := minDuration_writeEvents s.params hs x
  rw [emitAll_clock, nibbleEvents, minDuration_append, hgap]
  omega

section Shake

variable {hs : Handle} {s : State} (h : Shaking hs s) {x : Byte} {v : BitVec 4} (hv : v = 3 ∨ v = 2)
  (hx : (lowBits .four x).extractLsb' 0 4 = v)

include h hv hx

/-- The controller takes the nibble, and is ready again at the end of the gap. -/
theorem nibbleEvents_ctl :
    interfaceOf (emitAll (nibbleEvents hs x) s).ctl = nibbleNext v (interfaceOf s.ctl) ∧
      (emitAll (nibbleEvents hs x) s).ctl.readyAt ≤ (emitAll (nibbleEvents hs x) s).clock := by
  have hctl : (emitAll (nibbleEvents hs x) s).ctl = (emitAll (writeEvents hs x) s).ctl := by
    rw [nibbleEvents, emitAll_append]
    exact emitAll_ctl_of_no_fall (by simp) ((emitAll_h _ s).trans h.h)
  rw [writeEvents_ctl h.h h.wf h.lines (rs := false) h.rsLow, h.width] at hctl
  rw [hctl]
  have hclock := nibbleEvents_clock hs x s
  have hready := h.ready
  have hshort := h.short
  have hlong := h.long
  refine latch_nibble hv hx ?_ ?_ ?_ ?_
  · omega
  · omega
  · unfold Controller.doneAt; omega
  · unfold Controller.doneAt; omega

theorem nibble_shakes : Shaking hs (emitAll (nibbleEvents hs x) s) where
  h := (emitAll_h _ s).trans h.h
  wf := by rw [emitAll_params]; exact h.wf
  lines := by rw [nibbleEvents_port]; exact (writeEvents_linesOk h.wf _ h.lines x).1
  width := h.width
  rsLow := by rw [nibbleEvents_port]; exact (writeEvents_linesOk h.wf _ h.lines x).2.1.trans h.rsLow
  ready := (nibbleEvents_ctl h hv hx).2
  short := by rw [emitAll_params]; exact h.short
  long := by rw [emitAll_params]; exact h.long

end Shake

/-- Settles O55: each nibble moves the interface as `nibbleNext` says, and the four together resolve every one. -/
theorem handshakeResolvesController : Obligations.HandshakeResolvesController := by
  intro s hs hh w ok hw hrs hready hshort hlong
  have h0 : Shaking hs s := ⟨hh, w, ok, hw, hrs, hready, hshort, hlong⟩
  have three : (lowBits .four 0x3).extractLsb' 0 4 = 3 := by decide
  have two : (lowBits .four 0x2).extractLsb' 0 4 = 2 := by decide
  have h1 := nibble_shakes h0 (.inl rfl) three
  have h2 := nibble_shakes h1 (.inl rfl) three
  have h3 := nibble_shakes h2 (.inl rfl) three
  have hend := (nibbleEvents_ctl h3 (.inr rfl) two).1
  rw [(nibbleEvents_ctl h2 (.inl rfl) three).1, (nibbleEvents_ctl h1 (.inl rfl) three).1,
    (nibbleEvents_ctl h0 (.inl rfl) three).1, nibbleNext_handshake] at hend
  have hall : ([0x3, 0x3, 0x3, 0x2].flatMap fun v => writeEvents hs v ++ [.wait .initGap]) =
      nibbleEvents hs 0x3 ++ (nibbleEvents hs 0x3 ++ (nibbleEvents hs 0x3 ++ nibbleEvents hs 0x2)) := by
    simp [nibbleEvents]
  dsimp only
  rw [hall, emitAll_append, emitAll_append, emitAll_append]
  exact Prod.ext_iff.1 hend

end Sys2Proof.Machine
end

section
/-! PROOF. Time: waits add up, with RW not wired transfers settle in between, and the clock is the least time (R72, R73,
R96, R309). -/

namespace Sys2Proof.Machine

/-! ### Timestamps -/

/-- One event more adds its wait. -/
theorem minDuration_take_succ (p : Params) {evs : List Event} {ev : Event} {n : Nat} (h : evs[n]? = some ev) :
    minDuration p (evs.take (n + 1)) = minDuration p (evs.take n) + p.eventNs ev := by
  rw [List.take_add_one, h, minDuration_append]; rfl

/-- Settles O20: by induction on the later event; each event before it adds its wait. -/
theorem waitsAddUp : Obligations.WaitsAddUp := by
  rintro p evs t ⟨-, hgap⟩ i j hij
  induction j, hij using Nat.le_induction with
  | base => simp [minDuration]
  | succ j hij ih =>
    intro hj
    have hev : evs[j]? = some evs[j] := List.getElem?_eq_getElem hj
    have hlast : (evs.drop i)[j - i]? = some evs[j] := by rw [List.getElem?_drop, Nat.add_sub_cancel' hij, hev]
    rw [Nat.succ_sub hij, minDuration_take_succ p hlast, Nat.cast_add, ← add_assoc]
    exact (add_le_add_left (ih (Nat.le_of_succ_le hj)) _).trans (hgap j _ hev)

/-! ### Pieces of a trace -/

namespace Drives

/-- A read frame is RS and, where RW is wired, one or two transfers (R165, R166). -/
theorem readFrame {h : Option Handle} {hs : Handle} (hh : h = some hs) (b : Bool) (bs : List Bool) :
    Drives h (readFrameEvents hs b bs) := by
  refine append (rs hh b) ?_
  cases hrw : hs.rw with
  | none => exact nil
  | some q =>
    cases hs.w with
    | eight => exact read hh hrw bs
    | four => exact append (read hh hrw _) (read hh hrw _)

theorem piece (hs : Handle) (pc : Piece) : Drives (some hs) (pc.events hs) := by
  cases pc with
  | write b x => exact frame rfl b x
  | read b bs => exact readFrame rfl b bs
  | rawWrite x => exact write rfl x
  | rawRead bs =>
    unfold Piece.events
    cases hrw : hs.rw with
    | none => exact nil
    | some q => exact read rfl hrw bs
  | wait d => exact wait d

theorem pieces (hs : Handle) (pcs : List Piece) : Drives (some hs) (pcs.flatMap (Piece.events hs)) := by
  induction pcs with
  | nil => exact nil
  | cons pc pcs ih => exact append (piece hs pc) ih

end Drives

/-! ### Edges of E with RW not wired -/

/-- In `evs` every falling edge of `e` is followed by at least T_SETTLE, every rising edge comes after at least T_AS, and
both stand between a falling edge and a later rising one. -/
structure Spaced (p : Params) (e : Pin) (evs : List Event) : Prop where
  settles : ∀ {i}, evs[i]? = some (.put e false) → p.tSettle ≤ minDuration p (evs.drop i)
  setsUp : ∀ {j}, evs[j]? = some (.put e true) → p.tAS ≤ minDuration p (evs.take j)
  apart : ∀ {i j}, i < j → evs[i]? = some (.put e false) → evs[j]? = some (.put e true) →
    p.tSettle + p.tAS ≤ minDuration p ((evs.drop i).take (j - i))

namespace Spaced

variable {p : Params} {e : Pin}

theorem of_no_edge {evs : List Event} (h : ∀ b, .put e b ∉ evs) : Spaced p e evs where
  settles hi := absurd (List.mem_of_getElem? hi) (h false)
  setsUp hj := absurd (List.mem_of_getElem? hj) (h true)
  apart _ hi := absurd (List.mem_of_getElem? hi) (h false)

/-- Where a falling edge is in the first part and a rising edge in the second, T_SETTLE comes from the first and T_AS from
the second. -/
theorem append {xs ys : List Event} (hx : Spaced p e xs) (hy : Spaced p e ys) : Spaced p e (xs ++ ys) where
  settles {i} hi := by
    rw [List.drop_append, minDuration_append]
    rw [List.getElem?_append] at hi
    split at hi
    · exact (hx.settles hi).trans (Nat.le_add_right _ _)
    · exact (hy.settles hi).trans (Nat.le_add_left _ _)
  setsUp {j} hj := by
    rw [List.take_append, minDuration_append]
    rw [List.getElem?_append] at hj
    split at hj
    · exact (hx.setsUp hj).trans (Nat.le_add_right _ _)
    · exact (hy.setsUp hj).trans (Nat.le_add_left _ _)
  apart {i j} hij hi hj := by
    rw [List.drop_append, List.take_append, minDuration_append, List.length_drop]
    rw [List.getElem?_append] at hi hj
    split at hi
    · rename_i hix
      split at hj
      · exact (hx.apart hij hi hj).trans (Nat.le_add_right _ _)
      · rename_i hjx
        rw [List.take_of_length_le (by rw [List.length_drop]; omega), Nat.sub_eq_zero_of_le hix.le, List.drop_zero,
          show j - i - (xs.length - i) = j - xs.length by omega]
        exact Nat.add_le_add (hx.settles hi) (hy.setsUp hj)
    · rename_i hix
      rw [if_neg (by omega)] at hj
      rw [show j - i - (xs.length - i) = j - xs.length - (i - xs.length) by omega]
      exact (hy.apart (by omega) hi hj).trans (Nat.le_add_left _ _)

end Spaced

section Unwired

variable {hs : Handle} (hrw : hs.rw = none)

include hrw

theorem writeEvents_rise_iff (x : Byte) (j : Nat) : (writeEvents hs x)[j]? = some (.put hs.e true) ↔ j = 2 := by
  rcases j with _ | _ | _ | _ | _ | _ | _ | j <;> simp [writeEvents, hrw]

theorem writeEvents_fall_iff (x : Byte) (i : Nat) : (writeEvents hs x)[i]? = some (.put hs.e false) ↔ i = 4 := by
  rcases i with _ | _ | _ | _ | _ | _ | _ | i <;> simp [writeEvents, hrw]

/-- A write transfer raises E after its set-up, and settles after E falls (R142). -/
theorem writeEvents_spaced (p : Params) (x : Byte) : Spaced p hs.e (writeEvents hs x) where
  settles hi := by
    rw [(writeEvents_fall_iff hrw x _).1 hi]
    simp [writeEvents, hrw, minDuration, Params.eventNs, Params.ns]
  setsUp hj := by
    rw [(writeEvents_rise_iff hrw x _).1 hj]
    simp [writeEvents, hrw, minDuration, Params.eventNs, Params.ns]
  apart hij hi hj := by
    rw [(writeEvents_fall_iff hrw x _).1 hi, (writeEvents_rise_iff hrw x _).1 hj] at hij
    omega

theorem Drives.spaced {p : Params} (w : hs.Wf p) {evs : List Event} (d : Drives (some hs) evs) :
    Spaced p hs.e evs := by
  induction d with
  | nil => exact .of_no_edge (by simp)
  | wait d => exact .of_no_edge (by simp)
  | rs hh b => cases hh; exact .of_no_edge (by simp [w.apart.1.symm])
  | write hh x => cases hh; exact writeEvents_spaced hrw p x
  | read hh hq bs => cases hh; rw [hrw] at hq; cases hq
  | append _ _ ihx ihy => exact ihx.append ihy

end Unwired

/-- Settles O22: the waits that stand between the two edges add up under every timestamping. -/
theorem settleSpacing : Obligations.SettleSpacing := by
  intro p hs pieces t w hrw evs hadmits i j hij hi hj
  have hspaced : Spaced p hs.e evs := (Drives.pieces hs pieces).spaced hrw w
  have hj_le : j ≤ evs.length := (List.getElem?_eq_some_iff.1 hj).1.le
  calc t i + ((p.tSettle + p.tAS : Nat) : ℝ)
      ≤ t i + (minDuration p ((evs.drop i).take (j - i)) : ℝ) := by gcongr; exact hspaced.apart hij hi hj
    _ ≤ t j := waitsAddUp p evs t hadmits i j hij.le hj_le

/-! ### The clock -/

/-- Settles O23: an instruction does events of the bus and nothing else, and each event takes its wait. -/
theorem clockIsLeastTime : Obligations.ClockIsLeastTime := by
  intro s t i hx
  obtain ⟨evs, -, d⟩ := exec_acts i hx
  rw [d.trace, List.drop_left, d.clock]

end Sys2Proof.Machine
end

section
/-! PROOF. A word or a frame at the head of the sequence, with and without the busy poll before it (R94, R164, R187). -/

namespace Sys2Proof.Machine

/-! ### The gate -/

/-- On a handle an action waits for one turn of the poll that answers "not busy". -/
theorem gated_some {s : State} {hs : Handle} (hh : s.h = some hs) (act : State → Out) :
    gated act s = if (pollOnce hs s).1 then andThen (act (pollOnce hs s).2) fun t => .next (retire t)
      else .next (pollOnce hs s).2 := by
  unfold gated; rw [hh]

/-- Without a handle, or with RW not wired, there is no poll to wait for. -/
theorem gated_of_unpolled {s : State} (h : s.h = none ∨ ∃ hs, s.h = some hs ∧ hs.rw = none) (act : State → Out) :
    gated act s = andThen (act s) fun t => .next (retire t) := by
  rcases h with hh | ⟨hs, hh, hrw⟩
  · unfold gated; rw [hh]
  · rw [gated_some hh, pollOnce_unwired (by simp [Handle.wired, hrw])]; rfl

/-! ### A placed word -/

theorem step_word {s : State} {nbits w : Nat} {rest : List Item} {i : Instr} (htodo : s.todo = .word nbits w :: rest)
    (hi : decodeTableWord nbits w = some i) (hn : NoOverlap s) : step s = runInstr i s := by
  rw [step_item htodo hn, runItem, runWord, decodeWord_of_table hi]

/-- Settles O25: the step is `runInstr` of the word's instruction, gated where it polls. -/
theorem stepRunsDecodedInstr : Obligations.StepRunsDecodedInstr := by
  intro s nbits w rest i htodo hi hn
  rw [step_word htodo hi hn]
  refine ⟨fun hfree => ?_, fun hs hh _ hp => ?_⟩
  · cases hp : polls i with
    | false => rw [runInstr, hp]; rfl
    | true =>
      rw [hp] at hfree
      rw [runInstr, if_pos hp, gated_of_unpolled (hfree.resolve_left nofun)]
  · rw [runInstr, if_pos hp, gated_some hh]

/-! ### A waiting write frame -/

theorem step_frame {s : State} {rs : Bool} {x : Byte} {items : List Item}
    (htodo : s.todo = .code (.frame (frameCode rs false x)) :: items) (hn : NoOverlap s) :
    step s = gated (sendFrame rs x) s := by
  rw [step_item htodo hn, runItem_code, runCode_write]

/-- Settles O27: the answer's bit 7 decides whether the turn of the poll is all, or lets the frame pass. -/
theorem frameWaitsForBusyFlag : Obligations.FrameWaitsForBusyFlag := by
  intro s hs q rs x items as rest hh hrw hd htodo hn ho hlen
  obtain ⟨bs, -, hfree, htrace, hsetup, -, -, hanswers⟩ := pollOnce_spec hrw hd s
  obtain ⟨rfl, horacle⟩ := hanswers as rest ho hlen
  rw [step_frame htodo hn, gated_some hh, hfree]
  cases hbit : (answeredByte hs.w bs).getLsbD 7 with
  | true =>
    rw [hbit] at htrace
    exact ⟨(pollOnce hs s).2, rfl, hsetup.h, horacle, fun _ => ⟨htrace, hsetup.todo⟩, nofun⟩
  | false =>
    rw [hbit] at htrace
    refine ⟨retire (completed (emitAll (frameEvents hs rs x) (pollOnce hs s).2)), ?_, ?_, ?_, nofun, fun _ => ⟨?_, ?_⟩⟩
    · rw [sendFrame_some (hsetup.h.trans hh)]; rfl
    · simp [hsetup.h]
    · simp [horacle]
    · simp [htrace]
    · simp [hsetup.todo, htodo]

end Sys2Proof.Machine
end

section
/-! PROOF. The raw nibbles of the 4-bit handshake (R186, R187). -/

namespace Sys2Proof.Machine

theorem writeBits_refused {s : State} {hs : Handle} (hh : s.h = some hs) (x : Byte) {w : Width} (hw : w ≠ hs.w) :
    writeBits x w s = .refused .width := by
  unfold writeBits; rw [hh]; exact if_neg hw

/-- A raw transfer of the handle's width is its events and nothing else but the outcome (R140). -/
theorem writeBits_complete {s : State} {hs : Handle} (hh : s.h = some hs) (x : Byte) {w : Width} (hw : hs.w = w) :
    ∃ t, writeBits x w s = .next t ∧ t.trace = s.trace ++ writeEvents hs x ∧ SameSetup s t ∧
      t.lastRead = s.lastRead ∧ t.oracle = s.oracle ∧ t.drawn = s.drawn ∧ t.outcome = .normal ∧
      t.port.owned = s.port.owned := by
  have hnot := writeEvents_not_release hs x
  have d := completed_did (emitAll_did hnot s)
  subst hw
  refine ⟨_, writeBits_some hh x, d.trace, d.setup, by simp, by simp, emitAll_drawn hnot s, rfl, ?_⟩
  rw [d.port PinState.undriven, (writeEvents_bus PinState.undriven s.port x).2]

/-- Settles O15: both nibbles are raw write transfers of width 4. -/
theorem initNibblesComplete : Obligations.InitNibblesComplete := by
  intro s hs hh
  refine ⟨fun hw => ⟨writeBits_complete hh 0x3 hw, writeBits_complete hh 0x2 hw⟩, fun hw => ?_⟩
  have hne : Width.four ≠ hs.w := by rw [hw]; exact nofun
  exact ⟨writeBits_refused hh 0x3 hne, writeBits_refused hh 0x2 hne⟩

end Sys2Proof.Machine
end

section
/-! PROOF. Codes and instructions: the decoder and the encoder undo each other, and a frame is named by RS and RW first
and then by the highest set bit of its byte (R101 to R115). -/

namespace Sys2Proof.Machine

/-! ### Write frames -/

/-- The code of a write frame, of either register (R101). -/
theorem encode_of_write {i : Instr} {rs : Bool} {x : Byte} (h : shapeOf i = .write rs x) :
    encode i = .frame (frameCode rs false x) := by
  cases i <;> cases h <;> rfl

theorem decode_of_write {i : Instr} {rs : Bool} {x : Byte} (h : shapeOf i = .write rs x) :
    decode (.frame (frameCode rs false x)) = .ok i := by
  rw [decode, decodeFrame_frameCode]
  cases rs with
  | false => exact decodeCommand_of_shape h
  | true => cases i <;> cases h; rfl

/-- The byte of a decoded command is the byte it was decoded from, don't-care bits included (R115). -/
theorem shapeOf_of_decodeCommand {x : Byte} {i : Instr} (h : decodeCommand x = .ok i) :
    shapeOf i = .write false x := by
  have hall : (decodeCommand x).toOption.all (shapeOf · = .write false x) = true :=
    Laws.TableRow.forall_byte (P := fun x => (decodeCommand x).toOption.all (shapeOf · = .write false x) = true)
      (by decide) x
  simpa [h, Except.toOption] using hall

/-! ### The byte of a status read (R112) -/

theorem statusByte_parts (bf : Bool) (ac : BitVec 7) :
    (Instr.readBusyFlagAddress bf ac).byte.getLsbD 7 = bf ∧
      (Instr.readBusyFlagAddress bf ac).byte.extractLsb' 0 7 = ac := by
  have h : ∀ y : Fin 128, (Instr.readBusyFlagAddress bf ⟨y⟩).byte.getLsbD 7 = bf ∧
      (Instr.readBusyFlagAddress bf ⟨y⟩).byte.extractLsb' 0 7 = ⟨y⟩ := by revert bf; decide
  exact h ac.toFin

theorem statusByte_of_parts (b : Byte) :
    (Instr.readBusyFlagAddress (b.getLsbD 7) (b.extractLsb' 0 7)).byte = b := by
  revert b
  exact Laws.TableRow.forall_byte (by decide)

/-! ### The round trips -/

/-- Settles O1: a write frame by its shape, a status read by the parts of its byte, the rest at once. -/
theorem decodeOfEncode : Obligations.DecodeOfEncode := by
  intro i
  have write : ∀ rs x, shapeOf i = .write rs x → decode (encode i) = .ok i := fun rs x h => by
    rw [encode_of_write h]; exact decode_of_write h
  cases i with
  | readBusyFlagAddress bf ac =>
    obtain ⟨hbf, hac⟩ := statusByte_parts bf ac
    rw [encode, decode, decodeFrame_frameCode, hbf, hac]
  | readData d => rw [encode, decode, decodeFrame_frameCode]
  | initNibble3 => decide
  | initNibble2 => decide
  | clearDisplay | returnHome _ | entryModeSet _ _ | displayControl _ _ _ | cursorDisplayShift _ _ _
  | functionSet _ _ _ _ | setCgramAddress _ | setDdramAddress _ | writeData _ => exact write _ _ rfl

/-- A frame code is made of RS, RW and its byte (R101). -/
theorem frameCode_of_parts (c : BitVec 10) : frameCode (c.getLsbD 9) (c.getLsbD 8) (c.extractLsb' 0 8) = c := by
  refine BitVec.eq_of_getLsbD_eq fun i hi => ?_
  rcases (by omega : i < 8 ∨ i = 8 ∨ i = 9) with h | rfl | rfl
  · have hbyte : ((frameCode (c.getLsbD 9) (c.getLsbD 8) (c.extractLsb' 0 8)).extractLsb' 0 8).getLsbD i =
        (c.extractLsb' 0 8).getLsbD i := by rw [frameCode_byte]
    simpa [h] using hbyte
  · exact frameCode_rw ..
  · exact frameCode_rs ..

/-- Settles O2: each branch of the decoder keeps every bit of the code it takes. -/
theorem encodeOfDecode : Obligations.EncodeOfDecode := by
  intro c i h
  cases c with
  | frame c =>
    rw [← frameCode_of_parts c] at h ⊢
    generalize c.getLsbD 9 = rs, c.getLsbD 8 = rw, c.extractLsb' 0 8 = b at h ⊢
    rw [decode, decodeFrame_frameCode] at h
    cases rs <;> cases rw
    · exact encode_of_write (shapeOf_of_decodeCommand h)
    · cases h; rw [encode, statusByte_of_parts]
    · cases h; rfl
    · cases h; rfl
  | nibble c =>
    rw [decode, decodeNibble] at h
    split at h
    · rename_i hc; cases h; rw [hc]; rfl
    · split at h
      · rename_i hc; cases h; rw [hc]; rfl
      · cases h

/-! ### The name of a frame (R115) -/

/-- The command of opcode `2 ^ k`, its operand bits taken from their places (R104 to R111). -/
def commandAt (b : Byte) : Fin 8 → Instr
  | 7 => .setDdramAddress (b.setWidth 7)
  | 6 => .setCgramAddress (b.setWidth 6)
  | 5 => .functionSet (b.getLsbD 4) (b.getLsbD 3) (b.getLsbD 2) (b.setWidth 2)
  | 4 => .cursorDisplayShift (b.getLsbD 3) (b.getLsbD 2) (b.setWidth 2)
  | 3 => .displayControl (b.getLsbD 2) (b.getLsbD 1) (b.getLsbD 0)
  | 2 => .entryModeSet (b.getLsbD 1) (b.getLsbD 0)
  | 1 => .returnHome (b.getLsbD 0)
  | 0 => .clearDisplay

/-- A byte whose highest set bit is `k` is the command of that opcode. -/
theorem decodeCommand_of_highestBit {b : Byte} (k : Fin 8) (hlo : 2 ^ k.val ≤ b.toNat)
    (hhi : b.toNat < 2 ^ (k.val + 1)) : decodeCommand b = .ok (commandAt b k) :=
  Laws.TableRow.forall_byte (P := fun b => ∀ k : Fin 8, 2 ^ k.val ≤ b.toNat → b.toNat < 2 ^ (k.val + 1) →
    decodeCommand b = .ok (commandAt b k)) (by decide) b k hlo hhi

/-- Settles O3: RS and RW first; then each range of the byte is that of one highest set bit. -/
theorem frameNamedByHighestBit : Obligations.FrameNamedByHighestBit := by
  intro b
  have status : b.extractLsb' 0 7 = b.setWidth 7 := (BitVec.setWidth_eq_extractLsb' (by decide)).symm
  simp only [decodeFrame_frameCode, status, true_and]
  exact ⟨fun h => decodeCommand_of_highestBit 7 h b.isLt, fun h => decodeCommand_of_highestBit 6 h.1 h.2,
    fun h => decodeCommand_of_highestBit 5 h.1 h.2, fun h => decodeCommand_of_highestBit 4 h.1 h.2,
    fun h => decodeCommand_of_highestBit 3 h.1 h.2, fun h => decodeCommand_of_highestBit 2 h.1 h.2,
    fun h => decodeCommand_of_highestBit 1 h.1 h.2, fun h => decodeCommand_of_highestBit 0 h.ge (by rw [h]; decide),
    fun h => by obtain rfl : b = 0 := BitVec.eq_of_toNat_eq h; rfl⟩

/-- Settles O4: by evaluation. -/
theorem wordsSpelledOut : Obligations.WordsSpelledOut := by
  unfold Obligations.WordsSpelledOut; decide

end Sys2Proof.Machine
end

section
/-! PROOF. Every write frame and every wired read frame completes, with its frame condition (R104 to R114,
R163 to R168). -/

namespace Sys2Proof.Machine

/-- A write frame on a handle is its events, and nothing else but the outcome (R163). -/
theorem exec_write_complete {s : State} {hs : Handle} (hh : s.h = some hs) {i : Instr} {rs : Bool} {x : Byte}
    (hi : shapeOf i = .write rs x) :
    ∃ t, exec i s = .next t ∧ t.trace = s.trace ++ frameEvents hs rs x ∧ t.outcome = .normal ∧ SameSetup s t ∧
      t.lastRead = s.lastRead ∧ t.oracle = s.oracle ∧ t.drawn = s.drawn ∧ t.port.owned = s.port.owned := by
  have hnot := frameEvents_not_release hs rs x
  have d := completed_did (emitAll_did hnot s)
  refine ⟨completed (emitAll (frameEvents hs rs x) s), ?_, d.trace, rfl, d.setup, by simp, by simp,
    emitAll_drawn hnot s, ?_⟩
  · rw [exec_eq_shape, hi, Shape.run, sendFrame_some hh]
  · rw [d.port PinState.undriven, (frameEvents_bus PinState.undriven rs x s.port).2]

/-- Settles O12: each write instruction's byte is its row's bits put together, and its frame completes. -/
theorem writeFramesComplete : Obligations.WriteFramesComplete := by
  intro s hs hh
  have sends := @exec_write_complete s hs hh
  refine ⟨sends rfl, fun x => sends ?_, fun id sh => sends ?_, fun d c b => sends ?_, fun sc rl x => sends ?_,
    fun dl n f x => sends ?_, fun a => sends ?_, fun a => sends ?_, fun d => sends rfl⟩
  · revert x; decide
  · revert id sh; decide
  · revert d c b; decide
  · revert sc rl x; decide
  · revert dl n f x; decide
  · revert a; decide
  · revert a; decide

/-- Settles O13: both reads are read frames, whose events and answers are those of `readWith`. -/
theorem readFramesComplete : Obligations.ReadFramesComplete := by
  intro s hs q hh hrw hd
  have reads : ∀ {i : Instr} {rs : Bool}, shapeOf i = .read rs →
      ∃ t bs, exec i s = .next t ∧ bs.length = 8 ∧ t.trace = s.trace ++ readFrameEvents hs rs bs ∧
        t.lastRead = answeredByte hs.w bs ∧ t.outcome = .normal ∧ SameSetup s t ∧ t.port.owned = s.port.owned ∧
        (∀ as rest, s.oracle = as ++ rest → as.length = 8 → bs = as ∧ t.oracle = rest) := fun {i rs} hi => by
    obtain ⟨bs, hlen, hback, htrace, hsetup, -, -, -, -, hport, hanswers⟩ := readWith_spec hrw hd rs s
    refine ⟨completedRead hs (readWith rs hs s).1 (readWith rs hs s).2, bs, ?_, hlen, htrace, hback, ?_, ?_, ?_,
      hanswers⟩
    · rw [exec_eq_shape, hi, Shape.run, readFrame_some hh]
    · simp [Handle.wired, hrw]
    · exact ⟨hsetup.1, hsetup.2, hsetup.3, hsetup.4, hsetup.5, hsetup.6, hsetup.7, hsetup.8⟩
    · rw [completedRead_port, hport PinState.undriven, (readFrameEvents_bus PinState.undriven rs bs s.port).2]
  exact ⟨fun bf ac => reads rfl, fun d => reads rfl⟩

end Sys2Proof.Machine
end

section
/-! PROOF. What a write frame does to a controller in step with the block (R60, R104 to R113; log 19). -/

namespace Sys2Proof.Machine

/-! ### One transfer latched in step -/

theorem latch_eight {p : Params} {now : Nat} {c : Controller} (hmode : c.mode = .eight)
    (hready : c.readyAt + p.tAS + p.tPW ≤ now) (rs : Bool) (lines : Byte) :
    c.latch p now .eight rs false lines = Controller.complete p now rs false lines { c with draws := c.draws + 1 } := by
  unfold Controller.latch
  rw [if_neg (by simp [hready])]
  simp [Controller.seen, hmode]

/-- In 4-bit mode the first nibble of a byte is kept. -/
theorem latch_high {p : Params} {now : Nat} {c : Controller} (hmode : c.mode = .four) (hhalf : c.half = none)
    (hready : c.readyAt + p.tAS + p.tPW ≤ now) (rs : Bool) (lines : Byte) :
    c.latch p now .four rs false lines = { c with draws := c.draws + 1, half := some (lines.extractLsb' 0 4) } := by
  unfold Controller.latch
  rw [if_neg (by simp [hready])]
  simp [Controller.seen, byteOfNibbles_high, hmode, hhalf]

/-- In 4-bit mode the second nibble completes the byte. -/
theorem latch_low {p : Params} {now : Nat} {c : Controller} {hi : BitVec 4} (hmode : c.mode = .four)
    (hhalf : c.half = some hi) (hready : c.readyAt + p.tAS + p.tPW ≤ now) (rs : Bool) (lines : Byte) :
    c.latch p now .four rs false lines = Controller.complete p now rs false (byteOfNibbles hi (lines.extractLsb' 0 4))
      { c with draws := c.draws + 1, half := none } := by
  unfold Controller.latch
  rw [if_neg (by simp [hready])]
  simp [Controller.seen, byteOfNibbles_high, hmode, hhalf]

theorem byteOfNibbles_halves (x : Byte) :
    byteOfNibbles ((lowBits .four (x >>> 4)).extractLsb' 0 4) ((lowBits .four (x &&& 0xF)).extractLsb' 0 4) = x := by
  revert x
  exact Laws.TableRow.forall_byte (by decide)

theorem complete_of_write {i : Instr} {rs : Bool} {x : Byte} (hi : shapeOf i = .write rs x) (p : Params) (now : Nat)
    (c : Controller) : Controller.complete p now rs false x c = Controller.perform p now c i := by
  have hdecode : decodeFrame (frameCode rs false x) = .ok i := decode_of_write hi
  unfold Controller.complete
  rw [hdecode]

/-! ### A frame -/

/-- The controller is in the block's mode, at a byte boundary and ready, and the lines are configured. -/
structure InStep (hs : Handle) (s : State) : Prop where
  h : s.h = some hs
  wf : hs.Wf s.params
  lines : LinesOk hs s.port
  mode : s.ctl.mode = hs.w
  half : s.ctl.half = none
  ready : s.ctl.readyAt ≤ s.clock

/-- E falls T_AS + T_PW after a write transfer begins, and then come the hold and, with RW not wired, the settling. -/
theorem writeEvents_clock (hs : Handle) (x : Byte) (s : State) :
    (emitAll (writeEvents hs x) s).clock =
      s.clock + (s.params.tAS + s.params.tPW) + minDuration s.params (settleEvents hs) := by
  have hfall : minDuration s.params [.put hs.e false] = 0 := rfl
  rw [emitAll_clock, writeEvents_eq_raise_fall, minDuration_append, minDuration_append, minDuration_raiseEvents, hfall]
  omega

/-- The transfers of a byte, RS standing: the controller performs the byte's instruction as the last E falls. -/
theorem byteEvents_ctl {s : State} {hs : Handle} (k : InStep hs s) {i : Instr} {rs : Bool} {x : Byte}
    (hi : shapeOf i = .write rs x) (hrs : s.port.level hs.rs = Level.ofBool rs) :
    ∃ now n, now + minDuration s.params (settleEvents hs) = (emitAll (byteEvents hs x) s).clock ∧
      (emitAll (byteEvents hs x) s).ctl = Controller.perform s.params now { s.ctl with draws := n } i := by
  have hready := k.ready
  unfold byteEvents
  cases hw : hs.w with
  | eight =>
    refine ⟨_, s.ctl.draws + 1, (writeEvents_clock hs x s).symm, ?_⟩
    rw [writeEvents_ctl k.h k.wf k.lines hrs, hw, latch_eight (k.mode.trans hw) (by omega), lowBits,
      complete_of_write hi]
  | four =>
    have hmode := k.mode.trans hw
    have hctl := writeEvents_ctl k.h k.wf k.lines hrs (x >>> 4)
    rw [hw, latch_high hmode k.half (by omega)] at hctl
    obtain ⟨hlines, hrs', -⟩ := writeEvents_linesOk k.wf PinState.undriven k.lines (x >>> 4)
    have hclock := writeEvents_clock hs (x >>> 4) s
    have hh := (emitAll_h (writeEvents hs (x >>> 4)) s).trans k.h
    have hparams := emitAll_params (writeEvents hs (x >>> 4)) s
    rw [← emitAll_port (writeEvents_not_release hs _)] at hlines hrs'
    dsimp only
    rw [emitAll_append]
    generalize emitAll (writeEvents hs (x >>> 4)) s = u at hctl hlines hrs' hclock hh hparams ⊢
    have hmode' : u.ctl.mode = .four := by rw [hctl]; exact hmode
    have hhalf' : u.ctl.half = some ((lowBits .four (x >>> 4)).extractLsb' 0 4) := by rw [hctl]
    have hready' : u.ctl.readyAt = s.ctl.readyAt := by rw [hctl]
    refine ⟨_, s.ctl.draws + 1 + 1, (hparams ▸ writeEvents_clock hs (x &&& 0xF) u).symm, ?_⟩
    rw [writeEvents_ctl hh (hparams ▸ k.wf) hlines (hrs'.trans hrs), hw, hparams,
      latch_low hmode' hhalf' (by omega), byteOfNibbles_halves, complete_of_write hi, hctl, ← k.half]

/-- A write instruction before a controller in step: the controller performs it, once, as the last E falls; only its own
counter of free values may differ. -/
theorem exec_write_ctl {s : State} {hs : Handle} (k : InStep hs s) {i : Instr} {rs : Bool} {x : Byte}
    (hi : shapeOf i = .write rs x) :
    ∃ t now n, exec i s = .next t ∧ t.h = some hs ∧ now + minDuration s.params (settleEvents hs) = t.clock ∧
      t.ctl = Controller.perform s.params now { s.ctl with draws := n } i := by
  obtain ⟨hre, -⟩ := k.wf.apart
  obtain ⟨hlines, hrs, -⟩ := putRs_linesOk k.wf (Config.freePin s.drawn) k.lines rs
  have hctl : (emit (.put hs.rs rs) s).ctl = s.ctl :=
    emitAll_ctl_of_no_fall (evs := [.put hs.rs rs]) (by simp [hre]) k.h
  have k' : InStep hs (emit (.put hs.rs rs) s) :=
    ⟨k.h, k.wf, hlines, by rw [hctl]; exact k.mode, by rw [hctl]; exact k.half, by rw [hctl]; exact k.ready⟩
  obtain ⟨now, n, hclock, hdone⟩ := byteEvents_ctl k' hi hrs
  rw [hctl] at hdone
  refine ⟨completed (emitAll (frameEvents hs rs x) s), now, n, ?_, ?_, hclock, hdone⟩
  · rw [exec_eq_shape, hi, Shape.run, sendFrame_some k.h]
  · rw [completed_h, emitAll_h, k.h]

/-- Settles O56: the controller performs Clear Display. -/
theorem clearOnController : Obligations.ClearOnController := by
  intro s hs hh w ok hmode hhalf hready
  have k : InStep hs s := ⟨hh, w, ok, hmode, hhalf, hready⟩
  obtain ⟨t, now, n, hx, hth, -, hctl⟩ := exec_write_ctl (i := .clearDisplay) k rfl
  refine ⟨t, hx, hth, ?_⟩
  rw [hctl]
  exact ⟨fun _ => rfl, rfl, rfl, rfl, rfl, hmode, hhalf⟩

/-! ### Write Data -/

/-- Storing a byte and scrolling touch neither the counter nor its memory. -/
theorem autoscroll_store_counter (d : Byte) (c : Controller) :
    (Controller.autoscroll (Controller.store d c)).ac = c.ac ∧
      (Controller.autoscroll (Controller.store d c)).space = c.space ∧
      ∀ inc, (Controller.autoscroll (Controller.store d c)).edgeAt inc = c.edgeAt inc := by
  have store : (Controller.store d c).ac = c.ac ∧ (Controller.store d c).space = c.space ∧
      ∀ inc, (Controller.store d c).edgeAt inc = c.edgeAt inc := by
    unfold Controller.store
    cases hc : c.space <;> simp [Controller.edgeAt, Controller.address, hc]
  unfold Controller.autoscroll
  split
  · exact store
  · exact store

theorem moveAc_space (p : Params) (inc : Bool) (c : Controller) : (Controller.moveAc p inc c).space = c.space := by
  unfold Controller.moveAc; split <;> rfl

/-- What Write Data does to the controller: the byte is stored, and away from the listed ends the counter moves by one
(R113). -/
theorem perform_writeData (p : Params) (now : Nat) (c : Controller) (d : Byte) :
    (Controller.perform p now c (.writeData d)).ddram = (Controller.store d c).ddram ∧
      (Controller.perform p now c (.writeData d)).cgram = (Controller.store d c).cgram ∧
      (Controller.perform p now c (.writeData d)).space = c.space ∧
      (c.edgeAt c.entryInc ∉ p.acEdges →
        (Controller.perform p now c (.writeData d)).ac = if c.entryInc then c.ac + 1 else c.ac - 1) := by
  obtain ⟨hac, hspace, hedge⟩ := autoscroll_store_counter d c
  obtain ⟨hsd, hsc⟩ := autoscroll_mem (Controller.store d c)
  obtain ⟨hmd, hmc⟩ := moveAc_mem p c.entryInc (Controller.autoscroll (Controller.store d c))
  refine ⟨hmd.trans hsd, hmc.trans hsc, (moveAc_space ..).trans hspace, fun hoff => ?_⟩
  rw [← hedge] at hoff
  rw [← hac]
  exact congrArg Controller.ac (moveAc_off_edge hoff)

/-- A written byte before a controller in step. -/
theorem writeData_ctl {s : State} {hs : Handle} (k : InStep hs s) (d : Byte) :
    ∃ t, exec (.writeData d) s = .next t ∧ t.ctl.ddram = (Controller.store d s.ctl).ddram ∧
      t.ctl.cgram = (Controller.store d s.ctl).cgram ∧ t.ctl.space = s.ctl.space ∧
      (s.ctl.edgeAt s.ctl.entryInc ∉ s.params.acEdges →
        t.ctl.ac = if s.ctl.entryInc then s.ctl.ac + 1 else s.ctl.ac - 1) := by
  obtain ⟨t, now, n, hx, -, -, hctl⟩ := exec_write_ctl (i := .writeData d) k rfl
  obtain ⟨hd, hc, hspace, hmoved⟩ := perform_writeData s.params now { s.ctl with draws := n } d
  have draws : Controller.store d { s.ctl with draws := n } = { Controller.store d s.ctl with draws := n } := by
    unfold Controller.store; cases s.ctl.space <;> rfl
  rw [draws] at hd hc
  rw [← hctl] at hd hc hspace hmoved
  exact ⟨t, hx, hd, hc, hspace, hmoved⟩

theorem store_ddram {c : Controller} (h : c.space = .ddram) (d : Byte) :
    Controller.store d c = { c with ddram := c.ddram.write c.ac.toNat d } := by
  simp only [Controller.store, Controller.address, h]

theorem store_cgram {c : Controller} (h : c.space = .cgram) (d : Byte) :
    Controller.store d c = { c with cgram := c.cgram.write (c.ac.toNat % 64) d } := by
  simp only [Controller.store, Controller.address, h]

/-- Settles O57: the two Set Address commands are performed; a written byte goes to the memory of the counter. -/
theorem writeDataOnController : Obligations.WriteDataOnController := by
  intro s hs a g d hh w ok hmode hhalf hready
  have k : InStep hs s := ⟨hh, w, ok, hmode, hhalf, hready⟩
  obtain ⟨ta, nowa, na, hxa, -, -, hctla⟩ := exec_write_ctl (i := .setDdramAddress a) k rfl
  obtain ⟨tg, nowg, ng, hxg, -, -, hctlg⟩ := exec_write_ctl (i := .setCgramAddress g) k rfl
  obtain ⟨t, hx, hddram, hcgram, hspace', hmoved⟩ := writeData_ctl k d
  refine ⟨⟨ta, hxa, ?_⟩, ⟨tg, hxg, ?_⟩, fun hspace => ?_, fun hspace => ?_⟩
  · rw [hctla]; exact ⟨rfl, rfl, rfl, rfl⟩
  · rw [hctlg]; exact ⟨rfl, rfl, rfl, rfl⟩
  · rw [store_ddram hspace] at hddram hcgram
    exact ⟨t, hx, by rw [hddram, ram_read_write_self], fun c hc => by rw [hddram, ram_read_write_other _ hc], hcgram,
      hspace'.trans hspace, hmoved⟩
  · rw [store_cgram hspace] at hddram hcgram
    exact ⟨t, hx, by rw [hcgram, ram_read_write_self], fun c hc => by rw [hcgram, ram_read_write_other _ hc], hddram,
      hspace'.trans hspace, hmoved⟩

/-! ### Within a row -/

/-- The start of a row's addresses (R36, R211). -/
def rowStart (hs : Handle) (row : Byte) : Byte := hs.rowOffset.toList.getD (clampRow hs.numlines row) 0

/-- The four starts of R36, each in the row from which on it is used. -/
theorem rowStart_cases {p : Params} {hs : Handle} (w : hs.Wf p) (row : Byte) :
    (rowStart hs row).toNat = 0 ∨ 2 ≤ hs.numlines.toNat ∧ (rowStart hs row).toNat = 0x40 ∨
      3 ≤ hs.numlines.toNat ∧
        ((rowStart hs row).toNat = hs.cols.toNat ∨ (rowStart hs row).toNat = (0x40 + hs.cols.toNat) % 256) := by
  have hrow : clampRow hs.numlines row ≤ 3 ∧ clampRow hs.numlines row ≤ hs.numlines.toNat - 1 := by
    unfold clampRow; omega
  unfold rowStart
  rw [w.offsets, rowTable]
  generalize clampRow hs.numlines row = r at hrow
  obtain ⟨hr, hlast⟩ := hrow
  interval_cases r
  · exact .inl rfl
  · exact .inr (.inl ⟨by omega, rfl⟩)
  · exact .inr (.inr ⟨by omega, .inl (by simp)⟩)
  · exact .inr (.inr ⟨by omega, .inr (by simp)⟩)

/-- The `n` addresses from `a` on lie within one line of the controller: 80 addresses from 0 in one-line mode, 40 from
0 or from 0x40 in two-line mode (log 22). -/
def WithinLine (twoLine : Bool) (a n : Nat) : Prop :=
  if twoLine then a + n ≤ 40 ∨ 0x40 ≤ a ∧ a + n ≤ 0x40 + 40 else a + n ≤ 80

theorem WithinLine.le {twoLine : Bool} {a n : Nat} (h : WithinLine twoLine a n) : a + n ≤ 0x80 := by
  unfold WithinLine at h
  split at h <;> omega

/-- No listed end is met at a column from which the next one is in the same line (log 22). -/
theorem WithinLine.not_edge {twoLine inc : Bool} {a n c : Nat} (h : WithinLine twoLine a n)
    (hc : if inc then c + 1 < n else 0 < c ∧ c < n) :
    (⟨.ddram, twoLine, inc, a + c⟩ : AcEdge) ∉ Params.floors.acEdges := by
  cases twoLine <;> cases inc <;> simp [WithinLine, Params.floors] at h hc ⊢ <;> omega

/-- A row of a display that fits the controller's lines lies within one of them. -/
theorem rowStart_within {p : Params} {hs : Handle} (w : hs.Wf p)
    (hcols : hs.cols.toNat ≤ (if hs.numlines = 1 then 80 else if hs.numlines = 2 then 40 else 20)) (row : Byte) :
    WithinLine (decide (1 < hs.numlines.toNat)) (rowStart hs row).toNat hs.cols.toNat := by
  have hrows : hs.numlines.toNat ≠ 0 := fun h => w.rows (BitVec.eq_of_toNat_eq h)
  have one : hs.numlines = 1 ↔ hs.numlines.toNat = 1 := BitVec.toNat_eq
  have two : hs.numlines = 2 ↔ hs.numlines.toNat = 2 := BitVec.toNat_eq
  have hstart := rowStart_cases w row
  simp only [one, two] at hcols
  simp only [WithinLine, decide_eq_true_eq]
  split at hcols
  · rw [if_neg (by omega)]; omega
  · rw [if_pos (by omega)]
    split at hcols <;> omega

/-- The address of a column, where the row's addresses end below 0x80. -/
theorem ddramAddress_toNat {hs : Handle} {col row : Byte} (h : (rowStart hs row).toNat + col.toNat < 0x80) :
    ((ddramAddress hs col row).setWidth 7).toNat = (rowStart hs row).toNat + col.toNat := by
  have hadd : (ddramAddress hs col row).toNat = ((rowStart hs row).toNat + col.toNat) % 256 := BitVec.toNat_add ..
  rw [BitVec.toNat_setWidth, hadd]
  omega

/-- Settles O60: the row lies within a line, so the counter is at no end of it and moves by one. -/
theorem writeDataWithinRow : Obligations.WriteDataWithinRow := by
  intro s hs col next row d hh w ok hmode hhalf hready hedges hspace hline hcols hcol hnext hmove hac
  obtain ⟨t, hx, hddram, -, hspace', hmoved⟩ := writeData_ctl ⟨hh, w, ok, hmode, hhalf, hready⟩ d
  rw [store_ddram hspace] at hddram
  have within := rowStart_within w hcols row
  have hend := within.le
  have hcolAddr := ddramAddress_toNat (hs := hs) (col := col) (row := row) (by omega)
  have hnextAddr := ddramAddress_toNat (hs := hs) (col := next) (row := row) (by omega)
  have inside : if s.ctl.entryInc then col.toNat + 1 < hs.cols.toNat
      else 0 < col.toNat ∧ col.toNat < hs.cols.toNat := by
    split at hmove
    · rename_i hinc; rw [if_pos hinc]; omega
    · rename_i hinc; rw [if_neg hinc]; omega
  have hedge : s.ctl.edgeAt s.ctl.entryInc =
      ⟨.ddram, s.ctl.twoLine, s.ctl.entryInc, (rowStart hs row).toNat + col.toNat⟩ := by
    simp [Controller.edgeAt, Controller.address, hspace, hac, hcolAddr]
  have hac' : t.ctl.ac = (ddramAddress hs next row).setWidth 7 := by
    rw [hmoved (by rw [hedge, hedges, hline]; exact within.not_edge inside)]
    refine BitVec.eq_of_toNat_eq ?_
    have one : (1 : BitVec 7).toNat = 1 := rfl
    rw [hnextAddr, hac]
    split at hmove
    · rename_i hinc
      rw [if_pos hinc, BitVec.toNat_add, hcolAddr, one]
      omega
    · rename_i hinc
      rw [if_neg hinc, BitVec.toNat_sub, hcolAddr, one]
      omega
  exact ⟨t, hx, hac', hspace'.trans hspace, by rw [hddram, ram_read_write_self],
    fun c hc => by rw [hddram, ram_read_write_other _ hc]⟩

end Sys2Proof.Machine
end

section
/-! PROOF. Requests as runs of their items while the controller is not busy (R55, R160 to R168). -/

namespace Sys2Proof.Machine

/-! ### Items passed one by one -/

/-- What the items of a sequence read and change, apart from what they emit: the handle, the registers, and the answers
lined up for a wired handle. -/
structure Regs where
  hs : Handle
  addr : BitVec 7
  lastRead : Byte
  result : Result
  outcome : OutcomeCode
  answers : List Bool

/-- The state holds these registers. -/
structure Holds (r : Regs) (s : State) : Prop where
  h : s.h = some r.hs
  width : r.hs.d.length = r.hs.w.bits
  addr : s.addr = r.addr
  lastRead : s.lastRead = r.lastRead
  result : s.result = r.result
  outcome : s.outcome = r.outcome
  answers : r.hs.wired = true → ∃ rest, s.oracle = r.answers ++ rest

/-- From `s` to `t` events `evs` were emitted; the sequence, the requests and what belongs to others are as before. -/
structure Emitted (s t : State) (evs : List Event) : Prop where
  trace : t.trace = s.trace ++ evs
  todo : t.todo = s.todo
  reqPort : t.reqPort = s.reqPort
  script : t.script = s.script
  params : t.params = s.params
  foreign : t.foreign = s.foreign

theorem Emitted.of_setup {s t : State} {evs : List Event} (htrace : t.trace = s.trace ++ evs) (k : SameSetup s t) :
    Emitted s t evs := ⟨htrace, k.todo, k.reqPort, k.script, k.params, k.foreign⟩

theorem Emitted.refl (s : State) : Emitted s s [] := .of_setup (by simp) (.refl s)

theorem Emitted.emitAll {s t : State} {xs : List Event} (a : Emitted s t xs) (ys : List Event) :
    Emitted s (emitAll ys t) (xs ++ ys) :=
  ⟨by simp [a.trace], by simp [a.todo], by simp [a.reqPort], by simp [a.script], by simp [a.params],
    by simp [a.foreign]⟩

theorem Emitted.completed {s t : State} {evs : List Event} (a : Emitted s t evs) : Emitted s (completed t) evs :=
  ⟨a.trace, a.todo, a.reqPort, a.script, a.params, a.foreign⟩

theorem Holds.emitAll {r : Regs} {s : State} (k : Holds r s) (evs : List Event) : Holds r (emitAll evs s) :=
  ⟨by simp [k.h], k.width, by simp [k.addr], by simp [k.lastRead], by simp [k.result], by simp [k.outcome],
    fun hw => by simpa using k.answers hw⟩

theorem Holds.completed {r : Regs} {s : State} (k : Holds r s) : Holds { r with outcome := .normal } (completed s) :=
  ⟨k.h, k.width, k.addr, k.lastRead, k.result, rfl, k.answers⟩

/-- With registers `r` item `it` is passed in one step: it emits `evs` and leaves registers `r'`. -/
def Passes (r : Regs) (it : Item) (evs : List Event) (r' : Regs) : Prop :=
  ∀ s, Holds r s → ∃ u, runItem it s = .next (retire u) ∧ Holds r' u ∧ Emitted s u evs

/-- Items passed one after the other. -/
inductive Runs : Regs → List Item → List Event → Regs → Prop where
  | nil (r : Regs) : Runs r [] [] r
  | cons {r r' r'' : Regs} {it : Item} {items : List Item} {xs ys : List Event} (head : Passes r it xs r')
      (tail : Runs r' items ys r'') : Runs r (it :: items) (xs ++ ys) r''

theorem Passes.run {r r' : Regs} {it : Item} {evs : List Event} (p : Passes r it evs r') : Runs r [it] evs r' := by
  simpa using Runs.cons p (.nil r')

theorem Runs.append {r r' r'' : Regs} {items items' : List Item} {xs ys : List Event} (a : Runs r items xs r')
    (b : Runs r' items' ys r'') : Runs r (items ++ items') (xs ++ ys) r'' := by
  induction a with
  | nil => exact b
  | cons head _ ih => rw [List.append_assoc]; exact .cons head (ih b)

/-- A run of the whole sequence ends the request. -/
theorem Runs.ended {r r' : Regs} {items : List Item} {evs : List Event} (run : Runs r items evs r') {s : State}
    (k : Holds r s) (htodo : s.todo = items) (hport : s.reqPort = none) (hphase : items = [] → s.phase = .idle) :
    ∃ n t, steps n s = .next t ∧ Ended s t evs ∧ Holds r' t := by
  induction run generalizing s with
  | nil => exact ⟨0, s, rfl, ⟨by simp, hphase rfl, htodo, hport, rfl, rfl, rfl⟩, k⟩
  | @cons r r' r'' it items xs ys head _ ih =>
    obtain ⟨u, hrun, ku, e⟩ := head s k
    have hstep : step s = .next (retire u) := by rw [step_item htodo (by simp [NoOverlap, hport]), hrun]
    have htail : u.todo.tail = items := by rw [e.todo, htodo]; rfl
    obtain ⟨n, t, hsteps, ended, kt⟩ := ih (s := retire u)
      ⟨ku.h, ku.width, ku.addr, ku.lastRead, ku.result, ku.outcome, ku.answers⟩ htail (e.reqPort.trans hport)
      (fun hnil => by rw [retire_phase, if_pos (htail.trans hnil)])
    refine ⟨n + 1, t, (steps_succ_of hstep).trans hsteps, ⟨?_, ended.phase, ended.todo, ended.reqPort,
      ended.script.trans e.script, ended.params.trans e.params, ended.foreign.trans e.foreign⟩, kt⟩
    rw [ended.trace, retire_trace, e.trace, List.append_assoc]

/-! ### The items -/

section Items

variable {r : Regs}

/-- The busy poll before an action, answered "not busy" (R160, R164). -/
theorem gated_quiet {as : List Bool} (ha : r.hs.wired = true → r.answers = notBusy ++ as) {s : State} (k : Holds r s)
    (act : State → Out) :
    ∃ u, gated act s = andThen (act u) (fun t => .next (retire t)) ∧ Holds { r with answers := as } u ∧
      Emitted s u (if r.hs.wired then readFrameEvents r.hs false notBusy else []) := by
  cases hrw : r.hs.rw with
  | none =>
    have hw : r.hs.wired = false := by simp [Handle.wired, hrw]
    refine ⟨s, gated_of_unpolled (.inr ⟨r.hs, k.h, hrw⟩) act, ?_, by simpa [hw] using Emitted.refl s⟩
    exact ⟨k.h, k.width, k.addr, k.lastRead, k.result, k.outcome, fun h => by rw [hw] at h; cases h⟩
  | some q =>
    have hw : r.hs.wired = true := by simp [Handle.wired, hrw]
    obtain ⟨rest, ho⟩ := k.answers hw
    obtain ⟨bs, -, hfree, htrace, hsetup, hread, hout, hanswers⟩ := pollOnce_spec hrw k.width s
    obtain ⟨rfl, hrest⟩ := hanswers notBusy (as ++ rest) (by rw [ho, ha hw, List.append_assoc]) rfl
    have hbit : (answeredByte r.hs.w notBusy).getLsbD 7 = false := by cases r.hs.w <;> decide
    rw [hbit] at hfree htrace
    refine ⟨(pollOnce r.hs s).2, ?_, ?_, .of_setup (by simpa [hw] using htrace) hsetup⟩
    · rw [gated_some k.h, hfree]; rfl
    · exact ⟨hsetup.h.trans k.h, k.width, hsetup.addr.trans k.addr, hread.trans k.lastRead,
        hsetup.result.trans k.result, hout.trans k.outcome, fun _ => ⟨rest, hrest⟩⟩

/-- A write frame is sent as given, after its poll (R160, R162). -/
theorem runCode_write_quiet {as : List Bool} (ha : r.hs.wired = true → r.answers = notBusy ++ as) {s : State}
    (k : Holds r s) (rs : Bool) (x : Byte) :
    ∃ u, runCode (.frame (frameCode rs false x)) s = .next (retire u) ∧
      Holds { r with answers := as, outcome := .normal } u ∧ Emitted s u (sentEvents r.hs rs x) := by
  obtain ⟨u, hgate, ku, e⟩ := gated_quiet ha k (sendFrame rs x)
  refine ⟨completed (emitAll (frameEvents r.hs rs x) u), ?_, (ku.emitAll _).completed, (e.emitAll _).completed⟩
  rw [runCode_write, hgate, sendFrame_some ku.h, andThen_next]

theorem passes_frame {as : List Bool} (ha : r.hs.wired = true → r.answers = notBusy ++ as) (rs : Bool) (x : Byte) :
    Passes r (.code (.frame (frameCode rs false x))) (sentEvents r.hs rs x)
      { r with answers := as, outcome := .normal } :=
  fun _ k => runCode_write_quiet ha k rs x

/-- Set DDRAM Address of the address noted down (R217). -/
theorem passes_restoreAddr {as : List Bool} (ha : r.hs.wired = true → r.answers = notBusy ++ as) :
    Passes r .restoreAddr (sentEvents r.hs false (Config.opSetDdram ||| r.addr.setWidth 8))
      { r with answers := as, outcome := .normal } := fun s k => by
  have hrun : runItem .restoreAddr s =
      runCode (.frame (frameCode false false (Config.opSetDdram ||| r.addr.setWidth 8))) s := by rw [← k.addr]; rfl
  rw [hrun]
  exact runCode_write_quiet ha k false _

theorem passes_poll {as : List Bool} (ha : r.hs.wired = true → r.answers = notBusy ++ as) :
    Passes r .poll (if r.hs.wired then readFrameEvents r.hs false notBusy else [])
      { r with answers := as, outcome := .normal } := fun s k => by
  obtain ⟨u, hgate, ku, e⟩ := gated_quiet ha k fun t => .next (completed t)
  exact ⟨completed u, hgate, ku.completed, e.completed⟩

/-- A raw status read brings back the byte answered (R165). -/
theorem passes_readStatus (hw : r.hs.wired = true) {bs as : List Bool} (hl : bs.length = 8)
    (ha : r.answers = bs ++ as) :
    Passes r (.code (.frame (frameCode false true 0))) (readFrameEvents r.hs false bs)
      { r with answers := as, lastRead := answeredByte r.hs.w bs, outcome := .normal } := fun s k => by
  obtain ⟨q, hrw⟩ := Option.isSome_iff_exists.1 hw
  obtain ⟨rest, ho⟩ := k.answers hw
  obtain ⟨bs', -, hback, htrace, hsetup, -, -, -, -, -, hanswers⟩ := readWith_spec hrw k.width false s
  obtain ⟨rfl, hrest⟩ := hanswers bs (as ++ rest) (by rw [ho, ha, List.append_assoc]) hl
  have hrun : runItem (.code (.frame (frameCode false true 0))) s =
      andThen (readFrame false s) fun t => .next (retire t) := rfl
  refine ⟨completedRead r.hs (readWith false r.hs s).1 (readWith false r.hs s).2, ?_, ?_, ?_⟩
  · rw [hrun, readFrame_some k.h, andThen_next]
  · exact ⟨hsetup.h.trans k.h, k.width, hsetup.addr.trans k.addr, hback, hsetup.result.trans k.result, if_pos hw,
      fun _ => ⟨rest, hrest⟩⟩
  · exact ⟨htrace, hsetup.todo, hsetup.reqPort, hsetup.script, hsetup.params, hsetup.foreign⟩

theorem passes_latchAddr :
    Passes r .latchAddr [] { r with addr := if r.hs.wired then r.lastRead.extractLsb' 0 7 else 0 } := fun s k => by
  refine ⟨{ s with addr := addrToRestore r.hs s }, ?_, ?_, ⟨by simp, rfl, rfl, rfl, rfl, rfl⟩⟩
  · rw [runItem, onHandle, k.h]
  · exact ⟨k.h, k.width, by rw [← k.lastRead]; rfl, k.lastRead, k.result, k.outcome, k.answers⟩

/-- A raw write transfer of the handle's width (R140). -/
theorem writeBits_passes {it : Item} {x : Byte}
    (hrun : ∀ s, runItem it s = andThen (writeBits x r.hs.w s) fun t => .next (retire t)) :
    Passes r it (writeEvents r.hs x) { r with outcome := .normal } := fun s k => by
  refine ⟨completed (emitAll (writeEvents r.hs x) s), ?_, (k.emitAll _).completed,
    ((Emitted.refl s).emitAll _).completed⟩
  rw [hrun, writeBits_some k.h, andThen_next]

theorem passes_wait (d : Delay) : Passes r (.wait d) [.wait d] r := fun s k =>
  ⟨emitAll [.wait d] s, rfl, k.emitAll _, (Emitted.refl s).emitAll _⟩

theorem passes_configureLines : Passes r .configureLines (lineEvents r.hs) r := fun s k =>
  ⟨emitAll (lineEvents r.hs) s, by rw [runItem, onHandle, k.h], k.emitAll _, (Emitted.refl s).emitAll _⟩

theorem passes_setControl (v : Byte) :
    Passes r (.setControl v) [] { r with hs := { r.hs with displayControl := v } } := fun s k => by
  refine ⟨{ s with h := some { r.hs with displayControl := v } }, by rw [runItem, onHandle, k.h], ?_,
    ⟨by simp, rfl, rfl, rfl, rfl, rfl⟩⟩
  exact ⟨rfl, k.width, k.addr, k.lastRead, k.result, k.outcome, k.answers⟩

theorem passes_setMode (v : Byte) :
    Passes r (.setMode v) [] { r with hs := { r.hs with displayMode := v } } := fun s k => by
  refine ⟨{ s with h := some { r.hs with displayMode := v } }, by rw [runItem, onHandle, k.h], ?_,
    ⟨by simp, rfl, rfl, rfl, rfl, rfl⟩⟩
  exact ⟨rfl, k.width, k.addr, k.lastRead, k.result, k.outcome, k.answers⟩

theorem passes_returnHandle : Passes r .returnHandle [] { r with result := .handle true } := fun s k =>
  ⟨{ s with result := .handle true }, rfl, ⟨k.h, k.width, k.addr, k.lastRead, rfl, k.outcome, k.answers⟩,
    ⟨by simp, rfl, rfl, rfl, rfl, rfl⟩⟩

end Items

/-! ### Requests on a handle -/

/-- The registers as a request on handle `hs` begins (R56). -/
def regsAtStart (hs : Handle) (s : State) (answers : List Bool) : Regs where
  hs := hs
  addr := s.addr
  lastRead := s.lastRead
  result := .nothing
  outcome := .normal
  answers := answers

/-- A request on a handle runs its sequence (R55, R56). -/
theorem request_ended {s : State} {hs : Handle} {req : Request} {as : List Bool} {evs : List Event} {r' : Regs}
    (hp : Presented req s) (hh : s.h = some hs) (hd : hs.d.length = hs.w.bits) (hnew : req.newHandle = none)
    (hwidth : req.width = none) (ha : hs.wired = true → ∃ rest, s.oracle = as ++ rest)
    (run : Runs (regsAtStart hs s as) (program hs req) evs r') :
    ∃ n t, steps n s = .next t ∧ Ended s t evs ∧ Holds r' t := by
  obtain ⟨hphase, htodo, hport⟩ := hp
  have hstep : step s = .next (start req (program hs req) { s with reqPort := none }) := by
    rw [step_request hphase htodo hport, accept, refusalOf, hnew]
    simp only [widthRefusal, hwidth, hh]
  obtain ⟨n, t, hsteps, ended, k⟩ := run.ended (s := start req (program hs req) { s with reqPort := none })
    ⟨hh, hd, rfl, rfl, rfl, rfl, ha⟩ rfl rfl (fun hnil => if_pos hnil)
  exact ⟨n + 1, t, (steps_succ_of hstep).trans hsteps,
    ⟨ended.trace, ended.phase, ended.todo, ended.reqPort, ended.script, ended.params, ended.foreign⟩, k⟩

/-- Settles O30: a placed 0x000 is the decoder's reserved code; a host's byte is sent as given. -/
theorem zeroByte : Obligations.ZeroByte := by
  refine ⟨fun s nbits rest hbits htodo hn => ?_, fun s hs hh hp hq hd => ?_⟩
  · have hdecode : decodeWord nbits 0 = .error .reservedFrame := by rcases hbits with rfl | rfl <;> decide
    rw [step_item htodo hn, runItem, runWord, hdecode]
  · have run : Runs (regsAtStart hs s notBusy) (program hs (.sendCommand 0)) (sentEvents hs false 0) _ :=
      (passes_frame (as := []) (fun _ => rfl) false 0).run
    obtain ⟨n, t, hsteps, ended, -⟩ := request_ended hp hh hd rfl rfl hq run
    exact ⟨n, t, hsteps, ended⟩

end Sys2Proof.Machine
end

section
/-! PROOF. createChar (R215 to R217). -/

namespace Sys2Proof.Machine

/-! ### Runs of write frames -/

/-- The registers with `n` "not busy" answers lined up, once an item has completed. -/
def Regs.sent (r : Regs) (n : Nat) : Regs := { r with answers := List.replicate (8 * n) false, outcome := .normal }

theorem passes_sent (r : Regs) (n : Nat) (rs : Bool) (x : Byte) :
    Passes (r.sent (n + 1)) (.code (.frame (frameCode rs false x))) (sentEvents r.hs rs x) (r.sent n) := by
  refine passes_frame (r := r.sent (n + 1)) (fun _ => ?_) rs x
  rw [notBusy, List.replicate_append_replicate, Nat.add_comm 8]
  rfl

/-- Like sequences that take `k` answers each, put together. -/
theorem runs_flatMap {α : Type} {f : α → List Item} {g : α → List Event} {r : Regs} {k : Nat}
    (h : ∀ a n, Runs (r.sent (n + k)) (f a) (g a) (r.sent n)) (l : List α) (n : Nat) :
    Runs (r.sent (n + k * l.length)) (l.flatMap f) (l.flatMap g) (r.sent n) := by
  induction l with
  | nil => exact .nil _
  | cons a l ih =>
    rw [List.length_cons, Nat.mul_succ, ← Nat.add_assoc]
    exact (h a (n + k * l.length)).append ih

/-! ### The glyph -/

/-- `0x40 | a` with the address of R118. -/
theorem setCgram_cgramAddress (index : Byte) (row : Fin 8) :
    Config.opSetCgram ||| cgramAddress index row = 0x40 ||| BitVec.ofNat 8 (8 * (index.toNat % 8) + row.val) := by
  revert row
  exact Laws.TableRow.forall_byte (P := fun index => ∀ row : Fin 8, Config.opSetCgram ||| cgramAddress index row =
    0x40 ||| BitVec.ofNat 8 (8 * (index.toNat % 8) + row.val)) (by decide) index

/-- The low 7 bits, as an address and as a mask (R215). -/
theorem low7_setWidth (b : Byte) : (b.extractLsb' 0 7).setWidth 8 = b &&& 0x7F := by
  revert b
  exact Laws.TableRow.forall_byte (by decide)

/-- The events of one pattern row (R216). -/
def glyphRowEvents (hs : Handle) (index : Byte) (pattern : Vector Byte 8) (row : Fin 8) : List Event :=
  sentEvents hs false (0x40 ||| BitVec.ofNat 8 (8 * (index.toNat % 8) + row.val)) ++ sentEvents hs true pattern[row]

theorem runs_glyphRow (r : Regs) (index : Byte) (pattern : Vector Byte 8) (row : Fin 8) (n : Nat) :
    Runs (r.sent (n + 2)) (seqGlyphRow index pattern row) (glyphRowEvents r.hs index pattern row) (r.sent n) := by
  unfold seqGlyphRow glyphRowEvents
  rw [setCgram_cgramAddress]
  exact (passes_sent r (n + 1) false _).run.append (passes_sent r n true _).run

/-- The registers once the address to restore is noted down (R215). -/
def Regs.latched (r : Regs) : Regs := { r with addr := if r.hs.wired then r.lastRead.extractLsb' 0 7 else 0 }

theorem latched_addr (r : Regs) :
    (r.latched.addr.setWidth 8 : Byte) = if r.hs.wired then r.lastRead &&& 0x7F else 0 := by
  unfold Regs.latched
  dsimp only
  split
  · exact low7_setWidth _
  · rfl

/-- createChar's sequence but for the read-back: the address is noted down, the rows are written, the address is
restored (R215 to R217). -/
def seqGlyph (index : Byte) (pattern : Vector Byte 8) : List Item :=
  [Item.latchAddr] ++ (List.finRange 8).flatMap (seqGlyphRow index pattern) ++ [Item.restoreAddr]

theorem program_createChar (hs : Handle) (index : Byte) (pattern : Vector Byte 8) :
    program hs (.createChar index pattern) =
      (if hs.wired then .poll :: seqReadStatus else []) ++ seqGlyph index pattern := by
  simp only [program, reqCreateChar, seqGlyph, List.append_assoc]

/-- The glyph takes 17 answers: one for each of 16 frames, one for the command that restores the address. -/
theorem runs_glyph (r : Regs) (index : Byte) (pattern : Vector Byte 8) :
    Runs (r.sent 17) (seqGlyph index pattern)
      ((List.finRange 8).flatMap (glyphRowEvents r.hs index pattern) ++
        sentEvents r.hs false (0x80 ||| if r.hs.wired then r.lastRead &&& 0x7F else 0)) (r.latched.sent 0) := by
  have latch : Runs (r.sent 17) [.latchAddr] [] (r.latched.sent 17) := passes_latchAddr.run
  have rows := runs_flatMap (runs_glyphRow r.latched index pattern) (List.finRange 8) 1
  rw [List.length_finRange] at rows
  have restore := (passes_restoreAddr (r := r.latched.sent 1) (as := []) fun _ => rfl).run
  have run := (latch.append rows).append restore
  rw [List.nil_append] at run
  rw [← latched_addr]
  exact run

/-- The poll and the status read before the glyph, on a wired handle (R215). -/
theorem runs_readBack {r : Regs} (hw : r.hs.wired = true) {bs as : List Bool} (hl : bs.length = 8)
    (ha : r.answers = notBusy ++ (bs ++ as)) :
    Runs r (.poll :: seqReadStatus) (readFrameEvents r.hs false notBusy ++ readFrameEvents r.hs false bs)
      { r with answers := as, lastRead := answeredByte r.hs.w bs, outcome := .normal } := by
  have poll := (passes_poll (r := r) fun _ => ha).run
  rw [if_pos hw] at poll
  exact poll.append (passes_readStatus (r := { r with answers := bs ++ as, outcome := .normal }) hw hl rfl).run

/-- Settles O37: the read-back where RW is wired, then the glyph, for which 17 answers are lined up. -/
theorem createCharFrames : Obligations.CreateCharFrames := by
  intro s hs index pattern as rest hh hd hp hl ho
  cases hrw : hs.rw with
  | none =>
    have hw : hs.wired = false := by simp [Handle.wired, hrw]
    have run := runs_glyph (regsAtStart hs s []) index pattern
    have hprog : program hs (.createChar index pattern) = seqGlyph index pattern := by
      rw [program_createChar, hw]; rfl
    obtain ⟨n, t, hsteps, ended, k⟩ := request_ended hp hh hd rfl rfl
      (fun h => by rw [hw] at h; cases h) (hprog ▸ run)
    refine ⟨n, t, hsteps, k.h, k.result, ?_⟩
    rw [if_neg (by simp [regsAtStart, hw])] at ended
    rw [if_pos rfl, if_pos rfl, List.nil_append]
    exact ended
  | some q =>
    have hw : hs.wired = true := by simp [Handle.wired, hrw]
    have hread := runs_readBack (r := regsAtStart hs s (notBusy ++ (as ++ List.replicate (8 * 17) false))) hw hl rfl
    have run := hread.append (runs_glyph { regsAtStart hs s [] with lastRead := answeredByte hs.w as } index pattern)
    have hprog : program hs (.createChar index pattern) = (.poll :: seqReadStatus) ++ seqGlyph index pattern := by
      rw [program_createChar, if_pos hw]
    obtain ⟨n, t, hsteps, ended, k⟩ := request_ended hp hh hd rfl rfl
      (fun _ => ⟨rest, by rw [ho (by simp [hrw])]; simp [notBusy]⟩) (hprog ▸ run)
    refine ⟨n, t, hsteps, k.h, k.result, ?_⟩
    change Ended s t (_ ++ (List.finRange 8).flatMap (glyphRowEvents hs index pattern) ++ _)
    simpa [regsAtStart, hw, notBusy] using ended

end Sys2Proof.Machine
end

section
/-! PROOF. The event sequence of a whole init (R180 to R192), and what a trace decoder makes of it (R126). -/

namespace Sys2Proof.Machine

/-! ### The run -/

/-- The events of step (c) (R185, R186). -/
def handshakeEvents (hs : Handle) : List Event :=
  match hs.w with
  | .eight => (List.replicate 3 (writeEvents hs (functionSetByte hs) ++ [.wait .initGap])).flatten
  | .four => [0x3, 0x3, 0x3, 0x2].flatMap fun v => writeEvents hs v ++ [.wait .initGap]

/-- The events of the extra wait after Clear and Home (R245). -/
def longEvents (hs : Handle) : List Event := if hs.wired then [] else [.wait .long]

/-- The events of steps (a) to (g) (R183 to R192). -/
def initEvents (hs : Handle) : List Event :=
  [Event.wait .power] ++ lineEvents hs ++ handshakeEvents hs ++ sentEvents hs false (functionSetByte hs) ++
    sentEvents hs false (displayControlByte displayControlInit) ++
    sentEvents hs false (entryModeByte displayModeInit) ++
    (sentEvents hs false Config.opClear ++ longEvents hs) ++ (sentEvents hs false Config.opHome ++ longEvents hs)

/-- A raw nibble of the handshake is a raw write transfer (R186, R187). -/
theorem passes_nibble {r : Regs} (hw : r.hs.w = .four) {c : BitVec 6} {x : Byte}
    (hc : c = 0b000011 ∧ x = 0x03 ∨ c = 0b000010 ∧ x = 0x02) :
    Passes r (.code (.nibble c)) (writeEvents r.hs x) { r with outcome := .normal } := by
  refine writeBits_passes fun s => ?_
  rw [hw]
  rcases hc with ⟨rfl, rfl⟩ | ⟨rfl, rfl⟩ <;> rfl

theorem passes_rawWrite {r : Regs} {w : Width} (hw : r.hs.w = w) (x : Byte) :
    Passes r (.rawWrite x w) (writeEvents r.hs x) { r with outcome := .normal } := by
  subst hw
  exact writeBits_passes fun s => rfl

theorem runs_handshake (r : Regs) (n : Nat) :
    Runs (r.sent n) (seqHandshake r.hs) (handshakeEvents r.hs) (r.sent n) := by
  unfold seqHandshake handshakeEvents
  cases hw : r.hs.w with
  | eight =>
    have one := (passes_rawWrite (r := r.sent n) hw (functionSetByte r.hs)).run.append (passes_wait .initGap).run
    exact one.append (one.append (one.append (.nil _)))
  | four =>
    have three := (passes_nibble (r := r.sent n) hw (.inl ⟨rfl, rfl⟩)).run.append (passes_wait .initGap).run
    have two := (passes_nibble (r := r.sent n) hw (.inr ⟨rfl, rfl⟩)).run.append (passes_wait .initGap).run
    exact three.append (three.append (three.append (two.append (.nil _))))

theorem runs_longWait (r : Regs) (n : Nat) :
    Runs (r.sent n) (seqLongWait r.hs) (longEvents r.hs) (r.sent n) := by
  unfold seqLongWait longEvents
  split
  · exact .nil _
  · exact (passes_wait .long).run

theorem runs_sendCommand (r : Regs) (n : Nat) (x : Byte) :
    Runs (r.sent (n + 1)) (reqSendCommand x) (sentEvents r.hs false x) (r.sent n) := (passes_sent r n false x).run

/-- A toggle's tail: the flag byte, then the whole byte sent (R230). -/
theorem runs_seqControl (r : Regs) (n : Nat) (g : Byte) :
    Runs (r.sent (n + 1)) (seqControl g) (sentEvents r.hs false (displayControlByte g))
      (Regs.sent { r with hs := { r.hs with displayControl := g } } n) :=
  have run := (passes_setControl (r := r.sent (n + 1)) g).run.append
    (runs_sendCommand { r with hs := { r.hs with displayControl := g } } n (displayControlByte g))
  run

theorem runs_seqMode (r : Regs) (n : Nat) (g : Byte) :
    Runs (r.sent (n + 1)) (seqMode g) (sentEvents r.hs false (entryModeByte g))
      (Regs.sent { r with hs := { r.hs with displayMode := g } } n) :=
  have run := (passes_setMode (r := r.sent (n + 1)) g).run.append
    (runs_sendCommand { r with hs := { r.hs with displayMode := g } } n (entryModeByte g))
  run

/-- The handle as init leaves it (R189, R190). -/
def initialised (hs : Handle) : Handle :=
  { hs with displayControl := displayControlInit, displayMode := displayModeInit }

/-- Steps (a) to (d), for which one "not busy" answer is taken (R183 to R188). -/
theorem runs_init_function (r : Regs) (n : Nat) :
    Runs (r.sent (n + 1))
      ([Item.wait .power, .configureLines] ++ seqHandshake r.hs ++ reqSendCommand (functionSetByte r.hs))
      ([Event.wait .power] ++ lineEvents r.hs ++ handshakeEvents r.hs ++ sentEvents r.hs false (functionSetByte r.hs))
      (r.sent n) :=
  have lines := (passes_wait (r := r.sent (n + 1)) .power).run.append passes_configureLines.run
  (lines.append (runs_handshake r (n + 1))).append (runs_sendCommand r n _)

/-- Clear and home with their waits, for which two answers are taken (R191). -/
theorem runs_clear_home (r : Regs) (n : Nat) :
    Runs (r.sent (n + 2)) (reqClear r.hs ++ reqHome r.hs)
      ((sentEvents r.hs false Config.opClear ++ longEvents r.hs) ++
        (sentEvents r.hs false Config.opHome ++ longEvents r.hs)) (r.sent n) :=
  have clear := (runs_sendCommand r (n + 1) Config.opClear).append (runs_longWait r (n + 1))
  have home := (runs_sendCommand r n Config.opHome).append (runs_longWait r n)
  clear.append home

/-- The whole sequence, for which five answers are taken (R192). -/
theorem runs_init (r : Regs) :
    Runs (r.sent 5) (seqInit r.hs) (initEvents r.hs)
      { r.sent 0 with hs := initialised r.hs, result := .handle true } := by
  have control := (runs_init_function r 4).append (runs_seqControl r 3 displayControlInit)
  have mode := control.append (runs_seqMode _ 2 displayModeInit)
  have run := (mode.append (runs_clear_home { r with hs := initialised r.hs } 0)).append passes_returnHandle.run
  simp only [List.append_nil, List.append_assoc] at run
  simp only [seqInit, initEvents, List.append_assoc]
  exact run

/-! ### The request -/

theorem InitPresented.refusal_none {s : State} {req : Request} {hs : Handle} (hp : InitPresented s req hs) :
    initRefusal hs s = none := by
  have hshared : ¬ ∃ p ∈ hs.pins, p ∈ s.foreign := fun ⟨p, hp', hf⟩ => hp.unshared p hp' hf
  rw [initRefusal, hp.noHandle, if_neg (by simp), if_neg hp.rows, if_neg (not_not_intro ⟨hp.distinct, hp.inRange⟩),
    if_neg hshared]

theorem program_of_newHandle {req : Request} {hs : Handle} (h : req.newHandle = some hs) :
    program hs req = seqInit hs := by
  cases req with
  | init8 | init4 => rfl
  | _ => cases h

/-- A presented init that meets its conditions runs to its end while the controller is not busy (R180 to R193). -/
theorem init_ended {s : State} {req : Request} {hs : Handle} (hp : InitPresented s req hs)
    (ha : AllocatesQuiet hs 5 s) :
    ∃ n t, steps n s = .next t ∧ Ended s t (initEvents hs) ∧
      Holds { (regsAtStart hs s []).sent 0 with hs := initialised hs, result := .handle true } t := by
  obtain ⟨hphase, htodo, hport⟩ := hp.presented
  obtain ⟨rest, horacle, hquiet⟩ := ha
  have w := newHandle_wf hp.asks hp.refusal_none
  have hrefusal : refusalOf req { s with reqPort := none } = none := by
    rw [refusalOf, hp.asks]; exact hp.refusal_none
  have hdraw := draw_cons (s := { s with reqPort := none }) horacle
  have hstep : step s = .next (beginInit req hs { s with reqPort := none }) := by
    rw [step_request hphase htodo hport, accept, hrefusal, hp.asks]
  rw [beginInit, hdraw, program_of_newHandle hp.asks] at hstep
  obtain ⟨n, t, hsteps, ended, k⟩ := (runs_init (regsAtStart hs s [])).ended
    (s := { start req (seqInit hs) { s with reqPort := none, oracle := rest, drawn := s.drawn + 1 } with h := some hs })
    ⟨rfl, w.width, rfl, rfl, rfl, rfl, hquiet⟩ rfl rfl (fun hnil => if_pos hnil)
  exact ⟨n + 1, t, (steps_succ_of hstep).trans hsteps,
    ⟨ended.trace, ended.phase, ended.todo, ended.reqPort, ended.script, ended.params, ended.foreign⟩, k⟩

end Sys2Proof.Machine
end

section
/-! PROOF. What a trace decoder makes of a whole init (R126, R192). -/

namespace Sys2Proof.Machine

/-! ### Codes read off one part of a trace after the other -/

/-- Where the rest `e` of a part comes before `g` as `e'`, a code before `e` comes before `e'`. -/
theorem map_cons_eq_map_append {ε α : Type} {c : α} {cs : List α} {e e' g : Except ε (List α)}
    (h : e.map (c :: ·) = .ok cs) (he : ∀ {cs}, e = .ok cs → e' = g.map (cs ++ ·)) :
    e'.map (c :: ·) = g.map (cs ++ ·) := by
  cases e with
  | error _ => cases h
  | ok cs' =>
    cases h
    rw [he rfl]
    cases g <;> rfl

theorem traceCodes_handshake (w : Width) {a : Transfer} (ha : a.handshake = true) (r : List Transfer) :
    traceCodes w (a :: r) = (traceCodes w r).map ((true, rawCode w a) :: ·) := by
  rw [traceCodes.eq_def]; exact if_pos ha

/-- Codes that the first part of a trace completes stand before those of the rest (R126). -/
theorem traceCodes_append {w : Width} {xs : List Transfer} {cs : List (Bool × WireCode)}
    (h : traceCodes w xs = .ok cs) (ys : List Transfer) :
    traceCodes w (xs ++ ys) = (traceCodes w ys).map (cs ++ ·) := by
  fun_induction traceCodes w xs generalizing cs with
  | case1 w => cases h; rw [List.nil_append]; cases traceCodes w ys <;> rfl
  | case2 w a r ha ih =>
    rw [List.cons_append, traceCodes_handshake w ha]
    exact map_cons_eq_map_append h ih
  | case3 a ha r ih =>
    rw [List.cons_append, traceCodes, if_neg ha]
    exact map_cons_eq_map_append h ih
  | case4 a ha b r hb ih =>
    rw [List.cons_append, List.cons_append, traceCodes, if_neg ha, if_pos hb]
    exact map_cons_eq_map_append h ih
  | case5 => cases h
  | case6 => cases h

/-- The observer between transfers: `n` handshake writes still to come, RS at `rs`, and RW low where it is tied to
ground. -/
structure Watching (hs : Handle) (n : Nat) (rs : Bool) (o : Watch) : Prop where
  toCome : o.toCome = n
  rs : o.rs = rs
  unwired : hs.rw = none → o.rw = false

/-- Events that take every observer from one such point to another, and show it transfers that make codes `cs`. -/
def Shows (hs : Handle) (n : Nat) (rs : Bool) (evs : List Event) (cs : List (Bool × WireCode)) (n' : Nat)
    (rs' : Bool) : Prop :=
  ∀ o, Watching hs n rs o → Watching hs n' rs' (evs.foldl (Watch.see hs) o) ∧
    ∃ ts, (evs.foldl (Watch.see hs) o).seen = o.seen ++ ts ∧ traceCodes hs.w ts = .ok cs

namespace Shows

variable {hs : Handle} {n : Nat} {rs : Bool}

theorem nil : Shows hs n rs [] [] n rs := fun o k => ⟨k, [], by simp, by rw [traceCodes]⟩

theorem append {n' n'' : Nat} {rs' rs'' : Bool} {xs ys : List Event} {cs ds : List (Bool × WireCode)}
    (a : Shows hs n rs xs cs n' rs') (b : Shows hs n' rs' ys ds n'' rs'') :
    Shows hs n rs (xs ++ ys) (cs ++ ds) n'' rs'' := fun o k => by
  obtain ⟨k', ts, hts, hcs⟩ := a o k
  obtain ⟨k'', us, hus, hds⟩ := b _ k'
  rw [List.foldl_append]
  refine ⟨k'', ts ++ us, by rw [hus, hts, List.append_assoc], ?_⟩
  rw [traceCodes_append hcs, hds]
  rfl

theorem wait (d : Delay) : Shows hs n rs [.wait d] [] n rs := nil

/-- The codes of instructions decode to the instructions. -/
theorem decodes {n' : Nat} {rs' : Bool} {evs : List Event} {is : List Decoded}
    (a : Shows hs n rs evs (is.map fun d => (d.handshake, encode d.instr)) n' rs') {o : Watch} (k : Watching hs n rs o)
    (ho : o.seen = []) : decodeTrace hs o evs = .ok is := by
  obtain ⟨-, ts, hts, hcodes⟩ := a o k
  have hall : ∀ is : List Decoded, (is.map fun d => (d.handshake, encode d.instr)).mapM decodeTagged = .ok is := by
    intro is
    induction is with
    | nil => rfl
    | cons d is ih => rw [List.map_cons, List.mapM_cons, ih, decodeTagged, decodeOfEncode]; rfl
  rw [decodeTrace, transfersOf, hts, ho, List.nil_append, hcodes]
  exact hall is

variable {p : Params} (w : hs.Wf p)

include w

/-- A raw handshake write with RS low is one code of its own (R103, R185). -/
theorem rawWrite (x : Byte) :
    Shows hs (n + 1) false (writeEvents hs x) [(true, rawCode hs.w ⟨false, false, lowBits hs.w x, true⟩)] n false :=
  fun o k => by
    rw [watch_writeEvents w x k.unwired]
    refine ⟨⟨by simp [k.toCome], k.rs, fun _ => rfl⟩, _, rfl, ?_⟩
    rw [k.rs, k.toCome, traceCodes_handshake hs.w rfl, traceCodes]
    rfl

/-- A write frame outside the handshake is the frame code of its byte (R101, R102). -/
theorem frame (b : Bool) (x : Byte) :
    Shows hs 0 rs (frameEvents hs b x) [(false, .frame (frameCode b false x))] 0 b := fun o k => by
  obtain ⟨hre, -⟩ := w.apart
  have hrs : Watch.see hs o (.put hs.rs b) = { o with rs := b } := by simp [Watch.see, hre]
  unfold frameEvents byteEvents
  rw [List.foldl_cons, hrs]
  cases hw : hs.w with
  | eight =>
    dsimp only
    rw [watch_writeEvents w x (by exact k.unwired), hw]
    refine ⟨⟨by simp [k.toCome], rfl, fun _ => rfl⟩, _, rfl, ?_⟩
    simp [k.toCome, traceCodes, lowBits, Except.map]
  | four =>
    dsimp only
    rw [List.foldl_append, watch_writeEvents w (x >>> 4) (by exact k.unwired),
      watch_writeEvents w (x &&& 0xF) (fun _ => rfl), hw]
    refine ⟨⟨by simp [k.toCome], rfl, fun _ => rfl⟩, _, List.append_assoc .., ?_⟩
    simp [k.toCome, traceCodes, Except.map, byte_of_halves]

/-- A read frame is the frame code of the byte that came back (R112, R114). -/
theorem readFrame {q : Pin} (hr : hs.rw = some q) (b : Bool) {bs : List Bool} (hl : bs.length = 8) :
    Shows hs 0 rs (readFrameEvents hs b bs) [(false, .frame (frameCode b true (answeredByte hs.w bs)))] 0 b :=
  fun o k => by
    obtain ⟨hre, -⟩ := w.apart
    have hrs : Watch.see hs o (.put hs.rs b) = { o with rs := b } := by simp [Watch.see, hre]
    have hd := w.width
    have hunw : hs.rw = none → (true : Bool) = false := fun h => by rw [hr] at h; cases h
    unfold readFrameEvents
    rw [List.foldl_cons, hrs, hr]
    cases hw : hs.w with
    | eight =>
      dsimp only
      rw [watch_readEvents w hr (by rw [hl, hd, hw]; rfl)]
      refine ⟨⟨k.toCome, rfl, hunw⟩, _, rfl, ?_⟩
      simp [traceCodes, answeredByte, Except.map]
    | four =>
      dsimp only
      have htake : (bs.take 4).length = hs.d.length := by rw [List.length_take, hl, hd, hw]; rfl
      have hdrop : (bs.drop 4).length = hs.d.length := by rw [List.length_drop, hl, hd, hw]; rfl
      have hlo : gather (bs.drop 4) &&& 15#8 = gather (bs.drop 4) := gather_nibble (by rw [List.length_drop, hl])
      rw [List.foldl_append, watch_readEvents w hr htake, watch_readEvents w hr hdrop]
      refine ⟨⟨k.toCome, rfl, hunw⟩, _, List.append_assoc .., ?_⟩
      simp [traceCodes, answeredByte, Except.map, hlo]

/-- Step (b) starts the handshake's count, whatever was seen before it (R126, R184). -/
theorem lineEvents : Shows hs n rs (lineEvents hs) [] (handshakeLength hs.w) false := fun o k => by
  obtain ⟨hre, -, -, -, hq⟩ := w.apart
  unfold Machine.lineEvents
  cases hr : hs.rw with
  | none =>
    refine ⟨⟨?_, ?_, ?_⟩, [], ?_, by rw [traceCodes]⟩ <;> simp [Watch.see, hre, hr, k.unwired]
  | some q =>
    obtain ⟨hqrs, hqe, -⟩ := hq q hr
    refine ⟨⟨?_, ?_, ?_⟩, [], ?_, by rw [traceCodes]⟩ <;> simp [Watch.see, hre, hr, hqrs, hqe]

end Shows

/-! ### The instructions of init -/

/-- Init's Function Set (R185, R188). -/
def functionInstr (hs : Handle) : Instr :=
  .functionSet (decide (hs.w = .eight)) (decide (1 < hs.numlines.toNat)) (hs.displayFunction.getLsbD 2) 0

theorem functionInstr_shape {p : Params} {hs : Handle} (w : hs.Wf p) :
    shapeOf (functionInstr hs) = .write false (functionSetByte hs) := by
  have bits : ∀ b : Byte, b &&& 0xE3 = 0 → (Instr.functionSet (hasBit b 0x10) (hasBit b 0x08) (b.getLsbD 2) 0).byte =
      Config.opFunctionSet ||| b := Laws.TableRow.forall_byte (by decide)
  rw [functionInstr, ← w.functionDL, ← w.functionN]
  exact congrArg (Shape.write false) (bits _ w.functionReserved)

/-- The raw instructions of the handshake (R185, R186). -/
def handshakeInstrs (hs : Handle) : List Instr :=
  match hs.w with
  | .eight => [functionInstr hs, functionInstr hs, functionInstr hs]
  | .four => [.initNibble3, .initNibble3, .initNibble3, .initNibble2]

/-- An instruction after its status read, if RW is wired (R94). -/
def polledInstrs (hs : Handle) (i : Instr) : List Instr :=
  if hs.rw = none then [i] else [.readBusyFlagAddress false 0, i]

/-- The instructions of steps (d) to (g) (R188 to R191). -/
def framedInstrs (hs : Handle) : List Instr :=
  [functionInstr hs, .displayControl true false false, .entryModeSet true false, .clearDisplay, .returnHome false]

/-- The codes of instructions, in the handshake or after it. -/
def taggedCodes (handshake : Bool) (is : List Instr) : List (Bool × WireCode) := is.map fun i => (handshake, encode i)

/-- What is read off a whole init (R126, R192). -/
def initDecoded (hs : Handle) : List Decoded :=
  (handshakeInstrs hs).map (Decoded.mk true) ++ ((framedInstrs hs).flatMap (polledInstrs hs)).map (Decoded.mk false)

theorem initDecoded_codes (hs : Handle) :
    (initDecoded hs).map (fun d => (d.handshake, encode d.instr)) =
      taggedCodes true (handshakeInstrs hs) ++ taggedCodes false ((framedInstrs hs).flatMap (polledInstrs hs)) := by
  rw [initDecoded, List.map_append, List.map_map, List.map_map]
  rfl

section Init

variable {p : Params} {hs : Handle} (w : hs.Wf p)

include w

theorem shows_handshake :
    Shows hs (handshakeLength hs.w) false (handshakeEvents hs) (taggedCodes true (handshakeInstrs hs)) 0 false := by
  have raw : ∀ {i x}, rawCode hs.w ⟨false, false, lowBits hs.w x, true⟩ = encode i → ∀ n,
      Shows hs (n + 1) false (writeEvents hs x ++ [.wait .initGap]) [(true, encode i)] n false := fun {i x} hi n => by
    rw [← hi]; exact (Shows.rawWrite w x).append (.wait .initGap)
  unfold handshakeEvents handshakeInstrs
  cases hw : hs.w with
  | eight =>
    have function := raw (i := functionInstr hs) (x := functionSetByte hs) (by
      rw [encode_of_write (functionInstr_shape w), hw]; rfl)
    exact (function 2).append ((function 1).append ((function 0).append .nil))
  | four =>
    have three := raw (i := .initNibble3) (x := 0x3) (by rw [hw]; decide)
    have two := raw (i := .initNibble2) (x := 0x2) (by rw [hw]; decide)
    exact (three 3).append ((three 2).append ((three 1).append ((two 0).append .nil)))

/-- A command after its poll (R160, R192). -/
theorem shows_sent {i : Instr} {x : Byte} (hi : shapeOf i = .write false x) (rs : Bool) :
    Shows hs 0 rs (sentEvents hs false x) (taggedCodes false (polledInstrs hs i)) 0 false := by
  have frame : ∀ rs, Shows hs 0 rs (frameEvents hs false x) [(false, encode i)] 0 false := fun rs => by
    rw [encode_of_write hi]; exact .frame w false x
  unfold sentEvents polledInstrs
  cases hr : hs.rw with
  | none =>
    rw [if_neg (by simp [Handle.wired, hr])]
    exact frame rs
  | some q =>
    have status : WireCode.frame (frameCode false true (answeredByte hs.w notBusy)) =
        encode (.readBusyFlagAddress false 0) := by cases hs.w <;> rfl
    have read := Shows.readFrame (rs := rs) w hr false (bs := notBusy) rfl
    rw [status] at read
    rw [if_pos (by simp [Handle.wired, hr])]
    exact read.append (frame false)

omit w in
theorem shows_long (rs : Bool) : Shows hs 0 rs (longEvents hs) [] 0 rs := by
  unfold longEvents
  split
  · exact .nil
  · exact .wait .long

/-- A whole init seen from any point (R192). -/
theorem shows_init (n : Nat) (rs : Bool) :
    Shows hs n rs (initEvents hs) ((initDecoded hs).map fun d => (d.handshake, encode d.instr)) 0 false := by
  have lines := (Shows.wait (hs := hs) (n := n) (rs := rs) .power).append (.lineEvents w)
  have function := (lines.append (shows_handshake w)).append (shows_sent w (functionInstr_shape w) false)
  have control := function.append (shows_sent w (i := .displayControl true false false)
    (x := displayControlByte displayControlInit) rfl false)
  have mode := control.append (shows_sent w (i := .entryModeSet true false)
    (x := entryModeByte displayModeInit) rfl false)
  have clear := mode.append ((shows_sent w (i := .clearDisplay) (x := Config.opClear) rfl false).append
    (shows_long false))
  have home := clear.append ((shows_sent w (i := .returnHome false) (x := Config.opHome) rfl false).append
    (shows_long false))
  rw [initDecoded_codes]
  simpa only [initEvents, taggedCodes, framedInstrs, List.flatMap_cons, List.flatMap_nil, List.map_append,
    List.append_assoc, List.append_nil, List.nil_append] using home

end Init

/-- Settles O58: init's events show the codes of its instructions, which decode to them. -/
theorem initTraceDecodes : Obligations.InitTraceDecodes := by
  intro s req hs toCome hp ha
  obtain ⟨n, t, hsteps, ended, k⟩ := init_ended hp ha
  have w := newHandle_wf hp.asks hp.refusal_none
  have start : Watching hs toCome (Watch.ofPort hs s.port toCome).rs (Watch.ofPort hs s.port toCome) :=
    ⟨rfl, rfl, fun h => by simp [Watch.ofPort, h]⟩
  refine ⟨n, t, hsteps, ended.phase, ended.todo, k.result, ?_⟩
  rw [ended.trace, List.drop_left]
  exact (shows_init w toCome _).decodes start rfl

end Sys2Proof.Machine
end

section
/-! PROOF. The raw transfers: their events, their values, and what they leave on the lines (R140 to R147). -/

namespace Sys2Proof.Machine

/-! ### Write transfers -/

/-- The low W bits as a remainder (R140). -/
theorem lowBits_eq_mod (w : Width) (x : Byte) : lowBits w x = BitVec.ofNat 8 (x.toNat % 2 ^ w.bits) := by
  refine BitVec.eq_of_getLsbD_eq fun i hi => ?_
  rw [lowBits_getLsbD, BitVec.getLsbD_ofNat, Nat.testBit_mod_two_pow, BitVec.testBit_toNat, decide_eq_true hi,
    Bool.true_and]

/-- Settles O6: `writeEvents` is the rule's list on either discipline. -/
theorem writeBitsEvents : Obligations.WriteBitsEvents := by
  intro s hs x hh
  obtain ⟨t, hwrite, htrace, hsetup, hread, -⟩ := writeBits_complete hh x rfl
  refine ⟨t, hwrite, hsetup.h.trans hh, hsetup.todo, hread, ?_⟩
  rw [htrace, writeEvents, lowBits_eq_mod]
  cases hs.rw <;> rfl

/-- A driven data line holds its bit of a write transfer (R81, R141). -/
theorem writeEvents_level_data {p : Params} {hs : Handle} (w : hs.Wf p) (free : PinState) {pt : Port}
    (ok : LinesOk hs pt) (x : Byte) {i : Nat} {q : Pin} (hq : hs.d[i]? = some q) :
    (portAfter free pt (writeEvents hs x)).level q = Level.ofBool (x.getLsbD i) := by
  obtain ⟨-, -, -, hnodup, -⟩ := w.apart
  have hd : q ∈ hs.d := List.mem_of_getElem? hq
  have hi : i < hs.w.bits := w.width ▸ (List.getElem?_eq_some_iff.1 hq).1
  have hdir : (if hs.wired then Dir.out else (pinGet q pt.pins).dir) = .out := by
    rw [ok.data q hd, busDir_after_write ok]
  have hbit : (spread hs.d (lowBits hs.w x)).testBit q = x.getLsbD i := by
    rw [spread_testBit hnodup _ hq, lowBits_getLsbD, decide_eq_true hi, Bool.true_and]
  rw [Port.level, writeEvents_get w, if_pos hd, hdir, hbit]

/-- Settles O7: the lines are what the transfer's events leave. -/
theorem writeBitsLevels : Obligations.WriteBitsLevels := by
  intro s t hs x hh w ok hwrite
  rw [writeBits_some hh] at hwrite
  cases hwrite
  have d := completed_did (emitAll_did (writeEvents_not_release hs x) s)
  obtain ⟨hok, hrs, hrw, hout⟩ := writeEvents_linesOk w PinState.undriven ok x
  obtain ⟨hbus, howned⟩ := writeEvents_bus (hs := hs) PinState.undriven s.port x
  rw [d.port PinState.undriven]
  exact ⟨hok.eLow, hrw, hbus.trans (busDir_after_write ok), hrs,
    fun _ _ hq => writeEvents_level_data w _ ok x hq, hout, howned⟩

/-! ### Read transfers -/

theorem readBits_some {s : State} {hs : Handle} (hh : s.h = some hs) :
    readBits hs.w s = .next (completedRead hs (readLines hs s).1 (readLines hs s).2) := by
  unfold readBits; rw [hh]; exact if_pos rfl

theorem readBits_refused {s : State} {hs : Handle} (hh : s.h = some hs) {w : Width} (hw : w ≠ hs.w) :
    readBits w s = .refused .width := by
  unfold readBits; rw [hh]; exact if_neg hw

/-- A data line is released by a read transfer (R145). -/
theorem readEvents_level_data {p : Params} {hs : Handle} (w : hs.Wf p) (free : PinState) (pt : Port) {r : Pin}
    (hr : hs.rw = some r) (bs : List Bool) {q : Pin} (hq : q ∈ hs.d) :
    (portAfter free pt (readEvents hs r bs)).level q = .z := by
  rw [Port.level, readEvents_get w free pt hr, if_pos hq]

/-- Settles O8: the answers, the events and the port are those of `readLines`. -/
theorem readBitsWired : Obligations.ReadBitsWired := by
  intro s hs q hh hrw w ok
  obtain ⟨bs, hlen, hvalue, htrace, hsetup, -, -, -, -, hport, hanswers⟩ := readLines_spec hrw s
  obtain ⟨hok, hrs, hrwHigh, hout⟩ := readEvents_linesOk w PinState.undriven ok hrw bs
  have hbus := (readEvents_bus (hs := hs) PinState.undriven s.port q bs).1
  have hdata := fun p hp => readEvents_level_data w PinState.undriven s.port hrw bs (q := p) hp
  rw [← hport] at hok hrs hrwHigh hout hbus hdata
  have hwired : hs.wired = true := by simp [Handle.wired, hrw]
  exact ⟨_, bs, readBits_some hh, hlen.trans w.width, htrace, hvalue, if_pos hwired, hsetup.h.trans hh, hok.eLow,
    hrwHigh, hbus, hrs, hdata, hout, fun as rest ho hl => hanswers as rest ho (hl.trans w.width.symm)⟩

theorem sentinel_eq (w : Width) : sentinel w = (match w with | .four => 0x0F | .eight => 0xFF) := by
  cases w <;> rfl

/-- Settles O9: with RW not wired `readLines` is the sentinel and the state as it was. -/
theorem readBitsSentinel : Obligations.ReadBitsSentinel := by
  intro s hs hh hrw
  have hread : readBits hs.w s = .next (completedRead hs (sentinel hs.w) s) := by
    rw [readBits_some hh, readLines_unwired hrw]
  have hwired : ¬ hs.wired = true := by simp [Handle.wired, hrw]
  exact ⟨_, hread, sentinel_eq hs.w, rfl, rfl, rfl, rfl, rfl, if_neg hwired⟩

/-! ### Requests -/

/-- The state in which request `r` has begun on handle `hs` (R56). -/
def begun (r : Request) (hs : Handle) (s : State) : State := start r (program hs r) { s with reqPort := none }

@[simp] theorem begun_h (r : Request) (hs : Handle) (s : State) : (begun r hs s).h = s.h := rfl
@[simp] theorem begun_todo (r : Request) (hs : Handle) (s : State) : (begun r hs s).todo = program hs r := rfl
@[simp] theorem begun_reqPort (r : Request) (hs : Handle) (s : State) : (begun r hs s).reqPort = none := rfl
@[simp] theorem begun_result (r : Request) (hs : Handle) (s : State) : (begun r hs s).result = .nothing := rfl

/-- What a raw transfer request meets first is its width (R144, R268). -/
theorem step_raw {s : State} {hs : Handle} {r : Request} {w : Width} (hp : Presented r s) (hh : s.h = some hs)
    (hnew : r.newHandle = none) (hwidth : r.width = some w) :
    step s = if w = hs.w then .next (begun r hs s) else .refused .width := by
  obtain ⟨hphase, htodo, hport⟩ := hp
  rw [step_request hphase htodo hport, accept, refusalOf, hnew]
  simp only [widthRefusal, hwidth, hh]
  by_cases hw : w = hs.w
  · simp only [if_pos hw, begun, hh]
  · simp only [if_neg hw]

/-- Settles O10: the transfers and the requests each look at the width first. -/
theorem wrongWidthRefused : Obligations.WrongWidthRefused := by
  intro s hs w x hh hw
  refine ⟨writeBits_refused hh x hw, readBits_refused hh hw, fun hp => ?_, fun hp => ?_⟩
  · rw [step_raw hp hh rfl rfl, if_neg hw]
  · rw [step_raw hp hh rfl rfl, if_neg hw]

/-- A raw transfer request of the handle's width begins. -/
theorem step_raw_begun {s : State} {hs : Handle} {r : Request} (hp : Presented r s) (hh : s.h = some hs)
    (hnew : r.newHandle = none) (hwidth : r.width = some hs.w) : step s = .next (begun r hs s) :=
  (step_raw hp hh hnew hwidth).trans (if_pos rfl)

/-- A raw write request runs its one item (R140). -/
theorem writeRequest_ended {s : State} {hs : Handle} {x : Byte} (hh : s.h = some hs)
    (hp : Presented (.writeBits x hs.w) s) :
    ∃ t, steps 2 s = .next t ∧ Ended s t (writeEvents hs x) ∧ t.h = some hs ∧ t.result = .nothing ∧
      t.outcome = .normal := by
  have e := ((Emitted.refl (begun (.writeBits x hs.w) hs s)).emitAll (writeEvents hs x)).completed
  have hh' : (begun (.writeBits x hs.w) hs s).h = some hs := hh
  have hitem : step (begun (.writeBits x hs.w) hs s) =
      .next (retire (completed (emitAll (writeEvents hs x) (begun (.writeBits x hs.w) hs s)))) := by
    rw [step_item (begun_todo ..) (by simp [NoOverlap]), runItem, writeBits_some hh', andThen_next]
  refine ⟨_, (steps_succ_of (step_raw_begun hp hh rfl rfl)).trans (steps_succ_of hitem), ?_, by simpa using hh,
    by simp, rfl⟩
  have htail := congrArg List.tail e.todo
  exact ⟨e.trace, if_pos htail, htail, e.reqPort, e.script, e.params, e.foreign⟩

/-- A raw read request runs its transfer and returns the value; it ends with what the transfer emitted (R145). -/
theorem readRequest_ended {s : State} {hs : Handle} (hh : s.h = some hs) (hp : Presented (.readBits hs.w) s)
    {evs : List Event}
    (e : Emitted (begun (.readBits hs.w) hs s) (readLines hs (begun (.readBits hs.w) hs s)).2 evs) :
    ∃ t, steps 3 s = .next t ∧ t.h = some hs ∧ Ended s t evs ∧
      t.outcome = (if hs.wired then .normal else .readUnsupported) ∧
      t.result = .value (readLines hs (begun (.readBits hs.w) hs s)).1 := by
  have hh' : (begun (.readBits hs.w) hs s).h = some hs := hh
  generalize hread : readLines hs (begun (.readBits hs.w) hs s) = out at e ⊢
  obtain ⟨b, u⟩ := out
  have huh : u.h = some hs := by
    have := (readLines_onBus hh').h_eq
    rw [hread] at this
    exact this.trans hh
  have hitem : step (begun (.readBits hs.w) hs s) = .next (retire (completedRead hs b u)) := by
    rw [step_item (begun_todo ..) (by simp [NoOverlap]), runItem, readBits_some hh', hread, andThen_next]
  have htodo : (retire (completedRead hs b u)).todo = [.returnRead] := congrArg List.tail e.todo
  have hport : u.reqPort = none := e.reqPort
  have hreturn := step_item htodo (by simp [NoOverlap, hport])
  refine ⟨_, (steps_succ_of (step_raw_begun hp hh rfl rfl)).trans ((steps_succ_of hitem).trans
    (steps_succ_of hreturn)), huh, ?_, rfl, rfl⟩
  have htail := congrArg List.tail htodo
  exact ⟨e.trace, if_pos htail, htail, e.reqPort, e.script, e.params, e.foreign⟩

/-- Settles O39: each request runs its items to the end; what they did is what the transfer did. -/
theorem rawTransferRequests : Obligations.RawTransferRequests := by
  intro s hs x as rest hh hlen ho
  refine ⟨fun hp => ⟨2, writeRequest_ended hh hp⟩, fun hp => ⟨3, ?_⟩⟩
  cases hrw : hs.rw with
  | none =>
    have hread := readLines_unwired hrw (begun (.readBits hs.w) hs s)
    obtain ⟨t, hsteps, hth, hended, hout, hresult⟩ := readRequest_ended hh hp (evs := [])
      (by rw [hread]; exact .refl _)
    rw [if_neg (by simp [Handle.wired, hrw])] at hout
    rw [hread, sentinel_eq] at hresult
    exact ⟨t, hsteps, hth, fun _ => ⟨hended, hout, hresult⟩, nofun⟩
  | some q =>
    obtain ⟨bs, -, hvalue, htrace, hsetup, -, -, -, -, -, hanswers⟩ :=
      readLines_spec hrw (begun (.readBits hs.w) hs s)
    obtain ⟨rfl, -⟩ := hanswers as rest (ho (by rw [hrw]; exact nofun)) hlen
    obtain ⟨t, hsteps, hth, hended, hout, hresult⟩ := readRequest_ended hh hp (.of_setup htrace hsetup)
    rw [if_pos (by simp [Handle.wired, hrw])] at hout
    rw [hvalue] at hresult
    exact ⟨t, hsteps, hth, nofun, fun r hr => Option.some.inj hr ▸ ⟨hended, hout, hresult⟩⟩

end Sys2Proof.Machine
end

section
/-! PROOF. Hazards on the bus: who drives the data lines, and the set-up and hold around E (R143, R146, R297 to R299). -/

namespace Sys2Proof.Machine

/-! ### One pulse of E -/

/-- E high for its pulse and then low, with the samples of a read in between, and the hold (R140, R145). -/
def pulse (e : Pin) (ps : List Pin) (bs : List Bool) : List Event :=
  [.put e true, .wait .pulse] ++ List.zipWith Event.get ps bs ++ [.put e false, .wait .hold]

/-- The set-up and the pulse. -/
def strobe (e : Pin) (ps : List Pin) (bs : List Bool) : List Event := .wait .setup :: pulse e ps bs

theorem minDuration_pulse (p : Params) (e : Pin) (ps : List Pin) (bs : List Bool) :
    minDuration p (pulse e ps bs) = p.tPW + p.tH := by
  rw [pulse, minDuration_append, minDuration_append, minDuration_gets]
  simp [minDuration, Params.eventNs, Params.ns]

/-- The events of a strobe: waits, samples, and E. -/
theorem mem_strobe {e : Pin} {ps : List Pin} {bs : List Bool} {ev : Event} (h : ev ∈ strobe e ps bs) :
    (∃ d, ev = .wait d) ∨ (∃ q b, ev = .get q b) ∨ ∃ b, ev = .put e b := by
  simp only [strobe, pulse, List.mem_append, List.mem_cons, List.not_mem_nil, or_false] at h
  rcases h with rfl | ((rfl | rfl) | h) | rfl | rfl
  · exact .inl ⟨_, rfl⟩
  · exact .inr (.inr ⟨_, rfl⟩)
  · exact .inl ⟨_, rfl⟩
  · obtain ⟨i, hi, rfl⟩ := List.getElem_of_mem h
    exact .inr (.inl ⟨_, _, List.getElem_zipWith⟩)
  · exact .inr (.inr ⟨_, rfl⟩)
  · exact .inl ⟨_, rfl⟩

/-- A strobe changes no pin but E. -/
theorem get_strobe {e : Pin} {ps : List Pin} {bs : List Bool} {ev : Event} (h : ev ∈ strobe e ps bs) {q : Pin}
    (hq : q ≠ e) (free : PinState) (pt : Port) : pinGet q (pt.apply free ev).pins = pinGet q pt.pins := by
  rcases mem_strobe h with ⟨d, rfl⟩ | ⟨r, b, rfl⟩ | ⟨b, rfl⟩
  · rfl
  · rfl
  · rw [get_put, if_neg hq]

/-- A write transfer sets RW, the direction and the data lines, then strobes; with RW not wired it settles (R140, R142). -/
theorem writeEvents_eq_strobe (hs : Handle) (x : Byte) :
    writeEvents hs x = (hs.rw.toList.flatMap fun q => [.put q false, .setDirMask hs.mask .out]) ++
      [.putMask hs.mask (spread hs.d (lowBits hs.w x))] ++ strobe hs.e [] [] ++
      (if hs.wired then [] else [.wait .settle]) := by
  unfold writeEvents Handle.wired
  cases hs.rw <;> rfl

/-- A read transfer sets the direction and RW, then strobes (R145). -/
theorem readEvents_eq_strobe (hs : Handle) (q : Pin) (bs : List Bool) :
    readEvents hs q bs = [.setDirMask hs.mask .inp, .put q true] ++ strobe hs.e hs.d bs := by
  simp only [readEvents, strobe, pulse, List.cons_append, List.nil_append]

/-! ### A property of the port all along a list of events -/

/-- `P` holds of the port before the events and after each of them. -/
def AllAlong (P : Port → Prop) (free : PinState) (pt : Port) (evs : List Event) : Prop :=
  ∀ n, P (portAfter free pt (evs.take n))

namespace AllAlong

variable {P Q : Port → Prop} {free : PinState} {pt : Port} {evs : List Event}

theorem nil (h : P pt) : AllAlong P free pt [] := fun n => by rw [List.take_nil]; exact h

theorem cons {ev : Event} (h : P pt) (rest : AllAlong P free (pt.apply free ev) evs) :
    AllAlong P free pt (ev :: evs)
  | 0 => h
  | n + 1 => rest n

theorem append {xs ys : List Event} (hx : AllAlong P free pt xs) (hy : AllAlong P free (portAfter free pt xs) ys) :
    AllAlong P free pt (xs ++ ys) := fun n => by
  rw [List.take_append, portAfter_append]
  rcases le_total n xs.length with h | h
  · rw [Nat.sub_eq_zero_of_le h, List.take_zero]; exact hx n
  · rw [List.take_of_length_le h]; exact hy _

/-- What every one of the events keeps holds all along. -/
theorem of_kept (keeps : ∀ ev ∈ evs, ∀ pu, P pu → P (pu.apply free ev)) (h : P pt) : AllAlong P free pt evs := by
  induction evs generalizing pt with
  | nil => exact nil h
  | cons ev evs ih =>
    exact cons h (ih (fun e he => keeps e (List.mem_cons_of_mem _ he)) (keeps ev List.mem_cons_self _ h))

theorem imp (hPQ : ∀ pu, P pu → Q pu) (h : AllAlong P free pt evs) : AllAlong Q free pt evs := fun n => hPQ _ (h n)

end AllAlong

/-! ### Who drives the data lines -/

section Contention

variable {p : Params} {hs : Handle} {pt : Port}

theorem LinesOk.free_of_contention (ok : LinesOk hs pt) : NoContention hs pt :=
  fun q hq hhigh _ hd => (ok.data _ hd).trans (ok.noContention q hq hhigh)

theorem noContention_of_unwired (hrw : hs.rw = none) (pt : Port) : NoContention hs pt :=
  fun q hq => by rw [hrw] at hq; cases hq

theorem noContention_of_low {q : Pin} (hq : hs.rw = some q) (hlow : pt.level q = .lo) : NoContention hs pt :=
  fun r hr hhigh => by
    rw [hq] at hr
    cases hr
    rw [hlow] at hhigh
    cases hhigh

/-- No data line is an output. -/
def Released (hs : Handle) (pt : Port) : Prop := ∀ q ∈ hs.d, (pinGet q pt.pins).dir = .inp

theorem noContention_of_released (h : Released hs pt) : NoContention hs pt := fun _ _ _ => h

variable (w : hs.Wf p) (ok : LinesOk hs pt) (free : PinState)

include w ok

/-- A write transfer pulls RW low first, and then leaves it (R140). -/
theorem writeEvents_noContention (x : Byte) : AllAlong (NoContention hs) free pt (writeEvents hs x) := by
  cases hrw : hs.rw with
  | none => exact fun n => noContention_of_unwired hrw _
  | some q =>
    obtain ⟨-, hqe, hqd⟩ := w.apart.2.2.2.2 q hrw
    have hlow : (pt.apply free (.put q false)).level q = .lo := level_latch (ok.rwOut q hrw) (by simp [Level.ofBool])
    simp only [writeEvents_eq_strobe, hrw, Handle.wired, Option.toList_some, List.flatMap_singleton, Option.isSome_some,
      if_true, List.append_nil, List.cons_append, List.nil_append]
    refine .cons ok.free_of_contention (.imp (fun _ => noContention_of_low hrw) (.of_kept ?_ hlow))
    intro ev hev pu hpu
    refine (level_of_get ?_).trans hpu
    rcases List.mem_cons.1 hev with rfl | hev
    · simp [w.mask_testBit, hqd]
    · rcases List.mem_cons.1 hev with rfl | hev
      · simp [w.mask_testBit, hqd]
      · exact get_strobe hev hqe free pu

/-- A read transfer releases the data lines first, and then leaves their direction (R145, R146). -/
theorem readEvents_noContention (q : Pin) (bs : List Bool) :
    AllAlong (NoContention hs) free pt (readEvents hs q bs) := by
  obtain ⟨-, -, hed, -, -⟩ := w.apart
  have hreleased : Released hs (pt.apply free (.setDirMask hs.mask .inp)) := fun r hr => by
    simp [w.mask_testBit, hr]
  rw [readEvents_eq_strobe]
  refine .cons ok.free_of_contention (.imp (fun _ => noContention_of_released) (.of_kept ?_ hreleased))
  intro ev hev pu hpu r hr
  rcases List.mem_cons.1 hev with rfl | hev
  · rw [get_put]
    split
    · exact hpu r hr
    · exact hpu r hr
  · rw [get_strobe hev (fun h => hed (h ▸ hr)) free pu]
    exact hpu r hr

/-- Along the events of frames, transfers and waits block and controller never both drive the bus (R146, R299). -/
theorem Drives.noContention {evs : List Event} (d : Drives (some hs) evs) : AllAlong (NoContention hs) free pt evs := by
  induction d generalizing pt with
  | nil => exact .nil ok.free_of_contention
  | wait d => exact .of_kept (by simp) ok.free_of_contention
  | rs hh b => cases hh; exact .cons ok.free_of_contention (.nil (putRs_linesOk w free ok b).1.free_of_contention)
  | write hh x => cases hh; exact writeEvents_noContention w ok free x
  | read hh hq bs => cases hh; exact readEvents_noContention w ok free _ bs
  | append hx hy ihx ihy => exact (ihx ok).append (ihy (hx.linesOk rfl free w ok))

end Contention

/-- Settles O19: an instruction's events are events of the bus. -/
theorem noBusContention : Obligations.NoBusContention := by
  intro s t hs i free hh w ok hx
  obtain ⟨evs, hd, d⟩ := exec_acts i hx
  rw [hh] at hd
  rw [d.trace, List.drop_left]
  exact hd.noContention w ok free

/-! ### Around the rising edge of E -/

/-- Every rising edge of E stands in a whole strobe. -/
def Strobed (e : Pin) (evs : List Event) : Prop :=
  ∀ j, evs[j]? = some (.put e true) → ∃ xs ps bs ys, evs = xs ++ strobe e ps bs ++ ys ∧ j = xs.length + 1

namespace Strobed

variable {e : Pin}

theorem of_no_rise {evs : List Event} (h : .put e true ∉ evs) : Strobed e evs :=
  fun _ hj => absurd (List.mem_of_getElem? hj) h

theorem append {xs ys : List Event} (hx : Strobed e xs) (hy : Strobed e ys) : Strobed e (xs ++ ys) := by
  intro j hj
  rw [List.getElem?_append] at hj
  split at hj
  · obtain ⟨as, ps, bs, cs, rfl, rfl⟩ := hx j hj
    exact ⟨as, ps, bs, cs ++ ys, by simp, rfl⟩
  · obtain ⟨as, ps, bs, cs, rfl, hj'⟩ := hy _ hj
    exact ⟨xs ++ as, ps, bs, cs, by simp, by rw [List.length_append]; omega⟩

theorem strobe (ps : List Pin) (bs : List Bool) : Strobed e (strobe e ps bs) := by
  have hlate : .put e true ∉ .wait .pulse :: (List.zipWith Event.get ps bs ++ [.put e false, .wait .hold]) := by
    have hgets : .put e true ∉ List.zipWith Event.get ps bs := fun h => by
      obtain ⟨i, hi, h⟩ := List.getElem_of_mem h
      rw [List.getElem_zipWith] at h
      cases h
    simp [hgets]
  rintro (_ | _ | j) hj
  · cases hj
  · exact ⟨[], ps, bs, [], by simp, rfl⟩
  · exact absurd (List.mem_of_getElem? (i := j) (by simpa [Machine.strobe, pulse] using hj)) hlate

end Strobed

/-- Every rising edge of a block's frames and transfers stands in a strobe (R140, R145). -/
theorem Drives.strobed {p : Params} {hs : Handle} (w : hs.Wf p) {evs : List Event} (d : Drives (some hs) evs) :
    Strobed hs.e evs := by
  obtain ⟨hre, -, -, -, hq⟩ := w.apart
  have hrw : ∀ {q}, hs.rw = some q → hs.e ≠ q := fun h => (hq _ h).2.1.symm
  induction d with
  | nil => exact .of_no_rise (by simp)
  | wait d => exact .of_no_rise (by simp)
  | rs hh b => cases hh; exact .of_no_rise (by simp [hre.symm])
  | write hh x =>
    cases hh
    rw [writeEvents_eq_strobe]
    refine .append (.append (.append (.of_no_rise ?_) (.of_no_rise ?_)) (.strobe [] [])) (.of_no_rise ?_)
    · simp
    · simp
    · split <;> simp
  | read hh hr bs =>
    cases hh
    rw [readEvents_eq_strobe]
    exact .append (.of_no_rise (by simp [hrw hr])) (.strobe _ _)
  | append _ _ ihx ihy => exact ihx.append ihy

/-! ### Timestamps around the edge -/

section Stamps

variable {p : Params} {t : Nat → ℝ}

/-- Timestamps do not fall. -/
theorem Admits.mono {evs : List Event} (h : Admits p evs t) {i j : Nat} (hij : i ≤ j) (hj : j ≤ evs.length) :
    t i ≤ t j :=
  (le_add_of_nonneg_right (Nat.cast_nonneg _)).trans (waitsAddUp p evs t h i j hij hj)

/-- A part of a trace takes its waits. -/
theorem Admits.span {xs ys zs : List Event} (h : Admits p (xs ++ ys ++ zs) t) :
    t xs.length + (minDuration p ys : ℝ) ≤ t (xs.length + ys.length) := by
  have := waitsAddUp p _ t h xs.length (xs.length + ys.length) (by omega) (by simp)
  rwa [Nat.add_sub_cancel_left, List.append_assoc, List.drop_left, List.take_left] at this

/-- An event that is no part of a strobe is kept away from every rising edge of E: by the set-up before it, by the pulse and
the hold after it. -/
theorem Strobed.apart {e : Pin} {evs : List Event} (h : Strobed e evs) (hadmits : Admits p evs t) {i j : Nat}
    {ev : Event} (hi : evs[i]? = some ev) (hout : ∀ ps bs, ev ∉ Machine.strobe e ps bs)
    (hj : evs[j]? = some (.put e true)) :
    (i < j → t i + (p.tAS : ℝ) ≤ t j) ∧ (j < i → t j + ((p.tPW + p.tH : Nat) : ℝ) ≤ t i) := by
  obtain ⟨xs, ps, bs, ys, rfl, rfl⟩ := h j hj
  have hilen : i < (xs ++ Machine.strobe e ps bs ++ ys).length := (List.getElem?_eq_some_iff.1 hi).1
  refine ⟨fun hlt => ?_, fun hgt => ?_⟩
  · have hsetup : t xs.length + (p.tAS : ℝ) ≤ t (xs.length + 1) :=
      hadmits.2 xs.length (.wait .setup) (by simp [Machine.strobe])
    have hbefore : t i ≤ t xs.length := hadmits.mono (by omega) (by simp)
    exact (add_le_add_left hbefore _).trans hsetup
  · have hafter : xs.length + (Machine.strobe e ps bs).length ≤ i := by
      by_contra hinside
      rw [List.append_assoc, List.getElem?_append_right (by omega), List.getElem?_append_left (by omega)] at hi
      exact hout ps bs (List.mem_of_getElem? hi)
    have hsplit : xs ++ Machine.strobe e ps bs ++ ys = xs ++ [.wait .setup] ++ pulse e ps bs ++ ys := by
      simp [Machine.strobe]
    have hpulse := (hsplit ▸ hadmits).span
    rw [minDuration_pulse, List.length_append, List.length_singleton] at hpulse
    refine hpulse.trans (hadmits.mono ?_ hilen.le)
    simpa [Machine.strobe, Nat.add_assoc, Nat.add_comm 1] using hafter

end Stamps

/-- Settles O21: what moves a line is no part of a strobe. -/
theorem setupAndHold : Obligations.SetupAndHold := by
  intro p hs pieces t w evs moves hadmits i j ev hi hmoves hj
  obtain ⟨hre, -, -, -, hq⟩ := w.apart
  refine ((Drives.pieces hs pieces).strobed w).apart hadmits hi (fun ps bs h => ?_) hj
  rcases hmoves with ⟨b, rfl⟩ | ⟨q, b, hrw, rfl⟩ | ⟨v, rfl⟩ | ⟨d, rfl⟩
  · simpa [hre] using mem_strobe h
  · simpa [(hq q hrw).2.1] using mem_strobe h
  · simpa using mem_strobe h
  · simpa using mem_strobe h

end Sys2Proof.Machine
end

section
/-! PROOF. The channel's frames, and the requests that use each of them once (R160 to R168, R210 to R213, R243, R244). -/

namespace Sys2Proof.Machine

/-! ### The transfers of a byte -/

/-- The high nibble as a quotient (R161). -/
theorem ushiftRight_four_eq_div (x : Byte) : x >>> 4 = BitVec.ofNat 8 (x.toNat / 16) := by
  refine BitVec.eq_of_toNat_eq ?_
  rw [BitVec.toNat_ushiftRight, Nat.shiftRight_eq_div_pow, BitVec.toNat_ofNat]
  omega

/-- Settles O11: the shift and the mask of `byteEvents` are the quotient and the remainder by 16. -/
theorem highNibbleFirst : Obligations.HighNibbleFirst := by
  intro hs rs x
  have hlow : x &&& 0xF = BitVec.ofNat 8 (x.toNat % 16) := lowBits_eq_mod .four x
  rw [← hlow, ← ushiftRight_four_eq_div]
  rfl

/-! ### Read frames -/

theorem readFrame_unwired {s : State} {hs : Handle} (hh : s.h = some hs) (hrw : hs.rw = none) (rs : Bool) :
    readFrame rs s = .next (completedRead hs 0xFF (emitAll [.put hs.rs rs] s)) := by
  rw [readFrame_some hh, readWith_unwired hrw]; rfl

/-- With RW not wired a read instruction drives RS, takes the sentinel and changes nothing else (R166 to R168, R264). -/
theorem exec_read_unwired {s : State} {hs : Handle} (hh : s.h = some hs) (hrw : hs.rw = none) {i : Instr} {rs : Bool}
    (hi : shapeOf i = .read rs) :
    ∃ t, exec i s = .next t ∧ t.trace = s.trace ++ [.put hs.rs rs] ∧ t.lastRead = 0xFF ∧
      t.outcome = .readUnsupported ∧ SameSetup s t ∧ t.oracle = s.oracle ∧ t.drawn = s.drawn ∧ t.clock = s.clock ∧
      t.port.owned = s.port.owned ∧ t.port.busDir = s.port.busDir := by
  refine ⟨completedRead hs 0xFF (emitAll [.put hs.rs rs] s), ?_, rfl, rfl, ?_,
    ⟨rfl, rfl, rfl, rfl, rfl, rfl, rfl, rfl⟩, rfl, rfl, rfl, rfl, rfl⟩
  · rw [exec_eq_shape, hi, Shape.run, readFrame_unwired hh hrw]
  · simp [Handle.wired, hrw]

/-- Settles O14: both reads are read frames. -/
theorem readFramesUnwired : Obligations.ReadFramesUnwired := by
  intro s hs hh hrw
  exact ⟨fun bf ac => exec_read_unwired hh hrw rfl, fun d => exec_read_unwired hh hrw rfl⟩

/-! ### Requests that send one frame -/

/-- A request whose sequence is one write frame sends it, after its poll, and leaves the handle as it is (R160, R162). -/
theorem oneFrame_ended {s : State} {hs : Handle} {req : Request} {rs : Bool} {x : Byte} (hp : Presented req s)
    (hh : s.h = some hs) (hd : hs.d.length = hs.w.bits) (hq : Quiet hs 1 s) (hnew : req.newHandle = none)
    (hwidth : req.width = none) (hprog : program hs req = [.code (.frame (frameCode rs false x))]) :
    ∃ n t, steps n s = .next t ∧ Ended s t (sentEvents hs rs x) ∧ t.h = some hs ∧ t.result = .nothing ∧
      t.outcome = .normal := by
  have run := (passes_frame (r := regsAtStart hs s notBusy) (as := []) (fun _ => rfl) rs x).run
  obtain ⟨n, t, hsteps, ended, k⟩ := request_ended hp hh hd hnew hwidth hq (hprog ▸ run)
  exact ⟨n, t, hsteps, ended, k.h, k.result, k.outcome⟩

/-- Settles O33: the sequence of each is one write frame, whose byte is the rule's. -/
theorem singleFrameRequests : Obligations.SingleFrameRequests := by
  intro s hs hh hd hq
  exact ⟨fun x hp => oneFrame_ended hp hh hd hq rfl rfl rfl,
    fun x hp => oneFrame_ended hp hh hd hq rfl rfl rfl,
    fun c hp => oneFrame_ended hp hh hd hq rfl rfl rfl,
    fun col row hp => oneFrame_ended hp hh hd hq rfl rfl rfl,
    fun hp => oneFrame_ended hp hh hd hq rfl rfl rfl,
    fun hp => oneFrame_ended hp hh hd hq rfl rfl rfl⟩

/-! ### Requests that read -/

theorem Emitted.trans {s t u : State} {xs ys : List Event} (a : Emitted s t xs) (b : Emitted t u ys) :
    Emitted s u (xs ++ ys) :=
  ⟨by rw [b.trace, a.trace, List.append_assoc], b.todo.trans a.todo, b.reqPort.trans a.reqPort,
    b.script.trans a.script, b.params.trans a.params, b.foreign.trans a.foreign⟩

/-- The registers after a read frame to which the oracle answers `bs`, with `as` still to come (R166 to R168). -/
def Regs.read (r : Regs) (bs as : List Bool) : Regs :=
  { r with
    answers := as
    lastRead := if r.hs.rw = none then 0xFF else answeredByte r.hs.w bs
    outcome := if r.hs.rw = none then .readUnsupported else .normal }

section Items

variable {r : Regs} {bs as : List Bool}

/-- A read frame, wired or not, brings back its byte (R165 to R168). -/
theorem readFrame_holds (hl : bs.length = 8) (ha : r.hs.wired = true → r.answers = bs ++ as) (rs : Bool) {s : State}
    (k : Holds r s) :
    ∃ u, readFrame rs s = .next u ∧ Holds (r.read bs as) u ∧ Emitted s u (readFrameEvents r.hs rs bs) := by
  cases hrw : r.hs.rw with
  | none =>
    have hw : r.hs.wired = false := by simp [Handle.wired, hrw]
    have hevs : readFrameEvents r.hs rs bs = [.put r.hs.rs rs] := by rw [readFrameEvents, hrw]
    have k' := k.emitAll [.put r.hs.rs rs]
    have e := (Emitted.refl s).emitAll [.put r.hs.rs rs]
    rw [hevs]
    refine ⟨_, readFrame_unwired k.h hrw rs, ?_, ⟨e.trace, e.todo, e.reqPort, e.script, e.params, e.foreign⟩⟩
    exact ⟨k'.h, k.width, k'.addr, (if_pos hrw).symm, k'.result, by simp [Regs.read, hw, hrw],
      fun h => absurd h (by simp [Regs.read, hw])⟩
  | some q =>
    have hw : r.hs.wired = true := by simp [Handle.wired, hrw]
    obtain ⟨rest, ho⟩ := k.answers hw
    obtain ⟨bs', -, hback, htrace, hsetup, -, -, -, -, -, hanswers⟩ := readWith_spec hrw k.width rs s
    obtain ⟨rfl, hrest⟩ := hanswers bs (as ++ rest) (by rw [ho, ha hw, List.append_assoc]) hl
    refine ⟨_, readFrame_some k.h rs, ?_, ⟨htrace, hsetup.todo, hsetup.reqPort, hsetup.script, hsetup.params,
      hsetup.foreign⟩⟩
    exact ⟨hsetup.h.trans k.h, k.width, hsetup.addr.trans k.addr, by simp [Regs.read, hrw, hback],
      hsetup.result.trans k.result, by simp [Regs.read, hrw, hw], fun _ => ⟨rest, hrest⟩⟩

/-- A status read does not poll (R165). -/
theorem runItem_readStatus (s : State) :
    runItem (.code (.frame (frameCode false true 0))) s = andThen (readFrame false s) fun t => .next (retire t) := rfl

/-- A data read polls first (R168). -/
theorem runItem_readData (s : State) :
    runItem (.code (.frame (frameCode true true 0))) s = gated (readFrame true) s := rfl

theorem passes_statusFrame (hl : bs.length = 8) (ha : r.hs.wired = true → r.answers = bs ++ as) :
    Passes r (.code (.frame (frameCode false true 0))) (readFrameEvents r.hs false bs) (r.read bs as) := fun s k => by
  obtain ⟨u, hread, ku, e⟩ := readFrame_holds hl ha false k
  exact ⟨u, by rw [runItem_readStatus, hread, andThen_next], ku, e⟩

theorem passes_dataFrame (hl : bs.length = 8) (ha : r.hs.wired = true → r.answers = notBusy ++ (bs ++ as)) :
    Passes r (.code (.frame (frameCode true true 0)))
      ((if r.hs.wired then readFrameEvents r.hs false notBusy else []) ++ readFrameEvents r.hs true bs)
      (r.read bs as) := fun s k => by
  obtain ⟨u, hgate, ku, e⟩ := gated_quiet ha k (readFrame true)
  obtain ⟨v, hread, kv, e'⟩ := readFrame_holds (r := { r with answers := bs ++ as }) hl (fun _ => rfl) true ku
  exact ⟨v, by rw [runItem_readData, hgate, hread, andThen_next], kv, e.trans e'⟩

/-- The registers once the byte read is the request's result (R120). -/
def Regs.returned (r : Regs) : Regs := { r with result := .value r.lastRead }

theorem passes_returnRead : Passes r .returnRead [] r.returned := fun s k =>
  ⟨{ s with result := .value s.lastRead }, rfl,
    ⟨k.h, k.width, k.addr, k.lastRead, congrArg Result.value k.lastRead, k.outcome, k.answers⟩,
    ⟨by simp, rfl, rfl, rfl, rfl, rfl⟩⟩

/-- readCommand: the poll, then a status read of its own (R167). -/
theorem runs_readCommand (hl : bs.length = 8) (ha : r.hs.wired = true → r.answers = notBusy ++ (bs ++ as)) :
    Runs r reqReadCommand
      ((if r.hs.wired then readFrameEvents r.hs false notBusy else []) ++ readFrameEvents r.hs false bs)
      (r.read bs as).returned := by
  have status := passes_statusFrame (r := { r with answers := bs ++ as, outcome := .normal }) hl fun _ => rfl
  have run := ((passes_poll ha).run.append status.run).append passes_returnRead.run
  rw [List.append_nil] at run
  exact run

/-- readData: the poll and the data read are one item (R168). -/
theorem runs_readData (hl : bs.length = 8) (ha : r.hs.wired = true → r.answers = notBusy ++ (bs ++ as)) :
    Runs r reqReadData
      ((if r.hs.wired then readFrameEvents r.hs false notBusy else []) ++ readFrameEvents r.hs true bs)
      (r.read bs as).returned := by
  have run := (passes_dataFrame hl ha).run.append passes_returnRead.run
  rw [List.append_nil] at run
  exact run

end Items

/-- Settles O38: each request runs its sequence with the poll's answers and then the byte's lined up. -/
theorem readRequests : Obligations.ReadRequests := by
  intro s hs as rest hh hd hl ho poll answer how
  have hpoll : (if hs.wired then readFrameEvents hs false notBusy else []) = poll := by
    cases hrw : hs.rw <;> simp [poll, Handle.wired, hrw, notBusy]
  have horacle : hs.wired = true → ∃ more, s.oracle = (notBusy ++ (as ++ rest)) ++ more := fun hw =>
    ⟨[], by rw [ho (fun h => by simp [Handle.wired, h] at hw)]; simp [notBusy]⟩
  refine ⟨fun hp => ?_, fun hp => ?_, fun hp => ?_⟩
  · obtain ⟨n, t, hsteps, ended, k⟩ := request_ended hp hh hd rfl rfl horacle (passes_poll fun _ => rfl).run
    exact ⟨n, t, hsteps, hpoll ▸ ended, k.h, k.result, k.outcome⟩
  · obtain ⟨n, t, hsteps, ended, k⟩ := request_ended hp hh hd rfl rfl horacle (runs_readCommand hl fun _ => rfl)
    exact ⟨n, t, hsteps, hpoll ▸ ended, k.h, k.result, k.outcome⟩
  · obtain ⟨n, t, hsteps, ended, k⟩ := request_ended hp hh hd rfl rfl horacle (runs_readData hl fun _ => rfl)
    exact ⟨n, t, hsteps, hpoll ▸ ended, k.h, k.result, k.outcome⟩

end Sys2Proof.Machine
end

section
/-! PROOF. The whole init sequence, event by event (R180 to R193). -/

namespace Sys2Proof.Machine

/-- The extra wait by the pin itself (R245). -/
theorem longEvents_eq (hs : Handle) : longEvents hs = if hs.rw = none then [.wait .long] else [] := by
  unfold longEvents
  cases hrw : hs.rw <;> simp [Handle.wired, hrw]

/-- Settles O43: `initEvents` is the rule's list on either width and either discipline. -/
theorem initSequence : Obligations.InitSequence := by
  intro s req hs hp ha long fs line raw
  obtain ⟨n, t, hsteps, ended, k⟩ := init_ended hp ha
  refine ⟨n, t, hsteps, ?_, k.h, k.result, k.outcome⟩
  have hlines : lineEvents hs = line hs.rs ++ line hs.e ++ (match hs.rw with | some q => line q | none => []) ++
      [.initMask hs.mask, .setDirMask hs.mask .out, .putMask hs.mask 0] := by
    unfold lineEvents
    cases hs.rw <;> rfl
  have hshake : handshakeEvents hs = (match hs.w with
      | .eight => raw fs ++ raw fs ++ raw fs
      | .four => raw 0x3 ++ raw 0x3 ++ raw 0x3 ++ raw 0x2) := by
    unfold handshakeEvents
    cases hs.w <;> simp [raw, fs, functionSetByte, Config.opFunctionSet]
  rw [initEvents, longEvents_eq, hlines, hshake] at ended
  exact ended

end Sys2Proof.Machine
end

section
/-! PROOF. The port is what the events of the trace have made of it (R16, R70); the port after init (R193, R291). -/

namespace Sys2Proof.Machine

/-! ### The port along a run -/

/-- From `s` to `t` the trace grew by events that made the port what it is, unless a pin was released among them: the
state of a released pin is free (R197). -/
def PortFollows (s t : State) : Prop :=
  ∃ evs, t.trace = s.trace ++ evs ∧
    ((∀ ev ∈ evs, ev.isRelease = false) → ∀ free, t.port = portAfter free s.port evs)

namespace PortFollows

theorem of_unchanged {s t : State} (htrace : t.trace = s.trace) (hport : t.port = s.port) : PortFollows s t :=
  ⟨[], by rw [htrace, List.append_nil], fun _ _ => hport⟩

theorem trans {s t u : State} (a : PortFollows s t) (b : PortFollows t u) : PortFollows s u := by
  obtain ⟨xs, hx, px⟩ := a
  obtain ⟨ys, hy, py⟩ := b
  refine ⟨xs ++ ys, by rw [hy, hx, List.append_assoc], fun hr free => ?_⟩
  rw [List.forall_mem_append] at hr
  rw [py hr.2 free, px hr.1 free, portAfter_append]

theorem retire {s t : State} (a : PortFollows s t) : PortFollows s (retire t) := a

/-- Events that release nothing fix the port. -/
theorem port_eq {s t : State} {evs : List Event} (a : PortFollows s t) (htrace : t.trace = s.trace ++ evs)
    (hr : ∀ ev ∈ evs, ev.isRelease = false) (free : PinState) : t.port = portAfter free s.port evs := by
  obtain ⟨xs, hx, px⟩ := a
  obtain rfl : xs = evs := List.append_cancel_left (hx.symm.trans htrace)
  exact px hr free

end PortFollows

theorem OnBus.portFollows {s t : State} (a : OnBus s t) : PortFollows s t := by
  obtain ⟨evs, -, d⟩ := a
  exact ⟨evs, d.trace, fun _ => d.port⟩

theorem emitAll_portFollows (evs : List Event) (s : State) : PortFollows s (emitAll evs s) :=
  ⟨evs, emitAll_trace evs s, fun hr free => emitAll_port hr free s⟩

/-- The releases are releases: they say nothing of the port. -/
theorem releaseAll_portFollows (hs : Handle) (s : State) : PortFollows s (releaseAll hs s) := by
  refine ⟨hs.pins.map Event.release, emitAll_trace .., fun hr => ?_⟩
  have hrs : Event.isRelease (.release hs.rs) = false := hr _ (by simp [Handle.pins])
  cases hrs

theorem ItemRan.portFollows {it : Item} {s t : State} (ran : ItemRan it s t) : PortFollows s t := by
  cases ran with
  | bus hu ht => subst ht; exact hu.portFollows.retire
  | polled hh _ ht => subst ht; exact (pollOnce_onBus hh).portFollows
  | noted a r ht => subst ht; exact .of_unchanged rfl rfl
  | configured hh ht => subst ht; exact (emitAll_portFollows _ s).retire
  | control hh v _ ht | mode hh v _ ht => subst ht; exact .of_unchanged rfl rfl
  | released hh _ ht => subst ht; exact (releaseAll_portFollows _ s).retire

theorem step_portFollows {s t : State} (h : step s = .next t) : PortFollows s t := by
  cases step_stepped h with
  | item _ ran => exact ran.portFollows
  | request _ _ acc =>
    obtain ⟨htrace, -, -, -, hport⟩ := acc.quiet
    exact .of_unchanged htrace hport
  | idle _ ht => exact ht ▸ .of_unchanged rfl rfl

theorem steps_portFollows {n : Nat} {s t : State} (h : steps n s = .next t) : PortFollows s t := by
  induction n generalizing s with
  | zero => cases h; exact .of_unchanged rfl rfl
  | succ n ih =>
    rw [steps_succ, andThen_eq_next] at h
    obtain ⟨u, hstep, hsteps⟩ := h
    exact (step_portFollows hstep).trans (ih hsteps)

/-! ### What init's events are on the bus -/

theorem Drives.not_release {h : Option Handle} {evs : List Event} (d : Drives h evs) :
    ∀ ev ∈ evs, ev.isRelease = false := by
  induction d with
  | nil => simp
  | wait d | rs hh b => simp [Event.isRelease]
  | write hh x => exact writeEvents_not_release _ x
  | @read hs q hh hq bs =>
    rw [readEvents_eq_strobe]
    refine List.forall_mem_append.2 ⟨by simp [Event.isRelease], fun ev hev => ?_⟩
    rcases mem_strobe hev with ⟨_, rfl⟩ | ⟨_, _, rfl⟩ | ⟨_, rfl⟩ <;> rfl
  | append hx hy ihx ihy => exact List.forall_mem_append.2 ⟨ihx, ihy⟩

theorem sentEvents_drives (hs : Handle) (rs : Bool) (x : Byte) : Drives (some hs) (sentEvents hs rs x) := by
  refine .append ?_ (.frame rfl rs x)
  split
  · exact .readFrame rfl false notBusy
  · exact .nil

theorem longEvents_drives (hs : Handle) : Drives (some hs) (longEvents hs) := by
  unfold longEvents
  split
  · exact .nil
  · exact .wait .long

theorem handshakeEvents_drives (hs : Handle) : Drives (some hs) (handshakeEvents hs) := by
  have raw : ∀ x, Drives (some hs) (writeEvents hs x ++ [.wait .initGap]) := fun x =>
    (Drives.write rfl x).append (.wait _)
  unfold handshakeEvents
  cases hs.w with
  | eight => exact (raw _).append ((raw _).append ((raw _).append .nil))
  | four => exact (raw _).append ((raw _).append ((raw _).append ((raw _).append .nil)))

/-- The events between step (b) and the last command of init (R185 to R191). -/
def initMiddle (hs : Handle) : List Event :=
  handshakeEvents hs ++ sentEvents hs false (functionSetByte hs) ++
    sentEvents hs false (displayControlByte displayControlInit) ++
    sentEvents hs false (entryModeByte displayModeInit) ++ (sentEvents hs false Config.opClear ++ longEvents hs)

theorem initMiddle_drives (hs : Handle) : Drives (some hs) (initMiddle hs) :=
  ((((handshakeEvents_drives hs).append (sentEvents_drives hs _ _)).append (sentEvents_drives hs _ _)).append
    (sentEvents_drives hs _ _)).append ((sentEvents_drives hs _ _).append (longEvents_drives hs))

/-- Everything after step (b) is events of the bus. -/
theorem initTail_drives (hs : Handle) :
    Drives (some hs) (initMiddle hs ++ (sentEvents hs false Config.opHome ++ longEvents hs)) :=
  (initMiddle_drives hs).append ((sentEvents_drives hs false _).append (longEvents_drives hs))

theorem initEvents_eq (hs : Handle) : initEvents hs = [.wait .power] ++
    (lineEvents hs ++ (initMiddle hs ++ (sentEvents hs false Config.opHome ++ longEvents hs))) := by
  simp only [initEvents, initMiddle, List.append_assoc]

theorem initEvents_not_release (hs : Handle) : ∀ ev ∈ initEvents hs, ev.isRelease = false := by
  rw [initEvents_eq]
  exact List.forall_mem_append.2
    ⟨(Drives.wait (h := none) .power).not_release,
      List.forall_mem_append.2 ⟨lineEvents_not_release hs, (initTail_drives hs).not_release⟩⟩

/-! ### The lines after a frame -/

/-- The lines as a write frame of `x` leaves them (R51, R52, R81, R163). -/
structure Wrote (hs : Handle) (rs : Bool) (x : Byte) (pt : Port) : Prop where
  ok : LinesOk hs pt
  rs : pt.level hs.rs = Level.ofBool rs
  rw : ∀ q, hs.rw = some q → pt.level q = .lo
  bus : pt.busDir = .out
  data : ∀ i q, hs.d[i]? = some q → pt.level q = Level.ofBool (x.getLsbD i)

section Lines

variable {p : Params} {hs : Handle} (w : hs.Wf p) (free : PinState) {pt : Port} (ok : LinesOk hs pt)

include w ok

/-- The last transfer of a frame puts bit `i` of its byte on data line `i`, of the low nibble where W = 4 (R161). -/
theorem frameEvents_level_data (rs : Bool) (x : Byte) {i : Nat} {q : Pin} (hq : hs.d[i]? = some q) :
    (portAfter free pt (frameEvents hs rs x)).level q = Level.ofBool (x.getLsbD i) := by
  have ok1 := (putRs_linesOk w free ok rs).1
  have hi : i < hs.w.bits := w.width ▸ (List.getElem?_eq_some_iff.1 hq).1
  rw [frameEvents, portAfter_cons, byteEvents]
  cases hw : hs.w with
  | eight => exact writeEvents_level_data w free ok1 x hq
  | four =>
    have ok2 := (writeEvents_linesOk w free ok1 (x >>> 4)).1
    have hlow : (x &&& 0xF).getLsbD i = x.getLsbD i := by
      rw [show x &&& 0xF = lowBits .four x from rfl, lowBits_getLsbD, ← hw, decide_eq_true hi, Bool.true_and]
    dsimp only
    rw [portAfter_append, writeEvents_level_data w free ok2 _ hq, hlow]

theorem sentEvents_wrote (rs : Bool) (x : Byte) : Wrote hs rs x (portAfter free pt (sentEvents hs rs x)) := by
  have okPoll : LinesOk hs (portAfter free pt (if hs.wired then readFrameEvents hs false notBusy else [])) := by
    split
    · exact (readFrameEvents_linesOk w free ok false notBusy).1
    · exact ok
  obtain ⟨okFrame, hrs, hrw, -⟩ := frameEvents_linesOk w free okPoll rs x
  rw [sentEvents, portAfter_append]
  exact ⟨okFrame, hrs, hrw, (frameEvents_bus free rs x _).1.trans (busDir_after_write okPoll),
    fun _ _ hq => frameEvents_level_data w free okPoll rs x hq⟩

end Lines

/-! ### The port after init -/

theorem longEvents_port (hs : Handle) (free : PinState) (pt : Port) : portAfter free pt (longEvents hs) = pt := by
  unfold longEvents
  split <;> rfl

/-- Return Home has bit 1 alone (R105). -/
theorem opHome_getLsbD (i : Nat) : Config.opHome.getLsbD i = decide (i = 1) := by
  rw [show Config.opHome = BitVec.twoPow 8 1 by decide, BitVec.getLsbD_twoPow]
  simp [eq_comm]

section Init

variable {p : Params} {hs : Handle} (w : hs.Wf p) (free : PinState) (pt : Port)

include w

/-- Home is the last command of init, and it finds the lines configured. -/
theorem initEvents_wrote : Wrote hs false Config.opHome (portAfter free pt (initEvents hs)) := by
  rw [initEvents_eq, portAfter_append, portAfter_append, portAfter_append, portAfter_append, longEvents_port]
  exact sentEvents_wrote w free ((initMiddle_drives hs).linesOk rfl free w (lineEvents_linesOk w free _)) false _

theorem initEvents_owned {q : Pin} (hq : q ∈ hs.pins) : q ∈ (portAfter free pt (initEvents hs)).owned := by
  rw [initEvents_eq, portAfter_append, portAfter_append, (initTail_drives hs).owned rfl, lineEvents_owned w]
  exact .inl hq

theorem initEvents_level_outside {q : Pin} (hq : q ∉ hs.pins) :
    (portAfter free pt (initEvents hs)).level q = pt.level q := by
  refine level_of_get ?_
  rw [initEvents_eq, portAfter_append, portAfter_append, (initTail_drives hs).get_outside rfl free w hq,
    lineEvents_get_outside w hq]
  rfl

end Init

/-- Settles O44: the port is that of init's events, whose last frame is Return Home. -/
theorem portAfterInit : Obligations.PortAfterInit := by
  intro s req hs hp ha
  obtain ⟨n, t, hsteps, ended, k⟩ := init_ended hp ha
  have w := newHandle_wf hp.asks hp.refusal_none
  have hport := (steps_portFollows hsteps).port_eq ended.trace (initEvents_not_release hs) PinState.undriven
  have lines := initEvents_wrote w PinState.undriven s.port
  refine ⟨n, t, hsteps, ended.phase, ended.todo, k.result, ?_⟩
  rw [hport]
  refine ⟨fun q hq => initEvents_owned w _ _ hq, lines.bus, lines.ok.eLow, lines.rs, lines.rw, fun i q hq => ?_,
    fun q hq => initEvents_level_outside w _ _ hq⟩
  rw [lines.data i q hq, opHome_getLsbD]
  by_cases hi : i = 1 <;> simp [hi, Level.ofBool]

end Sys2Proof.Machine
end

section
/-! PROOF. deinit (R195 to R198, R292). -/

namespace Sys2Proof.Machine

/-- A run of the items at the head of a sequence comes to the rest of it. -/
theorem Runs.reaches {r r' : Regs} {items : List Item} {evs : List Event} (run : Runs r items evs r') {s : State}
    (k : Holds r s) {rest : List Item} (htodo : s.todo = items ++ rest) (hport : s.reqPort = none) :
    ∃ n t, steps n s = .next t ∧ Emitted { s with todo := rest } t evs ∧ Holds r' t := by
  induction run generalizing s with
  | nil => exact ⟨0, s, rfl, ⟨by simp, htodo, rfl, rfl, rfl, rfl⟩, k⟩
  | @cons r r' r'' it items xs ys head _ ih =>
    obtain ⟨u, hrun, ku, e⟩ := head s k
    have hstep : step s = .next (retire u) := by rw [step_item htodo (by simp [NoOverlap, hport]), hrun]
    have htail : (retire u).todo = items ++ rest := by rw [retire_todo, e.todo, htodo]; rfl
    obtain ⟨n, t, hsteps, e', kt⟩ := ih (s := retire u)
      ⟨ku.h, ku.width, ku.addr, ku.lastRead, ku.result, ku.outcome, ku.answers⟩ htail (e.reqPort.trans hport)
    have first : Emitted { s with todo := rest } { retire u with todo := rest } xs :=
      ⟨e.trace, rfl, e.reqPort, e.script, e.params, e.foreign⟩
    exact ⟨n + 1, t, (steps_succ_of hstep).trans hsteps, first.trans e', kt⟩

/-- A request on a handle begins (R56). -/
theorem step_begun {s : State} {hs : Handle} {req : Request} (hp : Presented req s) (hh : s.h = some hs)
    (hnew : req.newHandle = none) (hwidth : req.width = none) : step s = .next (begun req hs s) := by
  obtain ⟨hphase, htodo, hport⟩ := hp
  rw [step_request hphase htodo hport, accept, refusalOf, hnew]
  simp only [widthRefusal, hwidth, hh, begun]

/-- The releases, as the last item of a sequence, end it with no handle and no owned pin (R195, R197, R198). -/
theorem step_releaseLines {s : State} {hs : Handle} (hh : s.h = some hs) (htodo : s.todo = [.releaseLines])
    (hport : s.reqPort = none) :
    ∃ t, step s = .next t ∧ Ended s t (hs.pins.map Event.release) ∧ t.h = none ∧ t.port.owned = [] ∧
      t.result = s.result ∧ t.outcome = s.outcome := by
  refine ⟨retire (releaseAll hs s), ?_, ?_, rfl, rfl, ?_, ?_⟩
  · rw [step_item htodo (by simp [NoOverlap, hport]), runItem, onHandle, hh]
  · constructor <;> simp [releaseAll, htodo, hport]
  · simp [releaseAll]
  · simp [releaseAll]

/-- The commands of deinit, for which three answers are taken (R195, R196). -/
theorem runs_deinit_commands (r : Regs) :
    Runs (r.sent 3) (reqClear r.hs ++ reqHome r.hs ++ reqDisplayOff r.hs)
      ((sentEvents r.hs false Config.opClear ++ longEvents r.hs) ++
        (sentEvents r.hs false Config.opHome ++ longEvents r.hs) ++
        sentEvents r.hs false (displayControlByte (clearBits r.hs.displayControl Config.bitD)))
      (Regs.sent { r with hs := { r.hs with displayControl := clearBits r.hs.displayControl Config.bitD } } 0) :=
  (runs_clear_home r 1).append (runs_seqControl r 0 _)

/-- Settles O45: the three commands run with their answers lined up, then the releases. -/
theorem deinitSequence : Obligations.DeinitSequence := by
  intro s hs hh hd hq hp long
  have hstart := step_begun hp hh rfl rfl
  obtain ⟨n, u, hsteps, e, k⟩ := (runs_deinit_commands (regsAtStart hs s [])).reaches (s := begun .deinit hs s)
    (rest := [.releaseLines]) ⟨hh, hd, rfl, rfl, rfl, rfl, hq⟩ rfl rfl
  obtain ⟨t, hrelease, ended, hnone, howned, hresult, houtcome⟩ := step_releaseLines k.h e.todo e.reqPort
  refine ⟨n + 1 + 1, t, ?_, ⟨?_, ended.phase, ended.todo, ended.reqPort, ended.script.trans e.script,
    ended.params.trans e.params, ended.foreign.trans e.foreign⟩, hnone, howned, hresult.trans k.result,
    houtcome.trans k.outcome⟩
  · rw [steps_succ_of hstart, steps_add hsteps]
    exact steps_succ_of hrelease
  · rw [ended.trace, e.trace, longEvents_eq, List.append_assoc]
    rfl

end Sys2Proof.Machine
end

section
/-! PROOF. Text requests (R214, R218, R219). -/

namespace Sys2Proof.Machine

/-- A request whose sequence only sends frames, with answers enough lined up, ends with the handle as it was (R220). -/
theorem frames_ended {s : State} {hs : Handle} {req : Request} {evs : List Event} {k l : Nat} (hp : Presented req s)
    (hh : s.h = some hs) (hd : hs.d.length = hs.w.bits) (hq : Quiet hs k s) (hnew : req.newHandle = none)
    (hwidth : req.width = none)
    (run : Runs ((regsAtStart hs s []).sent k) (program hs req) evs ((regsAtStart hs s []).sent l)) :
    ∃ n t, steps n s = .next t ∧ Ended s t evs ∧ t.h = some hs ∧ t.result = .nothing ∧ t.outcome = .normal := by
  obtain ⟨n, t, hsteps, ended, held⟩ := request_ended hp hh hd hnew hwidth hq run
  exact ⟨n, t, hsteps, ended, held.h, held.result, held.outcome⟩

theorem runs_sendData (r : Regs) (n : Nat) (x : Byte) :
    Runs (r.sent (n + 1)) (reqSendData x) (sentEvents r.hs true x) (r.sent n) := (passes_sent r n true x).run

/-- A string takes one answer for each byte, and none when empty (R214). -/
theorem runs_writeString (r : Regs) (n : Nat) (str : List Byte) :
    Runs (r.sent (str.length + n)) (reqWriteString str) (str.flatMap (sentEvents r.hs true)) (r.sent n) := by
  have run := runs_flatMap (fun x n => runs_sendData r n x) str n
  rw [Nat.one_mul, Nat.add_comm] at run
  exact run

/-- The cursor command takes one answer (R210 to R212). -/
theorem runs_setCursor (r : Regs) (n : Nat) (col row : Byte) :
    Runs (r.sent (n + 1)) (reqSetCursor r.hs col row)
      (sentEvents r.hs false (Config.opSetDdram ||| ddramAddress r.hs col row)) (r.sent n) :=
  runs_sendCommand r n _

/-- Settles O36: the cursor command and the data frames put together, the answers left over standing in the oracle. -/
theorem textRequests : Obligations.TextRequests := by
  intro s hs str c col row hh hd hq cursor emits
  have cursorSent := fun n => runs_setCursor (regsAtStart hs s []) n col row
  have string := runs_writeString (regsAtStart hs s [])
  have charAt := (cursorSent (str.length + 1)).append (runs_sendData _ str.length c)
  have stringAt := (cursorSent (str.length + 1)).append (string 1 str)
  exact ⟨fun hp => frames_ended hp hh hd hq rfl rfl (string 2 str),
    fun hp => frames_ended hp hh hd hq rfl rfl charAt,
    fun hp => frames_ended hp hh hd hq rfl rfl stringAt⟩

end Sys2Proof.Machine
end

section
/-! PROOF. Toggles, clear and home (R230 to R242, R245), and the command after clear or home with RW not wired (R245,
log 37). -/

namespace Sys2Proof.Machine

/-! ### The requests -/

/-- A toggle runs its sequence with one answer lined up, and may leave another flag byte in the handle (R230). -/
theorem toggle_ended {s : State} {hs hs' : Handle} {req : Request} {evs : List Event} (hh : s.h = some hs)
    (hd : hs.d.length = hs.w.bits) (hq : Quiet hs 1 s) (hnew : req.newHandle = none) (hwidth : req.width = none)
    (run : Runs ((regsAtStart hs s []).sent 1) (program hs req) evs
      (Regs.sent { regsAtStart hs s [] with hs := hs' } 0)) (hp : Presented req s) :
    ∃ n t, steps n s = .next t ∧ Ended s t evs ∧ t.h = some hs' ∧ t.result = .nothing ∧ t.outcome = .normal := by
  obtain ⟨n, t, hsteps, ended, held⟩ := request_ended hp hh hd hnew hwidth hq run
  exact ⟨n, t, hsteps, ended, held.h, held.result, held.outcome⟩

/-- Settles O34: each toggle's sequence is its new flag byte and then the whole byte's command. -/
theorem togglesSendWholeByte : Obligations.TogglesSendWholeByte := by
  intro s hs hh hd hq control mode
  have controlRun := runs_seqControl (regsAtStart hs s []) 0
  have modeRun := runs_seqMode (regsAtStart hs s []) 0
  exact ⟨toggle_ended hh hd hq rfl rfl (controlRun _), toggle_ended hh hd hq rfl rfl (controlRun _),
    toggle_ended hh hd hq rfl rfl (controlRun _), toggle_ended hh hd hq rfl rfl (controlRun _),
    toggle_ended hh hd hq rfl rfl (controlRun _), toggle_ended hh hd hq rfl rfl (controlRun _),
    toggle_ended hh hd hq rfl rfl (modeRun _), toggle_ended hh hd hq rfl rfl (modeRun _),
    toggle_ended hh hd hq rfl rfl (modeRun _), toggle_ended hh hd hq rfl rfl (modeRun _)⟩

/-- A command with its long wait takes one answer (R231, R232, R245). -/
theorem runs_longCommand (r : Regs) (n : Nat) (x : Byte) :
    Runs (r.sent (n + 1)) (reqSendCommand x ++ seqLongWait r.hs) (sentEvents r.hs false x ++ longEvents r.hs)
      (r.sent n) :=
  (runs_sendCommand r n x).append (runs_longWait r n)

/-- Settles O35: both sequences are a command and the long wait. -/
theorem clearAndHome : Obligations.ClearAndHome := by
  intro s hs hh hd hq sends
  have run := runs_longCommand (regsAtStart hs s []) 0
  have hlong : longEvents (regsAtStart hs s []).hs = if hs.rw = none then [.wait .long] else [] := longEvents_eq hs
  simp only [hlong] at run
  exact ⟨fun hp => frames_ended hp hh hd hq rfl rfl (run Config.opClear),
    fun hp => frames_ended hp hh hd hq rfl rfl (run Config.opHome)⟩

/-! ### The controller after clear or home, with RW not wired -/

/-- A frame before a controller in step: what `exec_write_ctl` says, of the frame's events. -/
theorem frameEvents_ctl {s : State} {hs : Handle} (k : InStep hs s) {i : Instr} {rs : Bool} {x : Byte}
    (hi : shapeOf i = .write rs x) :
    ∃ now n, now + minDuration s.params (settleEvents hs) = (emitAll (frameEvents hs rs x) s).clock ∧
      (emitAll (frameEvents hs rs x) s).ctl = Controller.perform s.params now { s.ctl with draws := n } i := by
  obtain ⟨t, now, n, hx, -, hclock, hctl⟩ := exec_write_ctl k hi
  rw [exec_eq_shape, hi, Shape.run, sendFrame_some k.h] at hx
  cases hx
  exact ⟨now, n, hclock, hctl⟩

/-- With RW not wired the hold and T_SETTLE follow the last fall of E (R142). -/
theorem minDuration_settleEvents_unwired (p : Params) {hs : Handle} (hrw : hs.rw = none) :
    minDuration p (settleEvents hs) = p.tH + p.tSettle := by
  simp [settleEvents, hrw, minDuration, Params.eventNs, Params.ns]

/-- The instructions that take the controller its long execution time, and leave the interface as it is (R245). -/
def LongInstr (i : Instr) : Prop :=
  ∀ p now c, (Controller.perform p now c i).readyAt = Controller.doneAt p now p.tExecLong ∧
    interfaceOf (Controller.perform p now c i) = interfaceOf c

theorem longInstr_clearDisplay : LongInstr .clearDisplay := fun _ _ _ => ⟨rfl, rfl⟩

theorem longInstr_returnHome (x : Bool) : LongInstr (.returnHome x) := fun _ _ _ => ⟨rfl, rfl⟩

/-- A frame and the long wait after it. -/
def longFrameEvents (hs : Handle) (x : Byte) : List Event := frameEvents hs false x ++ [.wait .long]

section Long

variable {s : State} {hs : Handle} (k : InStep hs s) (hrw : hs.rw = none)
  (hlong : s.params.tExecLong ≤ s.params.tSettle + s.params.tLong) {i : Instr} {x : Byte}
  (hi : shapeOf i = .write false x)

include k

theorem longFrameEvents_linesOk : LinesOk hs (emitAll (longFrameEvents hs x) s).port := by
  have hport : (emitAll (longFrameEvents hs x) s).port = (emitAll (frameEvents hs false x) s).port := by
    rw [longFrameEvents, emitAll_append]; rfl
  rw [hport, emitAll_port (frameEvents_not_release hs false x) PinState.undriven]
  exact (frameEvents_linesOk k.wf _ k.lines false x).1

include hrw hi

/-- The instruction is performed at a time that lies the hold, T_SETTLE and T_LONG before the end of the wait. -/
theorem longFrameEvents_ctl :
    ∃ now n, now + (s.params.tH + s.params.tSettle) + s.params.tLong = (emitAll (longFrameEvents hs x) s).clock ∧
      (emitAll (longFrameEvents hs x) s).ctl = Controller.perform s.params now { s.ctl with draws := n } i := by
  obtain ⟨now, n, hclock, hctl⟩ := frameEvents_ctl k hi
  rw [minDuration_settleEvents_unwired _ hrw] at hclock
  refine ⟨now, n, ?_, ?_⟩
  · rw [longFrameEvents, emitAll_append, emitAll_clock [.wait .long], emitAll_params, ← hclock]; rfl
  · rw [longFrameEvents, emitAll_append, emitAll_ctl_of_no_fall (by simp) ((emitAll_h _ s).trans k.h), hctl]

include hlong

/-- The controller is in step again at the end of the wait, having performed the instruction (R245). -/
theorem longFrameEvents_inStep (hperf : LongInstr i) :
    InStep hs (emitAll (longFrameEvents hs x) s) ∧
      ∃ now n, (emitAll (longFrameEvents hs x) s).ctl = Controller.perform s.params now { s.ctl with draws := n } i := by
  obtain ⟨now, n, hclock, hctl⟩ := longFrameEvents_ctl k hrw hi
  obtain ⟨hready, hiface⟩ := hperf s.params now { s.ctl with draws := n }
  obtain ⟨hmode, hhalf⟩ := Prod.ext_iff.1 hiface
  rw [← hctl] at hready hmode hhalf
  refine ⟨⟨(emitAll_h _ s).trans k.h, ?_, longFrameEvents_linesOk k, hmode.trans k.mode, hhalf.trans k.half, ?_⟩,
    now, n, hctl⟩
  · rw [emitAll_params]; exact k.wf
  · rw [hready, ← hclock, Controller.doneAt]; omega

/-- A Set DDRAM Address after the wait is performed on what the instruction has left. -/
theorem setDdramAddress_after_long (hperf : LongInstr i) (a : BitVec 7) :
    ∃ now n now' n', (emitAll (longFrameEvents hs x ++ frameEvents hs false (0x80 ||| a.setWidth 8)) s).ctl =
      Controller.perform s.params now'
        { Controller.perform s.params now { s.ctl with draws := n } i with draws := n' } (.setDdramAddress a) := by
  obtain ⟨k', now, n, hctl⟩ := longFrameEvents_inStep k hrw hlong hi hperf
  obtain ⟨now', n', -, hctl'⟩ := frameEvents_ctl (i := .setDdramAddress a) k' rfl
  rw [hctl, emitAll_params] at hctl'
  exact ⟨now, n, now', n', by rw [emitAll_append]; exact hctl'⟩

end Long

/-- Settles O59: T_SETTLE and T_LONG cover the long execution time, so the controller is in step for the address. -/
theorem commandAfterClearTaken : Obligations.CommandAfterClearTaken := by
  intro s hs a hh w ok hrw hmode hhalf hready hlong after taken
  have k : InStep hs s := ⟨hh, w, ok, hmode, hhalf, hready⟩
  have clear := setDdramAddress_after_long k hrw hlong (i := .clearDisplay) rfl longInstr_clearDisplay a
  have home := setDdramAddress_after_long k hrw hlong (i := .returnHome false) rfl (longInstr_returnHome false) a
  obtain ⟨now, n, now', n', hctl⟩ : ∃ now n now' n', (after 0x01).ctl = _ := clear
  obtain ⟨nowH, nH, nowH', nH', hctlH⟩ : ∃ now n now' n', (after 0x02).ctl = _ := home
  simp only [taken, hctl, hctlH]
  exact ⟨⟨⟨rfl, rfl, rfl, hmode, hhalf⟩, fun _ => rfl⟩, ⟨rfl, rfl, rfl, hmode, hhalf⟩, rfl, rfl⟩

end Sys2Proof.Machine
end

section
/-! PROOF. What needs no handle, and what comes to none: instructions and requests on a null handle, and an init whose
allocation fails (R261 to R263, R293). -/

namespace Sys2Proof.Machine

/-! ### Instructions on a null handle -/

theorem writeBits_none {s : State} (hh : s.h = none) (x : Byte) (w : Width) :
    writeBits x w s = .next (nullHandle s) := by
  unfold writeBits; rw [hh]

/-- With no handle an instruction of any shape records its outcome code; only a read takes a byte, a free one (R261, R262). -/
theorem Shape.run_none {s : State} (hh : s.h = none) (sh : Shape) :
    ∃ b n, sh.run s = .next { s with outcome := .nullHandle, lastRead := b, drawn := n } ∧
      ((∀ rs, sh ≠ .read rs) → b = s.lastRead) := by
  cases sh with
  | write rs x => exact ⟨s.lastRead, s.drawn, sendFrame_none hh rs x, fun _ => rfl⟩
  | read rs => exact ⟨_, _, readFrame_none hh rs, fun hne => absurd rfl (hne rs)⟩
  | nibble v => exact ⟨s.lastRead, s.drawn, writeBits_none hh v .four, fun _ => rfl⟩

/-- Only the two read instructions are read frames (R112, R114). -/
theorem shapeOf_ne_read {i : Instr} (hstatus : ∀ bf ac, i ≠ .readBusyFlagAddress bf ac) (hdata : ∀ d, i ≠ .readData d)
    (rs : Bool) : shapeOf i ≠ .read rs := by
  cases i with
  | readBusyFlagAddress bf ac => exact absurd rfl (hstatus bf ac)
  | readData d => exact absurd rfl (hdata d)
  | _ => exact nofun

/-- Settles O16: an instruction does what its shape does, and no shape does anything without a handle. -/
theorem nullHandleNoOp : Obligations.NullHandleNoOp := by
  intro s i hh
  obtain ⟨b, n, hrun, hlast⟩ := (shapeOf i).run_none hh
  exact ⟨_, (exec_eq_shape i s).trans hrun, rfl, rfl, hh, rfl, rfl, rfl, ⟨rfl, rfl, rfl, rfl, rfl, rfl, rfl, rfl⟩, rfl,
    rfl, fun hstatus hdata => hlast (shapeOf_ne_read hstatus hdata)⟩

/-! ### Requests on a null handle -/

/-- A request on a null handle records its outcome code; only one that reads returns anything, a free value (R262). -/
theorem nullRequest_eq (r : Request) (s : State) :
    ∃ v n, nullRequest r s = { s with outcome := .nullHandle, result := v, drawn := n } ∧
      (r.returnsValue = false → v = .nothing) := by
  unfold nullRequest
  cases r.returnsValue with
  | true => exact ⟨_, _, rfl, nofun⟩
  | false => exact ⟨.nothing, s.drawn, rfl, fun _ => rfl⟩

/-- With no handle there is no width to differ from (R144). -/
theorem widthRefusal_none {s : State} (hh : s.h = none) (r : Request) : widthRefusal r s = none := by
  unfold widthRefusal
  rw [hh]
  cases r.width <;> rfl

/-- With no handle no request but init is refused, and none of them begins (R262, R268). -/
theorem accept_null {s : State} {r : Request} (hh : s.h = none) (hnew : r.newHandle = none) :
    accept r s = .next (nullRequest r s) := by
  rw [accept, refusalOf, hnew]
  simp only [widthRefusal_none hh, hh]

/-- Settles O32: the request is taken by `nullRequest`, which records and returns but does not act. -/
theorem nullHandleRequests : Obligations.NullHandleRequests := by
  intro s r hh hp hnew
  obtain ⟨hphase, htodo, hport⟩ := hp
  obtain ⟨v, n, hnull, hresult⟩ := nullRequest_eq r { s with reqPort := none }
  have hstep : step s = .next (nullRequest r { s with reqPort := none }) :=
    (step_request hphase htodo hport).trans (accept_null hh hnew)
  exact ⟨_, hstep.trans (congrArg _ hnull), ⟨(List.append_nil _).symm, hphase, htodo, rfl, rfl,
    rfl, rfl⟩, hh, rfl, rfl, rfl, rfl, rfl, rfl, rfl, hresult⟩

/-! ### An allocation that fails -/

/-- An init that meets its conditions comes to its allocation (R180, R181, R268). -/
theorem InitPresented.step_eq {s : State} {r : Request} {hs : Handle} (hp : InitPresented s r hs) :
    step s = .next (beginInit r hs { s with reqPort := none }) := by
  obtain ⟨hphase, htodo, hport⟩ := hp.presented
  have hrefusal : refusalOf r { s with reqPort := none } = none := by
    rw [refusalOf, hp.asks]; exact hp.refusal_none
  rw [step_request hphase htodo hport, accept, hrefusal, hp.asks]

/-- A failed allocation takes its answer of the oracle and records the failure (R181, R263). -/
theorem beginInit_failed {s : State} {rest : List Bool} (horacle : s.oracle = false :: rest) (r : Request) (hs : Handle) :
    beginInit r hs s =
      { s with oracle := rest, drawn := s.drawn + 1, result := .handle false, outcome := .allocFail } := by
  unfold beginInit
  rw [draw_cons horacle]
  rfl

/-- Settles O42: the step comes to the allocation, and its failure leaves everything but what is recorded. -/
theorem allocationFailure : Obligations.AllocationFailure := by
  intro s r hs rest hp horacle
  obtain ⟨hphase, htodo, -⟩ := hp.presented
  have hfailed := beginInit_failed (s := { s with reqPort := none }) horacle r hs
  exact ⟨_, hp.step_eq.trans (congrArg _ hfailed), ⟨(List.append_nil _).symm, hphase, htodo, rfl,
    rfl, rfl, rfl⟩, hp.noHandle, rfl, rfl, rfl, rfl, rfl, rfl, rfl⟩

end Sys2Proof.Machine
end

section
/-! PROOF. The least durations of transfers and frames (R309), and the block at reset (R290). -/

namespace Sys2Proof.Machine

/-! ### Least durations -/

/-- The least time of a write transfer: t_x, and T_SETTLE when RW is not wired (R142, R309). -/
def writeNs (p : Params) (hs : Handle) : Nat := p.tAS + p.tPW + p.tH + if hs.wired then 0 else p.tSettle

section Durations

variable (p : Params) (hs : Handle)

theorem minDuration_cons (ev : Event) (evs : List Event) :
    minDuration p (ev :: evs) = p.eventNs ev + minDuration p evs := minDuration_append p [ev] evs

theorem minDuration_strobe (e : Pin) (ps : List Pin) (bs : List Bool) :
    minDuration p (strobe e ps bs) = p.tAS + p.tPW + p.tH := by
  rw [strobe, minDuration_cons, minDuration_pulse, ← Nat.add_assoc]
  rfl

/-- A write transfer takes its strobe, and then the settling. -/
theorem minDuration_writeEvents_eq (x : Byte) : minDuration p (writeEvents hs x) = writeNs p hs := by
  have hlines : minDuration p ((hs.rw.toList.flatMap fun q => [.put q false, .setDirMask hs.mask .out]) ++
      [.putMask hs.mask (spread hs.d (lowBits hs.w x))]) = 0 := by cases hs.rw <;> rfl
  have hsettle : minDuration p (if hs.wired then [] else [.wait .settle]) = if hs.wired then 0 else p.tSettle := by
    cases hs.wired <;> rfl
  rw [writeEvents_eq_strobe, minDuration_append, minDuration_append, hlines, minDuration_strobe, hsettle, Nat.zero_add,
    writeNs]

/-- A read transfer takes its strobe alone. -/
theorem minDuration_readEvents (q : Pin) (bs : List Bool) :
    minDuration p (readEvents hs q bs) = p.tAS + p.tPW + p.tH := by
  rw [readEvents_eq_strobe, minDuration_append, minDuration_strobe]
  exact Nat.zero_add _

/-- A write frame is `8 / W` transfers; driving RS takes no time (R161, R163). -/
theorem minDuration_frameEvents (rs : Bool) (x : Byte) :
    minDuration p (frameEvents hs rs x) = 8 / hs.w.bits * writeNs p hs := by
  have hrs : p.eventNs (.put hs.rs rs) = 0 := rfl
  rw [frameEvents, minDuration_cons, hrs, Nat.zero_add]
  cases hw : hs.w with
  | eight => simp only [byteEvents, hw, minDuration_writeEvents_eq, Width.bits, Nat.reduceDiv, Nat.one_mul]
  | four =>
    simp only [byteEvents, hw, minDuration_append, minDuration_writeEvents_eq, Width.bits, Nat.reduceDiv, Nat.two_mul]

/-- With RW not wired a read frame drives RS alone (R167, R168). -/
theorem minDuration_readFrameEvents_unwired (hrw : hs.rw = none) (rs : Bool) (bs : List Bool) :
    minDuration p (readFrameEvents hs rs bs) = 0 := by
  rw [readFrameEvents, hrw]
  rfl

/-- With RW wired a read frame is `8 / W` read transfers (R166). -/
theorem minDuration_readFrameEvents_wired {q : Pin} (hrw : hs.rw = some q) (rs : Bool) (bs : List Bool) :
    minDuration p (readFrameEvents hs rs bs) = 8 / hs.w.bits * (p.tAS + p.tPW + p.tH) := by
  have hrs : p.eventNs (.put hs.rs rs) = 0 := rfl
  rw [readFrameEvents, minDuration_cons, hrs, Nat.zero_add, hrw]
  cases hs.w with
  | eight => simp only [minDuration_readEvents, Width.bits, Nat.reduceDiv, Nat.one_mul]
  | four => simp only [minDuration_append, minDuration_readEvents, Width.bits, Nat.reduceDiv, Nat.two_mul]

end Durations

/-- Settles O24: with RW not wired the gated frame is its transfers alone, and with RW wired the status read before it
takes as long as the frame. -/
theorem leastDurations : Obligations.LeastDurations := by
  intro p hs rs x bs
  constructor
  · intro hrw
    have hns : writeNs p hs = p.tAS + p.tPW + p.tH + p.tSettle := by simp [writeNs, Handle.wired, hrw]
    have hsent : sentEvents hs rs x = frameEvents hs rs x := by simp [sentEvents, Handle.wired, hrw]
    rw [hsent, minDuration_writeEvents_eq, minDuration_frameEvents, hns]
    exact ⟨rfl, rfl, minDuration_readFrameEvents_unwired p hs hrw rs bs⟩
  · intro hrw
    obtain ⟨q, hq⟩ := Option.ne_none_iff_exists'.1 hrw
    have hns : writeNs p hs = p.tAS + p.tPW + p.tH := by simp [writeNs, Handle.wired, hq]
    have hsent : sentEvents hs rs x = readFrameEvents hs false notBusy ++ frameEvents hs rs x := by
      simp [sentEvents, Handle.wired, hq]
    rw [hsent, minDuration_append, minDuration_writeEvents_eq, minDuration_frameEvents, hns,
      minDuration_readFrameEvents_wired p hs hq, minDuration_readFrameEvents_wired p hs hq, Nat.mul_assoc, Nat.two_mul]
    exact ⟨rfl, rfl, rfl⟩

/-! ### Reset -/

/-- Settles O46: the fields as `State.reset` gives them; a pin that the port does not list is undriven. -/
theorem resetState : Obligations.ResetState := ⟨rfl, fun _ => rfl, rfl, rfl, rfl, rfl⟩

/-- The floors of the OPEN parameters meet their constraints (R9, R10). -/
theorem floors_legal : Params.floors.Legal := by decide

/-- Settles O47: with no handle, no pin and no item, what is left is that the floors are legal and that the controller's
memories, in which nothing is known, are well-formed. -/
theorem invAtReset : Obligations.InvAtReset where
  legal := floors_legal
  pins := ⟨List.Pairwise.nil, nofun⟩
  handle := nofun
  unowned _ := rfl
  lines := nofun
  running hphase := absurd rfl hphase
  items := nofun
  ddram := (unknown_wf 0).1
  cgram := (unknown_wf 0).2

end Sys2Proof.Machine
end
